-- ==== Sys2Proof/Word.lean ====
section
/-! DEFINITION. The widths of the hardware's data (00_scope.md R6): bytes, 16-bit addresses, 32-bit pixels. -/

namespace Sys2Proof

/-- One byte: a register, a memory cell, an opcode or an operand byte (R6). -/
abbrev Byte := BitVec 8

/-- A 16-bit address or program counter (R6, R40). -/
abbrev Addr := BitVec 16

/-- One packed 32-bit RGBA pixel (R6, R25). -/
abbrev Pixel := BitVec 32

end Sys2Proof
end

