-- ==== Sys2Proof/Machine/Bits.lean ====
section
/-! DEFINITION. Bit-field, byte-order and sign-extension helpers of 00_scope.md R8 and R9. -/

namespace Sys2Proof

/-- `hi(v)`: bits 15..8 of a 16-bit value (R8). -/
def hi (w : Addr) : Byte := w.extractLsb' 8 8

/-- `lo(v)`: bits 7..0 of a 16-bit value (R8). -/
def lo (w : Addr) : Byte := w.extractLsb' 0 8

/-- `{h, l}`: the 16-bit value with high byte `h` and low byte `l` (R8, R41). -/
def word (h l : Byte) : Addr := h ++ l

/-- `zext_16(v)` (R9): a byte as an address of page 0. -/
def zext (b : Byte) : Addr := b.setWidth 16

/-- `sext_8(v)` (R9, R72): a byte read as two's complement, as a 16-bit offset. -/
def sext (b : Byte) : Addr := b.signExtend 16

/-- A flag as the number 0 or 1 (R8). -/
def flagBit (f : Bool) : Byte := if f then 1#8 else 0#8

/-- 1 where two addresses lie in different pages, else 0: the test of R109 and R117. -/
def pageCross (p q : Addr) : Nat := if hi p = hi q then 0 else 1

end Sys2Proof
end

