-- ==== Sys2Proof/Syntax.lean ====
section
/-! DEFINITION. The instructions of 30_encoding.md: addressing modes, operand forms, operation ids and `Instr`,
one constructor per mnemonic of spec/opcode_table.json. A row of the table is a constructor applied to an operand
form, or to the row's opcode byte where several rows of a mnemonic share a mode (log entry 3). -/

namespace Sys2Proof

/-- The fifteen addressing-mode ids of R71. -/
inductive Mode where
  | imp | imm | zp | zpx | zpy | izx | izy | izyp | abs | abx | abxp | aby | abyp | ind | rel
  deriving DecidableEq, Repr

/-- The operation ids of the registry (R73, R74): one per mnemonic, and the two synthetic entries (R79). -/
inductive Op where
  | adc | and | asl | aslA | bcc | bcs | beq | bit | bmi | bne | bpl | brk | bvc | bvs
  | clc | cld | cli | clv | cmp | cpx | cpy | dec | dex | dey | eor | inc | inx | iny
  | jmp | jsr | lda | ldx | ldy | lsr | lsrA | nop | ora | pha | php | pla | plp
  | rol | rolA | ror | rorA | rti | rts | sbc | sec | sed | sei | sta | stx | sty
  | tax | tay | tsx | txa | txs | tya
  | slo | rla | sre | rra | dcp | isc | anc | alr | arr | sbx
  | hlt | unimpl
  | nmi | irq
  deriving DecidableEq, Repr

/-- An operand in memory: the mode with its operand bytes (R71), a one-byte operand as a byte, a two-byte operand
assembled little-endian (R72). -/
inductive MemOperand where
  | zp   (b : Byte)
  | zpx  (b : Byte)
  | zpy  (b : Byte)
  | izx  (b : Byte)
  | izy  (b : Byte)
  | izyp (b : Byte)
  | abs  (w : Addr)
  | abx  (w : Addr)
  | abxp (w : Addr)
  | aby  (w : Addr)
  | abyp (w : Addr)
  | ind  (w : Addr)
  deriving DecidableEq, Repr

/-- An operand that is read: the inline byte (IMM) or a byte of memory. -/
inductive Operand where
  | imm (v : Byte)
  | mem (m : MemOperand)
  deriving DecidableEq, Repr

/-- The mode id of a memory operand. -/
def MemOperand.mode : MemOperand → Mode
  | .zp _   => .zp
  | .zpx _  => .zpx
  | .zpy _  => .zpy
  | .izx _  => .izx
  | .izy _  => .izy
  | .izyp _ => .izyp
  | .abs _  => .abs
  | .abx _  => .abx
  | .abxp _ => .abxp
  | .aby _  => .aby
  | .abyp _ => .abyp
  | .ind _  => .ind

/-- The mode id of an operand. -/
def Operand.mode : Operand → Mode
  | .imm _ => .imm
  | .mem m => m.mode

/-- The instructions. A branch carries its offset byte, an immediate-only instruction its inline byte; `anc`, `hlt`
and `unimpl` carry the opcode byte that selects them, since two, twelve and forty-six bytes do (R76 to R78). -/
inductive Instr where
  -- loads, stores, transfers (41_load_store_transfer.md)
  | lda (o : Operand)
  | ldx (o : Operand)
  | ldy (o : Operand)
  | sta (m : MemOperand)
  | stx (m : MemOperand)
  | sty (m : MemOperand)
  | tax
  | tay
  | txa
  | tya
  | tsx
  | txs
  -- stack (42_stack.md)
  | pha
  | pla
  | php
  | plp
  -- logic, arithmetic, compare (43_logic_arith.md)
  | and (o : Operand)
  | ora (o : Operand)
  | eor (o : Operand)
  | bit (m : MemOperand)
  | adc (o : Operand)
  | sbc (o : Operand)
  | cmp (o : Operand)
  | cpx (o : Operand)
  | cpy (o : Operand)
  -- increments, decrements, shifts, rotates (44_incdec_shift.md)
  | inc (m : MemOperand)
  | dec (m : MemOperand)
  | inx
  | iny
  | dex
  | dey
  | asl (m : MemOperand)
  | aslA
  | lsr (m : MemOperand)
  | lsrA
  | rol (m : MemOperand)
  | rolA
  | ror (m : MemOperand)
  | rorA
  -- jumps, call, return, branches (45_control_flow.md)
  | jmp (m : MemOperand)
  | jsr (w : Addr)
  | rts
  | bpl (off : Byte)
  | bmi (off : Byte)
  | bvc (off : Byte)
  | bvs (off : Byte)
  | bcc (off : Byte)
  | bcs (off : Byte)
  | bne (off : Byte)
  | beq (off : Byte)
  -- flags, NOP, software interrupt, return, halt, unimplemented (46_flags_system.md)
  | clc
  | sec
  | cli
  | sei
  | cld
  | sed
  | clv
  | nop
  | brk
  | rti
  | hlt (code : Byte)
  | unimpl (code : Byte)
  -- undocumented operations (47_undocumented.md)
  | slo (m : MemOperand)
  | rla (m : MemOperand)
  | sre (m : MemOperand)
  | rra (m : MemOperand)
  | dcp (m : MemOperand)
  | isc (m : MemOperand)
  | anc (code : Byte) (v : Byte)
  | alr (v : Byte)
  | arr (v : Byte)
  | sbx (v : Byte)
  deriving DecidableEq, Repr

end Sys2Proof
end

