-- ==== Sys2Proof/Config.lean ====
section
/-! DEFINITION. The implementation parameters of 00_scope.md R7 as a record, what makes a configuration acceptable,
and the constants the spec leaves OPEN. The values are in Sys2Proof/Machine/Params.lean. -/

namespace Sys2Proof

/-- `DOT_ORDER` (R7, R302): which end of a video byte's seven dots is the leftmost sample. -/
inductive DotOrder where
  | bit0Leftmost
  | bit6Leftmost
  deriving DecidableEq, Repr

/-- One registry entry (R73): operation id, addressing-mode id, base cycle cost. Its raw code is its index. -/
structure Descriptor where
  op   : Op
  mode : Mode
  base : Nat
  deriving DecidableEq, Repr

/-- The parameters of R7, but for the OPEN one below. -/
structure Config where
  /-- `OPMAP` (R73): the registry, 256 entries indexed by opcode byte, then those of indices 256 and 257. -/
  opmap : List Descriptor
  /-- `STATUS_BITS`: the positions of the six flags in the status byte (R15). -/
  bitN : Nat
  bitV : Nat
  bitD : Nat
  bitI : Nat
  bitZ : Nat
  bitC : Nat
  /-- `STACK_BASE` (R52). -/
  stackBase : Addr
  /-- `VEC_NMI`, `VEC_IRQ` (R53). -/
  vecNmi : Addr
  vecIrq : Addr
  /-- `BRK_PUSH_SKEW` (R228). -/
  brkPushSkew : Addr
  /-- `PHP_BREAK` (R142). -/
  phpBreak : Bool
  /-- `TXS_SETS_NZ` (R131). -/
  txsSetsNZ : Bool
  /-- `HLT_CYCLES` (R77). -/
  hltCycles : Nat
  /-- `SW_RDBANK`, `SW_BANK0`, `SW_BANK1`, `BANK1_READ_VALUE` (R46, R47). -/
  swRdBank : Addr
  swBank0 : Addr
  swBank1 : Addr
  bank1ReadValue : Byte
  /-- `VBANK0_BASE`, `VBANK1_BASE`, `VBANK_SIZE` (R50). -/
  vbank0Base : Addr
  vbank1Base : Addr
  vbankSize : Nat
  /-- `ROM_WRITE_PROTECT` (R51). -/
  romWriteProtect : Bool
  /-- `CYCLE_QUANTUM` (R93). -/
  cycleQuantum : Nat
  /-- `PIXEL_WHITE`, `PIXEL_BLACK`, `DOT_ORDER` (R302). -/
  pixelWhite : Pixel
  pixelBlack : Pixel
  dotOrder : DotOrder
  deriving DecidableEq, Repr

/-- `BIOS_BASE` (R7, R55, D20): OPEN in the spec, so it has no value here and every claim holds whatever it is
(log entry 11). -/
opaque Config.biosBase : Addr

/-- The length of the BIOS window of R51, which `ROM_WRITE_PROTECT = true` would protect: OPEN as its base is
(log entry 11). -/
opaque Config.biosLen : Nat

/-- Is an address inside the BIOS window `BIOS_BASE .. BIOS_BASE + len - 1` (R50, R51)? -/
def Config.inBiosWindow (a : Addr) : Bool :=
  decide (Config.biosBase.toNat ≤ a.toNat ∧ a.toNat < Config.biosBase.toNat + Config.biosLen)

namespace Config

/-- Is an address inside one of the two video-bank windows? -/
abbrev InVideoWindow (c : Config) (a : Addr) : Prop :=
  (c.vbank0Base.toNat ≤ a.toNat ∧ a.toNat < c.vbank0Base.toNat + c.vbankSize) ∨
  (c.vbank1Base.toNat ≤ a.toNat ∧ a.toNat < c.vbank1Base.toNat + c.vbankSize)

/-- A soft switch lies outside the video windows, the zero page and the stack page (R47). -/
abbrev SwitchPlaced (c : Config) (a : Addr) : Prop :=
  ¬ c.InVideoWindow a ∧ 256 ≤ a.toNat ∧
    (a.toNat < c.stackBase.toNat ∨ c.stackBase.toNat + 256 ≤ a.toNat)

/-- Entries of one operation and mode cost alike. HLT, UNIMPL and ANC are excepted: their instructions carry the opcode
byte, so each pays for its own entry (log entry 2). -/
abbrev CostsAlike (c : Config) : Prop :=
  c.opmap.Pairwise (fun d e => d.op = e.op → d.mode = e.mode → d.op ∉ [Op.hlt, .unimpl, .anc] → d.base = e.base)

/-- What R73, R77 and R79 ask of `OPMAP`, with `CostsAlike`: 258 entries, the synthetic ones last and nowhere else, every
halt entry at `HLT_CYCLES`. -/
abbrev RegistryAcceptable (c : Config) : Prop :=
  c.opmap.length = 258 ∧ (c.opmap.drop 256).map (fun d => (d.op, d.mode)) = [(.nmi, .imp), (.irq, .imp)] ∧
  (∀ d ∈ c.opmap.take 256, d.op ∉ [Op.nmi, .irq]) ∧ (∀ d ∈ c.opmap, d.op = .hlt → d.base = c.hltCycles) ∧
  c.CostsAlike

/-- What the spec asks of the other parameters: the three switch addresses differ and are placed as R47 says, the two
windows do not overlap and lie in the address space (R48, R49), the halt costs cycles (R93), the two vectors differ
(R53), and the flags' positions differ and avoid bits 5 and 4 of the status byte (R15). -/
abbrev ValuesAcceptable (c : Config) : Prop :=
  c.swRdBank ≠ c.swBank0 ∧ c.swRdBank ≠ c.swBank1 ∧ c.swBank0 ≠ c.swBank1 ∧
  c.SwitchPlaced c.swRdBank ∧ c.SwitchPlaced c.swBank0 ∧ c.SwitchPlaced c.swBank1 ∧
  (c.vbank0Base.toNat + c.vbankSize ≤ c.vbank1Base.toNat ∨
    c.vbank1Base.toNat + c.vbankSize ≤ c.vbank0Base.toNat) ∧
  c.vbank0Base.toNat + c.vbankSize ≤ 65536 ∧ c.vbank1Base.toNat + c.vbankSize ≤ 65536 ∧
  c.stackBase.toNat + 256 ≤ 65536 ∧
  0 < c.hltCycles ∧ c.vecNmi ≠ c.vecIrq ∧
  [c.bitN, c.bitV, 5, 4, c.bitD, c.bitI, c.bitZ, c.bitC].Nodup ∧
  c.bitN < 8 ∧ c.bitV < 8 ∧ c.bitD < 8 ∧ c.bitI < 8 ∧ c.bitZ < 8 ∧ c.bitC < 8

/-- What the spec asks of a configuration (log entry 21). -/
abbrev Acceptable (c : Config) : Prop := c.RegistryAcceptable ∧ c.ValuesAcceptable

end Config

end Sys2Proof
end

