-- ==== Sys2Proof/Machine/Params.lean ====
section
/-! DEFINITION. The values this spec gives the parameters of 00_scope.md R7 (log entries 1 and 2): the matrix of
30_encoding.md R74 with the two synthetic entries of R79, and the rest. -/

namespace Sys2Proof

/-- The value of `HLT_CYCLES` (R77), which `OPMAP` gives its halt entries. -/
def hltCost : Nat := 2

/-- Row 0x of the matrix of R74. -/
def registryRow0 : List Descriptor :=
  [⟨.brk, .imp, 7⟩, ⟨.ora, .izx, 6⟩, ⟨.hlt, .imp, hltCost⟩, ⟨.slo, .izx, 8⟩,
   ⟨.unimpl, .imp, 0⟩, ⟨.ora, .zp, 3⟩, ⟨.asl, .zp, 5⟩, ⟨.slo, .zp, 5⟩,
   ⟨.php, .imp, 3⟩, ⟨.ora, .imm, 2⟩, ⟨.aslA, .imp, 2⟩, ⟨.anc, .imm, 2⟩,
   ⟨.unimpl, .imp, 0⟩, ⟨.ora, .abs, 4⟩, ⟨.asl, .abs, 6⟩, ⟨.slo, .abs, 6⟩]

/-- Row 1x of the matrix of R74. -/
def registryRow1 : List Descriptor :=
  [⟨.bpl, .rel, 2⟩, ⟨.ora, .izyp, 5⟩, ⟨.hlt, .imp, hltCost⟩, ⟨.slo, .izy, 8⟩,
   ⟨.unimpl, .imp, 0⟩, ⟨.ora, .zpx, 4⟩, ⟨.asl, .zpx, 6⟩, ⟨.slo, .zpx, 6⟩,
   ⟨.clc, .imp, 2⟩, ⟨.ora, .abyp, 4⟩, ⟨.unimpl, .imp, 0⟩, ⟨.slo, .aby, 7⟩,
   ⟨.unimpl, .imp, 0⟩, ⟨.ora, .abxp, 4⟩, ⟨.asl, .abx, 7⟩, ⟨.slo, .abx, 7⟩]

/-- Row 2x of the matrix of R74. -/
def registryRow2 : List Descriptor :=
  [⟨.jsr, .abs, 6⟩, ⟨.and, .izx, 6⟩, ⟨.hlt, .imp, hltCost⟩, ⟨.rla, .izx, 8⟩,
   ⟨.bit, .zp, 3⟩, ⟨.and, .zp, 3⟩, ⟨.rol, .zp, 5⟩, ⟨.rla, .zp, 5⟩,
   ⟨.plp, .imp, 4⟩, ⟨.and, .imm, 2⟩, ⟨.rolA, .imp, 2⟩, ⟨.anc, .imm, 2⟩,
   ⟨.bit, .abs, 4⟩, ⟨.and, .abs, 4⟩, ⟨.rol, .abs, 6⟩, ⟨.rla, .abs, 6⟩]

/-- Row 3x of the matrix of R74. -/
def registryRow3 : List Descriptor :=
  [⟨.bmi, .rel, 2⟩, ⟨.and, .izyp, 5⟩, ⟨.hlt, .imp, hltCost⟩, ⟨.rla, .izy, 8⟩,
   ⟨.unimpl, .imp, 0⟩, ⟨.and, .zpx, 4⟩, ⟨.rol, .zpx, 6⟩, ⟨.rla, .zpx, 6⟩,
   ⟨.sec, .imp, 2⟩, ⟨.and, .abyp, 4⟩, ⟨.unimpl, .imp, 0⟩, ⟨.rla, .aby, 7⟩,
   ⟨.unimpl, .imp, 0⟩, ⟨.and, .abxp, 4⟩, ⟨.rol, .abx, 7⟩, ⟨.rla, .abx, 7⟩]

/-- Row 4x of the matrix of R74. -/
def registryRow4 : List Descriptor :=
  [⟨.rti, .imp, 6⟩, ⟨.eor, .izx, 6⟩, ⟨.hlt, .imp, hltCost⟩, ⟨.sre, .izx, 8⟩,
   ⟨.unimpl, .imp, 0⟩, ⟨.eor, .zp, 3⟩, ⟨.lsr, .zp, 5⟩, ⟨.sre, .zp, 5⟩,
   ⟨.pha, .imp, 3⟩, ⟨.eor, .imm, 2⟩, ⟨.lsrA, .imp, 2⟩, ⟨.alr, .imm, 2⟩,
   ⟨.jmp, .abs, 3⟩, ⟨.eor, .abs, 4⟩, ⟨.lsr, .abs, 6⟩, ⟨.sre, .abs, 6⟩]

/-- Row 5x of the matrix of R74. -/
def registryRow5 : List Descriptor :=
  [⟨.bvc, .rel, 2⟩, ⟨.eor, .izyp, 5⟩, ⟨.hlt, .imp, hltCost⟩, ⟨.sre, .izy, 8⟩,
   ⟨.unimpl, .imp, 0⟩, ⟨.eor, .zpx, 4⟩, ⟨.lsr, .zpx, 6⟩, ⟨.sre, .zpx, 6⟩,
   ⟨.cli, .imp, 2⟩, ⟨.eor, .abyp, 4⟩, ⟨.unimpl, .imp, 0⟩, ⟨.sre, .aby, 7⟩,
   ⟨.unimpl, .imp, 0⟩, ⟨.eor, .abxp, 4⟩, ⟨.lsr, .abx, 7⟩, ⟨.sre, .abx, 7⟩]

/-- Row 6x of the matrix of R74. -/
def registryRow6 : List Descriptor :=
  [⟨.rts, .imp, 6⟩, ⟨.adc, .izx, 6⟩, ⟨.hlt, .imp, hltCost⟩, ⟨.rra, .izx, 8⟩,
   ⟨.unimpl, .imp, 0⟩, ⟨.adc, .zp, 3⟩, ⟨.ror, .zp, 5⟩, ⟨.rra, .zp, 5⟩,
   ⟨.pla, .imp, 4⟩, ⟨.adc, .imm, 2⟩, ⟨.rorA, .imp, 2⟩, ⟨.arr, .imm, 2⟩,
   ⟨.jmp, .ind, 5⟩, ⟨.adc, .abs, 4⟩, ⟨.ror, .abs, 6⟩, ⟨.rra, .abs, 6⟩]

/-- Row 7x of the matrix of R74. -/
def registryRow7 : List Descriptor :=
  [⟨.bvs, .rel, 2⟩, ⟨.adc, .izyp, 5⟩, ⟨.hlt, .imp, hltCost⟩, ⟨.rra, .izy, 8⟩,
   ⟨.unimpl, .imp, 0⟩, ⟨.adc, .zpx, 4⟩, ⟨.ror, .zpx, 6⟩, ⟨.rra, .zpx, 6⟩,
   ⟨.sei, .imp, 2⟩, ⟨.adc, .abyp, 4⟩, ⟨.unimpl, .imp, 0⟩, ⟨.rra, .aby, 7⟩,
   ⟨.unimpl, .imp, 0⟩, ⟨.adc, .abxp, 4⟩, ⟨.ror, .abx, 7⟩, ⟨.rra, .abx, 7⟩]

/-- Row 8x of the matrix of R74. -/
def registryRow8 : List Descriptor :=
  [⟨.unimpl, .imp, 0⟩, ⟨.sta, .izx, 6⟩, ⟨.unimpl, .imp, 0⟩, ⟨.unimpl, .imp, 0⟩,
   ⟨.sty, .zp, 3⟩, ⟨.sta, .zp, 3⟩, ⟨.stx, .zp, 3⟩, ⟨.unimpl, .imp, 0⟩,
   ⟨.dey, .imp, 2⟩, ⟨.unimpl, .imp, 0⟩, ⟨.txa, .imp, 2⟩, ⟨.unimpl, .imp, 0⟩,
   ⟨.sty, .abs, 4⟩, ⟨.sta, .abs, 4⟩, ⟨.stx, .abs, 4⟩, ⟨.unimpl, .imp, 0⟩]

/-- Row 9x of the matrix of R74. -/
def registryRow9 : List Descriptor :=
  [⟨.bcc, .rel, 2⟩, ⟨.sta, .izy, 6⟩, ⟨.hlt, .imp, hltCost⟩, ⟨.unimpl, .imp, 0⟩,
   ⟨.sty, .zpx, 4⟩, ⟨.sta, .zpx, 4⟩, ⟨.stx, .zpy, 4⟩, ⟨.unimpl, .imp, 0⟩,
   ⟨.tya, .imp, 2⟩, ⟨.sta, .aby, 5⟩, ⟨.txs, .imp, 2⟩, ⟨.unimpl, .imp, 0⟩,
   ⟨.unimpl, .imp, 0⟩, ⟨.sta, .abx, 5⟩, ⟨.unimpl, .imp, 0⟩, ⟨.unimpl, .imp, 0⟩]

/-- Row Ax of the matrix of R74. -/
def registryRowA : List Descriptor :=
  [⟨.ldy, .imm, 2⟩, ⟨.lda, .izx, 6⟩, ⟨.ldx, .imm, 2⟩, ⟨.unimpl, .imp, 0⟩,
   ⟨.ldy, .zp, 3⟩, ⟨.lda, .zp, 3⟩, ⟨.ldx, .zp, 3⟩, ⟨.unimpl, .imp, 0⟩,
   ⟨.tay, .imp, 2⟩, ⟨.lda, .imm, 2⟩, ⟨.tax, .imp, 2⟩, ⟨.unimpl, .imp, 0⟩,
   ⟨.ldy, .abs, 4⟩, ⟨.lda, .abs, 4⟩, ⟨.ldx, .abs, 4⟩, ⟨.unimpl, .imp, 0⟩]

/-- Row Bx of the matrix of R74. -/
def registryRowB : List Descriptor :=
  [⟨.bcs, .rel, 2⟩, ⟨.lda, .izyp, 5⟩, ⟨.hlt, .imp, hltCost⟩, ⟨.unimpl, .imp, 0⟩,
   ⟨.ldy, .zpx, 4⟩, ⟨.lda, .zpx, 4⟩, ⟨.ldx, .zpy, 4⟩, ⟨.unimpl, .imp, 0⟩,
   ⟨.clv, .imp, 2⟩, ⟨.lda, .abyp, 4⟩, ⟨.tsx, .imp, 2⟩, ⟨.unimpl, .imp, 0⟩,
   ⟨.ldy, .abxp, 4⟩, ⟨.lda, .abxp, 4⟩, ⟨.ldx, .abyp, 4⟩, ⟨.unimpl, .imp, 0⟩]

/-- Row Cx of the matrix of R74. -/
def registryRowC : List Descriptor :=
  [⟨.cpy, .imm, 2⟩, ⟨.cmp, .izx, 6⟩, ⟨.unimpl, .imp, 0⟩, ⟨.dcp, .izx, 8⟩,
   ⟨.cpy, .zp, 3⟩, ⟨.cmp, .zp, 3⟩, ⟨.dec, .zp, 5⟩, ⟨.dcp, .zp, 5⟩,
   ⟨.iny, .imp, 2⟩, ⟨.cmp, .imm, 2⟩, ⟨.dex, .imp, 2⟩, ⟨.sbx, .imm, 2⟩,
   ⟨.cpy, .abs, 4⟩, ⟨.cmp, .abs, 4⟩, ⟨.dec, .abs, 6⟩, ⟨.dcp, .abs, 6⟩]

/-- Row Dx of the matrix of R74. -/
def registryRowD : List Descriptor :=
  [⟨.bne, .rel, 2⟩, ⟨.cmp, .izyp, 5⟩, ⟨.hlt, .imp, hltCost⟩, ⟨.dcp, .izy, 8⟩,
   ⟨.unimpl, .imp, 0⟩, ⟨.cmp, .zpx, 4⟩, ⟨.dec, .zpx, 6⟩, ⟨.dcp, .zpx, 6⟩,
   ⟨.cld, .imp, 2⟩, ⟨.cmp, .abyp, 4⟩, ⟨.unimpl, .imp, 0⟩, ⟨.dcp, .aby, 7⟩,
   ⟨.unimpl, .imp, 0⟩, ⟨.cmp, .abxp, 4⟩, ⟨.dec, .abx, 7⟩, ⟨.dcp, .abx, 7⟩]

/-- Row Ex of the matrix of R74. -/
def registryRowE : List Descriptor :=
  [⟨.cpx, .imm, 2⟩, ⟨.sbc, .izx, 6⟩, ⟨.unimpl, .imp, 0⟩, ⟨.isc, .izx, 8⟩,
   ⟨.cpx, .zp, 3⟩, ⟨.sbc, .zp, 3⟩, ⟨.inc, .zp, 5⟩, ⟨.isc, .zp, 5⟩,
   ⟨.inx, .imp, 2⟩, ⟨.sbc, .imm, 2⟩, ⟨.nop, .imp, 2⟩, ⟨.unimpl, .imp, 0⟩,
   ⟨.cpx, .abs, 4⟩, ⟨.sbc, .abs, 4⟩, ⟨.inc, .abs, 6⟩, ⟨.isc, .abs, 6⟩]

/-- Row Fx of the matrix of R74. -/
def registryRowF : List Descriptor :=
  [⟨.beq, .rel, 2⟩, ⟨.sbc, .izyp, 5⟩, ⟨.hlt, .imp, hltCost⟩, ⟨.isc, .izy, 8⟩,
   ⟨.unimpl, .imp, 0⟩, ⟨.sbc, .zpx, 4⟩, ⟨.inc, .zpx, 6⟩, ⟨.isc, .zpx, 6⟩,
   ⟨.sed, .imp, 2⟩, ⟨.sbc, .abyp, 4⟩, ⟨.unimpl, .imp, 0⟩, ⟨.isc, .aby, 7⟩,
   ⟨.unimpl, .imp, 0⟩, ⟨.sbc, .abxp, 4⟩, ⟨.inc, .abx, 7⟩, ⟨.isc, .abx, 7⟩]

/-- The sixteen rows of the matrix of R74, high nibble 0 to F. -/
def registryRows : List (List Descriptor) :=
  [registryRow0, registryRow1, registryRow2, registryRow3, registryRow4, registryRow5, registryRow6, registryRow7] ++
  [registryRow8, registryRow9, registryRowA, registryRowB, registryRowC, registryRowD, registryRowE, registryRowF]

/-- The two synthetic entries, index 256 (NMI) and 257 (IRQ), mode IMP, base cost 7 (R79). -/
def syntheticRows : List Descriptor := [⟨.nmi, .imp, 7⟩, ⟨.irq, .imp, 7⟩]

/-- The value of `OPMAP` (R28, R73): the 258 descriptors, in the order of their indices (log entry 2). -/
def registry : List Descriptor := registryRows.flatten ++ syntheticRows

/-- The configuration of this spec, field by field the table of R7. -/
def cfg : Config :=
  { opmap := registry
    bitN := 7
    bitV := 6
    bitD := 3
    bitI := 2
    bitZ := 1
    bitC := 0
    stackBase := 0x0100#16
    vecNmi := 0xFFFA#16
    vecIrq := 0xFFFE#16
    brkPushSkew := 1#16
    phpBreak := true
    txsSetsNZ := false
    hltCycles := hltCost
    swRdBank := 0xC01C#16
    swBank0 := 0xC054#16
    swBank1 := 0xC055#16
    bank1ReadValue := 0x80#8
    vbank0Base := 0x2000#16
    vbank1Base := 0x4000#16
    vbankSize := 0x2000
    romWriteProtect := false
    cycleQuantum := 17030
    pixelWhite := 0xFFFFFFFF#32
    pixelBlack := 0x000000FF#32
    dotOrder := .bit0Leftmost }

end Sys2Proof
end

