-- ==== Sys2Proof/WellFormed.lean ====
section
/-! DEFINITION. Which operand forms each instruction has: the lists of 30_encoding.md R75 to R78, read operation by
operation (the decoder reads the matrix of R74, which the spec says is the same assignment). -/

namespace Sys2Proof

/-- The eight forms of ADC, AND, CMP, EOR, LDA, ORA, SBC (R75). -/
def accModes : List Mode := [.imm, .zp, .zpx, .abs, .abxp, .abyp, .izx, .izyp]

/-- The seven forms of STA (R75). -/
def staModes : List Mode := [.zp, .zpx, .abs, .abx, .aby, .izx, .izy]

/-- The four forms of ASL, LSR, ROL, ROR, INC, DEC on memory (R75). -/
def rmwModes : List Mode := [.zp, .zpx, .abs, .abx]

/-- The seven forms of SLO, RLA, SRE, RRA, DCP, ISC (R76). -/
def undocModes : List Mode := [.zp, .zpx, .abs, .abx, .aby, .izx, .izy]

/-- The twelve halt bytes (R77). -/
def hltCodes : List Byte :=
  [0x02#8, 0x12#8, 0x22#8, 0x32#8, 0x42#8, 0x52#8, 0x62#8, 0x72#8, 0x92#8, 0xB2#8, 0xD2#8, 0xF2#8]

/-- The forty-six bytes of the sentinel (R78). -/
def unimplCodes : List Byte :=
  [0x04#8, 0x0C#8, 0x14#8, 0x1A#8, 0x1C#8, 0x34#8, 0x3A#8, 0x3C#8, 0x44#8, 0x54#8, 0x5A#8, 0x5C#8] ++
  [0x64#8, 0x74#8, 0x7A#8, 0x7C#8, 0x80#8, 0x82#8, 0x83#8, 0x87#8, 0x89#8, 0x8B#8, 0x8F#8, 0x93#8] ++
  [0x97#8, 0x9B#8, 0x9C#8, 0x9E#8, 0x9F#8, 0xA3#8, 0xA7#8, 0xAB#8, 0xAF#8, 0xB3#8, 0xB7#8, 0xBB#8] ++
  [0xBF#8, 0xC2#8, 0xD4#8, 0xDA#8, 0xDC#8, 0xE2#8, 0xEB#8, 0xF4#8, 0xFA#8, 0xFC#8]

/-- The two bytes of ANC (R76). -/
def ancCodes : List Byte := [0x0B#8, 0x2B#8]

/-- Does the instruction set have this instruction with this operand form? -/
def Instr.wellFormed : Instr → Bool
  | .lda o => decide (o.mode ∈ accModes)
  | .ldx o => decide (o.mode ∈ [Mode.imm, .zp, .zpy, .abs, .abyp])
  | .ldy o => decide (o.mode ∈ [Mode.imm, .zp, .zpx, .abs, .abxp])
  | .sta m => decide (m.mode ∈ staModes)
  | .stx m => decide (m.mode ∈ [Mode.zp, .zpy, .abs])
  | .sty m => decide (m.mode ∈ [Mode.zp, .zpx, .abs])
  | .tax | .tay | .txa | .tya | .tsx | .txs => true
  | .pha | .pla | .php | .plp => true
  | .and o | .ora o | .eor o | .adc o | .sbc o | .cmp o => decide (o.mode ∈ accModes)
  | .bit m => decide (m.mode ∈ [Mode.zp, .abs])
  | .cpx o | .cpy o => decide (o.mode ∈ [Mode.imm, .zp, .abs])
  | .inc m | .dec m | .asl m | .lsr m | .rol m | .ror m => decide (m.mode ∈ rmwModes)
  | .inx | .iny | .dex | .dey | .aslA | .lsrA | .rolA | .rorA => true
  | .jmp m => decide (m.mode ∈ [Mode.abs, .ind])
  | .jsr _ | .rts => true
  | .bpl _ | .bmi _ | .bvc _ | .bvs _ | .bcc _ | .bcs _ | .bne _ | .beq _ => true
  | .clc | .sec | .cli | .sei | .cld | .sed | .clv | .nop | .brk | .rti => true
  | .hlt code => decide (code ∈ hltCodes)
  | .unimpl code => decide (code ∈ unimplCodes)
  | .slo m | .rla m | .sre m | .rra m | .dcp m | .isc m => decide (m.mode ∈ undocModes)
  | .anc code _ => decide (code ∈ ancCodes)
  | .alr _ | .arr _ | .sbx _ => true

end Sys2Proof
end

