-- ==== Sys2Proof/Decode.lean ====
section
/-! DEFINITION. The lookup in the opcode registry `OPMAP` of the configuration (30_encoding.md R73 to R80), the decoder
over bytes, total and rejecting by name, the encoder written from the same registry, and the host's
`decodeTableWord`. -/

namespace Sys2Proof

/-- `lookup` (R73): `OPMAP[i]`. Total; the registry's own domain is 0..257, beyond it the sentinel stands. -/
def lookup (i : Nat) : Descriptor :=
  match cfg.opmap[i]? with
  | some d => d
  | none => ⟨.unimpl, .imp, 0⟩

/-- The base cycle cost `OPMAP` gives an operation in a mode (R80). `Config.CostsAlike` asks that its entries of one
operation and mode cost alike, so this is the cost of `OPMAP[idx]` whichever of them was fetched; the operations whose
instruction carries its byte take `entryCycles`. An operation in a mode `OPMAP` does not pair it with costs 0 (log
entry 13). -/
def baseCycles (op : Op) (mode : Mode) : Nat :=
  match cfg.opmap.find? (fun d => decide (d.op = op) && decide (d.mode = mode)) with
  | some d => d.base
  | none => 0

/-- The base cycle cost of `OPMAP[code]` (R92), where that entry is of the operation in the mode; an instruction that
carries another byte is ill-formed and pays the operation's cost (log entry 13). -/
def entryCycles (op : Op) (mode : Mode) (code : Byte) : Nat :=
  if (lookup code.toNat).op = op ∧ (lookup code.toNat).mode = mode then (lookup code.toNat).base else baseCycles op mode

/-- How many operand bytes follow the opcode (R70, R71). -/
def Mode.operandCount : Mode → Nat
  | .imp => 0
  | .imm | .zp | .zpx | .zpy | .izx | .izy | .izyp | .rel => 1
  | .abs | .abx | .abxp | .aby | .abyp | .ind => 2

/-! ### Operand assembly (R71, R72) -/

/-- The memory operand a mode makes of the operand bytes, where it is a mode with an effective address in memory. -/
def MemOperand.ofMode (mode : Mode) (b1 b2 : Byte) : Option MemOperand :=
  match mode with
  | .zp   => some (.zp b1)
  | .zpx  => some (.zpx b1)
  | .zpy  => some (.zpy b1)
  | .izx  => some (.izx b1)
  | .izy  => some (.izy b1)
  | .izyp => some (.izyp b1)
  | .abs  => some (.abs (word b2 b1))
  | .abx  => some (.abx (word b2 b1))
  | .abxp => some (.abxp (word b2 b1))
  | .aby  => some (.aby (word b2 b1))
  | .abyp => some (.abyp (word b2 b1))
  | .ind  => some (.ind (word b2 b1))
  | .imp | .imm | .rel => none

/-- The operand a mode makes of the operand bytes: the inline byte or a memory operand. -/
def Operand.ofMode (mode : Mode) (b1 b2 : Byte) : Option Operand :=
  match mode with
  | .imm => some (.imm b1)
  | m => (MemOperand.ofMode m b1 b2).map .mem

/-- The inline byte, in mode `want` only. -/
def inlineByte (want mode : Mode) (b1 : Byte) : Option Byte :=
  if mode = want then some b1 else none

/-- An instruction without operand, in mode IMP only. -/
def implied (mode : Mode) (i : Instr) : Option Instr :=
  if mode = .imp then some i else none

/-- The instruction of an operation, a mode, its opcode byte and its operand bytes; none where the operation has no
form in that mode. -/
def Instr.ofParts (op : Op) (mode : Mode) (code b1 b2 : Byte) : Option Instr :=
  match op with
  | .lda => (Operand.ofMode mode b1 b2).map .lda
  | .ldx => (Operand.ofMode mode b1 b2).map .ldx
  | .ldy => (Operand.ofMode mode b1 b2).map .ldy
  | .and => (Operand.ofMode mode b1 b2).map .and
  | .ora => (Operand.ofMode mode b1 b2).map .ora
  | .eor => (Operand.ofMode mode b1 b2).map .eor
  | .adc => (Operand.ofMode mode b1 b2).map .adc
  | .sbc => (Operand.ofMode mode b1 b2).map .sbc
  | .cmp => (Operand.ofMode mode b1 b2).map .cmp
  | .cpx => (Operand.ofMode mode b1 b2).map .cpx
  | .cpy => (Operand.ofMode mode b1 b2).map .cpy
  | .sta => (MemOperand.ofMode mode b1 b2).map .sta
  | .stx => (MemOperand.ofMode mode b1 b2).map .stx
  | .sty => (MemOperand.ofMode mode b1 b2).map .sty
  | .bit => (MemOperand.ofMode mode b1 b2).map .bit
  | .inc => (MemOperand.ofMode mode b1 b2).map .inc
  | .dec => (MemOperand.ofMode mode b1 b2).map .dec
  | .asl => (MemOperand.ofMode mode b1 b2).map .asl
  | .lsr => (MemOperand.ofMode mode b1 b2).map .lsr
  | .rol => (MemOperand.ofMode mode b1 b2).map .rol
  | .ror => (MemOperand.ofMode mode b1 b2).map .ror
  | .jmp => (MemOperand.ofMode mode b1 b2).map .jmp
  | .slo => (MemOperand.ofMode mode b1 b2).map .slo
  | .rla => (MemOperand.ofMode mode b1 b2).map .rla
  | .sre => (MemOperand.ofMode mode b1 b2).map .sre
  | .rra => (MemOperand.ofMode mode b1 b2).map .rra
  | .dcp => (MemOperand.ofMode mode b1 b2).map .dcp
  | .isc => (MemOperand.ofMode mode b1 b2).map .isc
  | .jsr => if mode = .abs then some (.jsr (word b2 b1)) else none
  | .bpl => (inlineByte .rel mode b1).map .bpl
  | .bmi => (inlineByte .rel mode b1).map .bmi
  | .bvc => (inlineByte .rel mode b1).map .bvc
  | .bvs => (inlineByte .rel mode b1).map .bvs
  | .bcc => (inlineByte .rel mode b1).map .bcc
  | .bcs => (inlineByte .rel mode b1).map .bcs
  | .bne => (inlineByte .rel mode b1).map .bne
  | .beq => (inlineByte .rel mode b1).map .beq
  | .tax => implied mode .tax
  | .tay => implied mode .tay
  | .txa => implied mode .txa
  | .tya => implied mode .tya
  | .tsx => implied mode .tsx
  | .txs => implied mode .txs
  | .pha => implied mode .pha
  | .pla => implied mode .pla
  | .php => implied mode .php
  | .plp => implied mode .plp
  | .inx => implied mode .inx
  | .iny => implied mode .iny
  | .dex => implied mode .dex
  | .dey => implied mode .dey
  | .aslA => implied mode .aslA
  | .lsrA => implied mode .lsrA
  | .rolA => implied mode .rolA
  | .rorA => implied mode .rorA
  | .rts => implied mode .rts
  | .clc => implied mode .clc
  | .sec => implied mode .sec
  | .cli => implied mode .cli
  | .sei => implied mode .sei
  | .cld => implied mode .cld
  | .sed => implied mode .sed
  | .clv => implied mode .clv
  | .nop => implied mode .nop
  | .brk => implied mode .brk
  | .rti => implied mode .rti
  | .hlt => implied mode (.hlt code)
  | .unimpl => implied mode (.unimpl code)
  | .anc => (inlineByte .imm mode b1).map (.anc code)
  | .alr => (inlineByte .imm mode b1).map .alr
  | .arr => (inlineByte .imm mode b1).map .arr
  | .sbx => (inlineByte .imm mode b1).map .sbx
  | .nmi | .irq => none

/-! ### The decoder (R81) -/

/-- Why a list of bytes does not begin with an instruction. -/
inductive DecodeError where
  /-- The list ends before the instruction does. -/
  | truncated
  /-- The registry pairs an operation with a mode it has no form for; no entry of this spec's registry does. -/
  | noForm (op : Op) (mode : Mode)
  deriving DecidableEq, Repr

/-- What the decoder answers: the instruction and the bytes after it, or an error by name. -/
inductive Decoded where
  | ok (i : Instr) (rest : List Byte)
  | error (e : DecodeError)
  deriving DecidableEq, Repr

/-- The instruction of a descriptor and its bytes, or the error. -/
def decodeWith (d : Descriptor) (code b1 b2 : Byte) (rest : List Byte) : Decoded :=
  match Instr.ofParts d.op d.mode code b1 b2 with
  | some i => .ok i rest
  | none => .error (.noForm d.op d.mode)

/-- Decode the instruction at the head of a list of bytes (R81): the opcode byte selects the descriptor, its mode says
how many operand bytes follow. -/
def decode : List Byte → Decoded
  | [] => .error .truncated
  | code :: tail =>
    match (lookup code.toNat).mode.operandCount, tail with
    | 0, rest => decodeWith (lookup code.toNat) code 0 0 rest
    | 1, b1 :: rest => decodeWith (lookup code.toNat) code b1 0 rest
    | 2, b1 :: b2 :: rest => decodeWith (lookup code.toNat) code b1 b2 rest
    | _, _ => .error .truncated

/-! ### The encoder (R70, R72, R74) -/

/-- The operation id of an instruction. -/
def Instr.op : Instr → Op
  | .lda _ => .lda
  | .ldx _ => .ldx
  | .ldy _ => .ldy
  | .and _ => .and
  | .ora _ => .ora
  | .eor _ => .eor
  | .adc _ => .adc
  | .sbc _ => .sbc
  | .cmp _ => .cmp
  | .cpx _ => .cpx
  | .cpy _ => .cpy
  | .sta _ => .sta
  | .stx _ => .stx
  | .sty _ => .sty
  | .bit _ => .bit
  | .inc _ => .inc
  | .dec _ => .dec
  | .asl _ => .asl
  | .lsr _ => .lsr
  | .rol _ => .rol
  | .ror _ => .ror
  | .jmp _ => .jmp
  | .slo _ => .slo
  | .rla _ => .rla
  | .sre _ => .sre
  | .rra _ => .rra
  | .dcp _ => .dcp
  | .isc _ => .isc
  | .bpl _ => .bpl
  | .bmi _ => .bmi
  | .bvc _ => .bvc
  | .bvs _ => .bvs
  | .bcc _ => .bcc
  | .bcs _ => .bcs
  | .bne _ => .bne
  | .beq _ => .beq
  | .jsr _ => .jsr
  | .tax => .tax
  | .tay => .tay
  | .txa => .txa
  | .tya => .tya
  | .tsx => .tsx
  | .txs => .txs
  | .pha => .pha
  | .pla => .pla
  | .php => .php
  | .plp => .plp
  | .inx => .inx
  | .iny => .iny
  | .dex => .dex
  | .dey => .dey
  | .aslA => .aslA
  | .lsrA => .lsrA
  | .rolA => .rolA
  | .rorA => .rorA
  | .rts => .rts
  | .clc => .clc
  | .sec => .sec
  | .cli => .cli
  | .sei => .sei
  | .cld => .cld
  | .sed => .sed
  | .clv => .clv
  | .nop => .nop
  | .brk => .brk
  | .rti => .rti
  | .hlt _ => .hlt
  | .unimpl _ => .unimpl
  | .anc _ _ => .anc
  | .alr _ => .alr
  | .arr _ => .arr
  | .sbx _ => .sbx

/-- The mode id of an instruction. -/
def Instr.mode : Instr → Mode
  | .lda o | .ldx o | .ldy o | .and o | .ora o | .eor o | .adc o | .sbc o | .cmp o | .cpx o | .cpy o => o.mode
  | .sta m | .stx m | .sty m | .bit m | .inc m | .dec m | .asl m | .lsr m | .rol m | .ror m | .jmp m | .slo m
  | .rla m | .sre m | .rra m | .dcp m | .isc m => m.mode
  | .bpl _ | .bmi _ | .bvc _ | .bvs _ | .bcc _ | .bcs _ | .bne _ | .beq _ => .rel
  | .jsr _ => .abs
  | .tax | .tay | .txa | .tya | .tsx | .txs | .pha | .pla | .php | .plp | .inx | .iny | .dex | .dey | .aslA
  | .lsrA | .rolA | .rorA | .rts | .clc | .sec | .cli | .sei | .cld | .sed | .clv | .nop | .brk | .rti => .imp
  | .hlt _ | .unimpl _ => .imp
  | .anc _ _ | .alr _ | .arr _ | .sbx _ => .imm

/-- The bytes of a 16-bit operand, low byte first (R72). -/
def wordBytes (w : Addr) : List Byte := [lo w, hi w]

/-- The operand bytes of a memory operand. -/
def MemOperand.bytes : MemOperand → List Byte
  | .zp b | .zpx b | .zpy b | .izx b | .izy b | .izyp b => [b]
  | .abs w | .abx w | .abxp w | .aby w | .abyp w | .ind w => wordBytes w

/-- The operand bytes of an operand. -/
def Operand.bytes : Operand → List Byte
  | .imm v => [v]
  | .mem m => m.bytes

/-- The operand bytes of an instruction. -/
def Instr.operandBytes : Instr → List Byte
  | .lda o | .ldx o | .ldy o | .and o | .ora o | .eor o | .adc o | .sbc o | .cmp o | .cpx o | .cpy o => o.bytes
  | .sta m | .stx m | .sty m | .bit m | .inc m | .dec m | .asl m | .lsr m | .rol m | .ror m | .jmp m | .slo m
  | .rla m | .sre m | .rra m | .dcp m | .isc m => m.bytes
  | .bpl b | .bmi b | .bvc b | .bvs b | .bcc b | .bcs b | .bne b | .beq b => [b]
  | .jsr w => wordBytes w
  | .tax | .tay | .txa | .tya | .tsx | .txs | .pha | .pla | .php | .plp | .inx | .iny | .dex | .dey | .aslA
  | .lsrA | .rolA | .rorA | .rts | .clc | .sec | .cli | .sei | .cld | .sed | .clv | .nop | .brk | .rti => []
  | .hlt _ | .unimpl _ => []
  | .anc _ v | .alr v | .arr v | .sbx v => [v]

/-- The first opcode byte the registry gives an operation in a mode. -/
def opcodeOf (op : Op) (mode : Mode) : Option Byte :=
  (cfg.opmap.findIdx? (fun d => decide (d.op = op) && decide (d.mode = mode))).map (BitVec.ofNat 8)

/-- The opcode byte of an instruction: its own where it carries one, else the registry's. -/
def Instr.opcode : Instr → Option Byte
  | .hlt code | .unimpl code | .anc code _ => some code
  | i => opcodeOf i.op i.mode

/-- The bytes of an instruction, none where the registry has no byte for its operation and mode. -/
def encode (i : Instr) : Option (List Byte) :=
  i.opcode.map (fun code => code :: i.operandBytes)

/-- The length of an instruction in bytes (R70). -/
def Instr.length (i : Instr) : Nat := 1 + i.mode.operandCount

/-! ### The host's reading of a row of the opcode table -/

/-- The bytes of a word of `nbits` bits, first byte in bits 7..0; every bit above `nbits` is 0. -/
def tableBytes (nbits w : Nat) : List Byte :=
  [BitVec.ofNat 8 (w % 2 ^ nbits), BitVec.ofNat 8 (w % 2 ^ nbits / 256), BitVec.ofNat 8 (w % 2 ^ nbits / 65536)]

/-- The instruction the decoder reads from an instruction whose bits are `w`, numbered as the opcode table numbers
them, operand bytes the table gives no bits to being 0. -/
def decodeTableWord (nbits w : Nat) : Option Instr :=
  match decode (tableBytes nbits w) with
  | .ok i _ => some i
  | .error _ => none

end Sys2Proof
end

