-- ==== Sys2Proof/Machine/State.lean ====
section
/-! DEFINITION. The state of the machine (10_state.md R10 to R29), its faults and refusals, and the state after
construction and reset (R32, R350 to R352). -/

namespace Sys2Proof.Machine

/-- The six flags, stored unpacked (R13). -/
structure Flags where
  n : Bool
  v : Bool
  d : Bool
  i : Bool
  z : Bool
  c : Bool
  deriving DecidableEq, Repr

/-- The video bank selected (R21): one bit. -/
inductive Bank where
  | bank0
  | bank1
  deriving DecidableEq, Repr

/-- Memory as address and byte pairs, addresses strictly rising, no byte 0x00 listed: an unlisted address reads 0x00,
the reset value of every byte (R20). Its operations are in Sys2Proof/Machine/Ops.lean. -/
abbrev Memory := List Host.Cell

/-- The framebuffer (R25): 384 rows, top to bottom, of 560 pixels, left to right. -/
abbrev Framebuffer := Vector (Vector Pixel 560) 384

/-- Everything the spec gives the machine (R29). -/
structure State where
  /-- `A`, `X`, `Y` (R10). -/
  a : Byte
  x : Byte
  y : Byte
  /-- `SP` (R11). -/
  sp : Byte
  /-- `PC` (R12). -/
  pc : Addr
  /-- `N`, `V`, `D`, `I`, `Z`, `C` (R13). -/
  flags : Flags
  /-- The cycle clock (R17). -/
  cycles : Nat
  /-- The fault latch and the opcode byte it records (R18, R320). -/
  fault : Bool
  faultByte : Byte
  /-- The memory array (R20). -/
  mem : Memory
  /-- The bank select (R21). -/
  bankSel : Bank
  /-- The dirty-scanline table (R22): index `r` for bank 0, `192 + r` for bank 1. -/
  dirty : Vector Bool 384
  /-- The framebuffer and its ready flag (R25). -/
  fb : Framebuffer
  frameReady : Bool
  /-- The facade's running flag (R26). -/
  running : Bool
  /-- The interrupt request inputs (R27). -/
  nmiPending : Bool
  irqLine : Bool
  deriving DecidableEq, Repr

/-- Why the machine stops with a fault. -/
inductive Fault where
  /-- Raised by `step` on a machine whose fault latch is set, with the byte the latch recorded: after an UNIMPL byte no
  step is possible until reset (R18, R320). Safe: nothing after it can be proved. -/
  | unimplemented (code : Byte)
  deriving DecidableEq, Repr

/-- Why something has no meaning. -/
inductive Refusal where
  /-- Raised by `exec` for an instruction without a meaning yet; no arm does. Safe. -/
  | notModelled (mnemonic : String)
  /-- Raised by `step` if the bytes at PC did not decode; every byte sequence decodes (R81), so it never is. Safe. -/
  | undecodable (e : DecodeError)
  /-- Raised by the host operation `loadBios` when the image passes 0xFFFF (R55). Safe. -/
  | biosImageRefused
  /-- Raised by the host operation `loadProgram` when the header's length differs from the bytes supplied or the
  payload passes 0xFFFF (R56). Safe. -/
  | programImageRefused
  deriving DecidableEq, Repr

/-- What a step answers. -/
abbrev Result := Host.Outcome State Fault Refusal

/-- All flags false: their reset values (R13). -/
def Flags.reset : Flags := ⟨false, false, false, false, false, false⟩

/-- The machine right after construction and reset (R32, R350, R352). The pixels of `fb` and `faultByte` have no reset
value in the spec: entries 7 and 8 name the ones here. -/
def State.reset : State :=
  { a := 0x00#8
    x := 0x00#8
    y := 0x00#8
    sp := 0xFF#8
    pc := 0x0000#16
    flags := Flags.reset
    cycles := 0
    fault := false
    faultByte := 0x00#8
    mem := []
    bankSel := .bank0
    dirty := Vector.replicate 384 true
    fb := Vector.replicate 384 (Vector.replicate 560 0x00000000#32)
    frameReady := false
    running := false
    nmiPending := false
    irqLine := false }

end Sys2Proof.Machine
end

