-- ==== Sys2Proof/Machine/Flags.lean ====
section
/-! DEFINITION. Every flag computation of the spec: the status byte (10_state.md R15, R16), `SetNZ`, `AddCore`,
`Compare`, the shift and rotate functions (40_engine_addressing.md R113 to R116). -/

namespace Sys2Proof.Machine

/-! ### The status byte -/

/-- `PackP(b)` (R15): bit 5 is always 1, bit 4 is `b`, the flags at the positions `STATUS_BITS`. -/
def packP (b : Bool) (f : Flags) : Byte :=
  (flagBit f.n <<< cfg.bitN) ||| (flagBit f.v <<< cfg.bitV) ||| (1#8 <<< 5) ||| (flagBit b <<< 4) |||
  (flagBit f.d <<< cfg.bitD) ||| (flagBit f.i <<< cfg.bitI) ||| (flagBit f.z <<< cfg.bitZ) |||
  (flagBit f.c <<< cfg.bitC)

/-- `UnpackP(v)` (R16): the six flags from their bits, bits 5 and 4 ignored. -/
def unpackP (v : Byte) : Flags :=
  { n := v.getLsbD cfg.bitN
    v := v.getLsbD cfg.bitV
    d := v.getLsbD cfg.bitD
    i := v.getLsbD cfg.bitI
    z := v.getLsbD cfg.bitZ
    c := v.getLsbD cfg.bitC }

/-! ### Flag updates of a state -/

/-- Write the carry flag. -/
def setC (c : Bool) (s : State) : State := { s with flags := { s.flags with c := c } }

/-- Write the overflow flag. -/
def setV (v : Bool) (s : State) : State := { s with flags := { s.flags with v := v } }

/-- Write the interrupt-disable flag. -/
def setI (i : Bool) (s : State) : State := { s with flags := { s.flags with i := i } }

/-- Write the decimal flag. -/
def setD (d : Bool) (s : State) : State := { s with flags := { s.flags with d := d } }

/-- `SetNZ(v)` (R113): Z when the byte is 0, N its bit 7. -/
def setNZ (r : Byte) (s : State) : State :=
  { s with flags := { s.flags with z := decide (r = 0), n := r.getLsbD 7 } }

/-! ### Arithmetic (R114, R115) -/

/-- The 9-bit sum of R114: A, the operand and the carry-in, exact. -/
def addSum (acc m : Byte) (c : Bool) : Nat := acc.toNat + m.toNat + c.toNat

/-- The overflow rule of R114: the operands share a sign and the truncated result's sign differs from it. -/
def addOverflow (acc m r : Byte) : Bool :=
  (acc.getLsbD 7 == m.getLsbD 7) && (m.getLsbD 7 != r.getLsbD 7)

/-- `AddCore(m)` (R114): add with carry on A, writing A, C, V, N and Z; the decimal flag is not read (R158). -/
def addCore (m : Byte) (s : State) : State :=
  let t := addSum s.a m s.flags.c
  let r : Byte := BitVec.ofNat 8 t
  setNZ r (setV (addOverflow s.a m r) (setC (decide (255 < t)) { s with a := r }))

/-- The sum of R115: the register, the operand's complement and 1, exact. -/
def compareSum (reg m : Byte) : Nat := reg.toNat + (m ^^^ 0xFF#8).toNat + 1

/-- `Compare(reg, m)` (R115): C, Z and N of the register minus the operand; nothing else. -/
def compare (reg m : Byte) (s : State) : State :=
  let t := compareSum reg m
  setNZ (BitVec.ofNat 8 t) (setC (decide (255 < t)) s)

/-! ### Shifts and rotates (R116): the result, and the state with C, N, Z written -/

/-- `ShiftL(v)`: bit 7 to C, bit 0 becomes 0. -/
def shiftL (v : Byte) (s : State) : Byte × State :=
  let r := v <<< 1
  (r, setNZ r (setC (v.getLsbD 7) s))

/-- `ShiftR(v)`: bit 0 to C, bit 7 becomes 0. -/
def shiftR (v : Byte) (s : State) : Byte × State :=
  let r := v >>> 1
  (r, setNZ r (setC (v.getLsbD 0) s))

/-- `RotL(v)`: bit 7 to C, bit 0 becomes the old C. -/
def rotL (v : Byte) (s : State) : Byte × State :=
  let r := (v <<< 1) ||| flagBit s.flags.c
  (r, setNZ r (setC (v.getLsbD 7) s))

/-- `RotR(v)`: bit 0 to C, bit 7 becomes the old C. -/
def rotR (v : Byte) (s : State) : Byte × State :=
  let r := (v >>> 1) ||| (flagBit s.flags.c <<< 7)
  (r, setNZ r (setC (v.getLsbD 0) s))

/-- The increment of INC and ISC (R170, R245): modulo 256, C and V untouched. -/
def incByte (v : Byte) (s : State) : Byte × State :=
  let r := v + 1
  (r, setNZ r s)

/-- The decrement of DEC and DCP (R171, R244): modulo 256, C and V untouched. -/
def decByte (v : Byte) (s : State) : Byte × State :=
  let r := v - 1
  (r, setNZ r s)

end Sys2Proof.Machine
end

