-- ==== Sys2Proof/Machine/Ops.lean ====
section
/-! DEFINITION. The named operations every meaning uses: memory and the address decoder (20_memory.md R43 to R49),
the stack (40_engine_addressing.md R111, R112), the cost of a step (R92), the entry into an interrupt and the return
from it (60_exceptions.md R322, 46_flags_system.md R229), and the fatal condition (R320). -/

namespace Sys2Proof.Machine

/-! ### The memory array (R20) -/

/-- The byte at an address; an unlisted address holds 0x00. -/
def Memory.get : Memory → Nat → Byte
  | [], _ => 0
  | (k, b) :: rest, a => if k = a then b else Memory.get rest a

/-- Put a byte other than 0x00 in its place among rising addresses. -/
def Memory.insert : Memory → Nat → Byte → Memory
  | [], a, v => [(a, v)]
  | (k, b) :: rest, a, v => if a < k then (a, v) :: (k, b) :: rest else (k, b) :: Memory.insert rest a v

/-- Take an address out of the list. -/
def Memory.erase (m : Memory) (a : Nat) : Memory := m.filter (fun p => decide (p.1 ≠ a))

/-- Store a byte, keeping the canonical form: storing 0x00 leaves the address unlisted. -/
def Memory.set (m : Memory) (a : Nat) (v : Byte) : Memory :=
  if v = 0 then Memory.erase m a else Memory.insert (Memory.erase m a) a v

/-- The canonical form: addresses strictly rising and inside the address space (R40), no entry 0x00. -/
abbrev Memory.wf (m : Memory) : Prop :=
  m.Pairwise (fun p q => p.1 < q.1) ∧ ∀ p ∈ m, p.1 < 65536 ∧ p.2 ≠ 0

/-- `mem[a]` (R9): the raw byte of the array. -/
def cell (s : State) (a : Addr) : Byte := Memory.get s.mem a.toNat

/-- Copy bytes into the array from an address upward: the direct copy of image loading (R55, R56). -/
def Memory.load : Memory → Nat → List Byte → Memory
  | m, _, [] => m
  | m, a, b :: bs => Memory.load (Memory.set m a b) (a + 1) bs

/-! ### Scanlines and the dirty table (R48, R49) -/

/-- `line_offset[r]` (R49), for `r` in 0..191. -/
def lineOffset (r : Nat) : Nat :=
  (r % 8) * 0x400 + (r / 8 % 8) * 0x80 + (r / 64 % 8) * 0x28

/-- `offset_line[o]` (R49): the scanline whose 40 bytes hold the offset, if one does. -/
def offsetLine (o : Nat) : Option Nat :=
  (List.range 192).find? (fun r => decide (lineOffset r ≤ o) && decide (o < lineOffset r + 40))

/-- The base address of a bank's window (R50). -/
def bankBase : Bank → Addr
  | .bank0 => cfg.vbank0Base
  | .bank1 => cfg.vbank1Base

/-- The index of a bank's first scanline in the dirty table (R22). -/
def bankLine : Bank → Nat
  | .bank0 => 0
  | .bank1 => 192

/-- The scanline of a bank's window an address belongs to, as an index of the dirty table: none outside the window and
in a hole (R48, R49). -/
def dirtyIndex (b : Bank) (a : Addr) : Option Nat :=
  if (bankBase b).toNat ≤ a.toNat ∧ a.toNat < (bankBase b).toNat + cfg.vbankSize then
    (offsetLine (a.toNat - (bankBase b).toNat)).map (bankLine b + ·)
  else none

/-- One turn of `MarkDirty`'s loop (R48). -/
def markDirtyIn (b : Bank) (a : Addr) (s : State) : State :=
  match dirtyIndex b a with
  | some i => { s with dirty := s.dirty.setIfInBounds i true }
  | none => s

/-- `MarkDirty(addr)` (R48). -/
def markDirty (a : Addr) (s : State) : State := markDirtyIn .bank1 a (markDirtyIn .bank0 a s)

/-! ### The read and write primitives (R44, R45) -/

/-- The byte a read of `SW_RDBANK` returns (R46). -/
def bankStatus : Bank → Byte
  | .bank0 => 0x00#8
  | .bank1 => cfg.bank1ReadValue

/-- `MemRead(addr)` (R44): reads change no state (R61). -/
def memRead (s : State) (a : Addr) : Byte :=
  if a = cfg.swRdBank then bankStatus s.bankSel else cell s a

/-- `MemWrite(addr, v)` (R45), with the write protection of R51, which this spec's configuration leaves off. -/
def memWrite (a : Addr) (v : Byte) (s : State) : State :=
  if a = cfg.swBank0 then { s with bankSel := .bank0 }
  else if a = cfg.swBank1 then { s with bankSel := .bank1 }
  else if cfg.romWriteProtect && Config.inBiosWindow a then s
  else markDirty a { s with mem := Memory.set s.mem a.toNat v }

/-- `MemRead16(a)` (R43): the low byte at `a`, the high byte at the next address modulo 65536. -/
def memRead16 (s : State) (a : Addr) : Addr := word (memRead s (a + 1)) (memRead s a)

/-- `MemRead16zp(z)` (R43): a pointer in the zero page, its high byte at `z + 1` modulo 256. -/
def memRead16zp (s : State) (z : Byte) : Addr := word (memRead s (zext (z + 1))) (memRead s (zext z))

/-! ### The stack (R111, R112) -/

/-- The stack address SP denotes (R11). -/
def stackAddr (sp : Byte) : Addr := cfg.stackBase + zext sp

/-- `Push(v)` (R111): store, then decrement SP modulo 256. -/
def push (v : Byte) (s : State) : State :=
  let s1 := memWrite (stackAddr s.sp) v s
  { s1 with sp := s.sp - 1 }

/-- The state after `Pull()` (R112): SP incremented modulo 256. -/
def pull (s : State) : State := { s with sp := s.sp + 1 }

/-- The byte `Pull()` returns (R112), read at the incremented SP. -/
def pulled (s : State) : Byte := memRead s (stackAddr (s.sp + 1))

/-- Push a 16-bit value, high byte first (R41, R202, R322). -/
def pushWord (w : Addr) (s : State) : State := push (lo w) (push (hi w) s)

/-- The 16-bit value two pulls return, low byte first (R203, R229). -/
def pulledWord (s : State) : Addr := word (pulled (pull s)) (pulled s)

/-! ### The cost of a step (R90, R92) -/

/-- Add a step's cost to the cycle clock: a base cost and the penalties (R92). -/
def charge (base penalty : Nat) (s : State) : Result := .next { s with cycles := s.cycles + (base + penalty) }

/-- Complete an instruction: the base cost of its operation in its mode and its penalties are added (R92). -/
def finish (op : Op) (mode : Mode) (penalty : Nat) (s : State) : Result := charge (baseCycles op mode) penalty s

/-- Complete an instruction that carries its opcode byte: the base cost is that of `OPMAP[code]`, and no penalty. -/
def finishCode (op : Op) (mode : Mode) (code : Byte) (s : State) : Result := charge (entryCycles op mode code) 0 s

/-! ### Exceptions -/

/-- `EnterInterrupt(vec, b, skew)` (R322): push PC plus the skew, high byte first, then the status byte as the flags
are before I is set; set I; load PC from the vector. -/
def enterInterrupt (vec : Addr) (b : Bool) (skew : Addr) (s : State) : State :=
  let s1 := push (packP b s.flags) (pushWord (s.pc + skew) s)
  let s2 := setI true s1
  { s2 with pc := memRead16 s2 vec }

/-- The return from an interrupt (R229, R328): the flags from the pulled status byte, then PC, low byte first, with
nothing added. -/
def returnFromInterrupt (s : State) : State :=
  let s1 := pull { s with flags := unpackP (pulled s) }
  let target := pulledWord s1
  { pull (pull s1) with pc := target }

/-- `raise Fatal(Unimplemented, byte)` (R320): the latch is set and the byte recorded, no cycle added, nothing else. -/
def raiseFatal (code : Byte) (s : State) : State := { s with fault := true, faultByte := code }

end Sys2Proof.Machine
end

