-- ==== Sys2Proof/Machine/Operands.lean ====
section
/-! DEFINITION. The addressing-mode resolver (40_engine_addressing.md R94 to R109) over decoded operands, and the
access patterns of the operations (R110). An operand's bytes have been fetched and PC moved past them when it is
resolved (R12, log entry 4). -/

namespace Sys2Proof.Machine

/-- `Resolve(mode)`: the effective address of a memory operand (R96 to R107). -/
def effAddr (m : MemOperand) (s : State) : Addr :=
  match m with
  | .zp b => zext b
  | .zpx b => zext (b + s.x)
  | .zpy b => zext (b + s.y)
  | .izx b => memRead16zp s (b + s.x)
  | .izy b | .izyp b => memRead16zp s b + zext s.y
  | .abs w => w
  | .abx w | .abxp w => w + zext s.x
  | .aby w | .abyp w => w + zext s.y
  | .ind w => word (memRead s (word (hi w) (lo w + 1))) (memRead s w)

/-- The page-crossing penalty of a memory operand (R109): in the three penalized modes, 1 when the address before
indexing and the effective address lie in different pages. -/
def penalty (m : MemOperand) (s : State) : Nat :=
  match m with
  | .izyp b => pageCross (memRead16zp s b) (memRead16zp s b + zext s.y)
  | .abxp w => pageCross w (w + zext s.x)
  | .abyp w => pageCross w (w + zext s.y)
  | .zp _ | .zpx _ | .zpy _ | .izx _ | .izy _ | .abs _ | .abx _ | .aby _ | .ind _ => 0

/-- The operand value `M` (R95, R110): the inline byte, or one read at the effective address. -/
def operandValue (o : Operand) (s : State) : Byte :=
  match o with
  | .imm v => v
  | .mem m => memRead s (effAddr m s)

/-- The page-crossing penalty of an operand; immediate operands have none. -/
def operandPenalty (o : Operand) (s : State) : Nat :=
  match o with
  | .imm _ => 0
  | .mem m => penalty m s

/-- A store (R110): one `MemWrite` at the effective address. -/
def store (op : Op) (m : MemOperand) (v : Byte) (s : State) : Result :=
  finish op m.mode (penalty m s) (memWrite (effAddr m s) v s)

/-- A read-modify-write (R110): one read and one write at the same effective address. `f` gives the new byte and the
state with the flags it writes; the answer is the new byte and the state after the write. -/
def readModifyWrite (m : MemOperand) (f : Byte → State → Byte × State) (s : State) : Byte × State :=
  let ea := effAddr m s
  let r := f (memRead s ea) s
  (r.1, memWrite ea r.1 r.2)

/-- A read-modify-write instruction that does nothing more (44_incdec_shift.md). -/
def modify (op : Op) (m : MemOperand) (f : Byte → State → Byte × State) (s : State) : Result :=
  finish op m.mode (penalty m s) (readModifyWrite m f s).2

/-- `Branch(cond, ea)` (R117): a taken branch moves PC, already past the instruction, by the signed offset, at 1 cycle
and 1 more into another page. -/
def branch (op : Op) (cond : Bool) (off : Byte) (s : State) : Result :=
  let target := s.pc + sext off
  if cond then finish op .rel (1 + pageCross s.pc target) { s with pc := target }
  else finish op .rel 0 s

end Sys2Proof.Machine
end

