-- ==== Sys2Proof/Machine/Arith.lean ====
section
/-! DEFINITION. Logical, arithmetic and compare instructions (43_logic_arith.md R150 to R159). -/

namespace Sys2Proof.Machine

/-- The shape of AND, ORA, EOR: A becomes `r`, N and Z follow it. -/
def setAccNZ (r : Byte) (s : State) : State := setNZ r { s with a := r }

/-- AND (R150). -/
def execAnd (o : Operand) (s : State) : Result :=
  finish .and o.mode (operandPenalty o s) (setAccNZ (s.a &&& operandValue o s) s)

/-- ORA (R151). -/
def execOra (o : Operand) (s : State) : Result :=
  finish .ora o.mode (operandPenalty o s) (setAccNZ (s.a ||| operandValue o s) s)

/-- EOR (R152). -/
def execEor (o : Operand) (s : State) : Result :=
  finish .eor o.mode (operandPenalty o s) (setAccNZ (s.a ^^^ operandValue o s) s)

/-- The flags of BIT (R153): Z from A and M, N and V from bits 7 and 6 of M. -/
def bitFlags (acc m : Byte) (f : Flags) : Flags :=
  { f with z := decide (acc &&& m = 0), n := m.getLsbD 7, v := m.getLsbD 6 }

/-- BIT (R153): A is not changed. -/
def execBit (m : MemOperand) (s : State) : Result :=
  finish .bit m.mode (penalty m s) { s with flags := bitFlags s.a (memRead s (effAddr m s)) s.flags }

/-- ADC (R154, R158). -/
def execAdc (o : Operand) (s : State) : Result :=
  finish .adc o.mode (operandPenalty o s) (addCore (operandValue o s) s)

/-- SBC (R155, R158): the addition of the complemented operand. -/
def execSbc (o : Operand) (s : State) : Result :=
  finish .sbc o.mode (operandPenalty o s) (addCore (operandValue o s ^^^ 0xFF#8) s)

/-- CMP (R156). -/
def execCmp (o : Operand) (s : State) : Result :=
  finish .cmp o.mode (operandPenalty o s) (compare s.a (operandValue o s) s)

/-- CPX (R157). -/
def execCpx (o : Operand) (s : State) : Result :=
  finish .cpx o.mode (operandPenalty o s) (compare s.x (operandValue o s) s)

/-- CPY (R159). -/
def execCpy (o : Operand) (s : State) : Result :=
  finish .cpy o.mode (operandPenalty o s) (compare s.y (operandValue o s) s)

end Sys2Proof.Machine
end

