-- ==== Sys2Proof/Machine/Control.lean ====
section
/-! DEFINITION. Jumps, subroutine call and return, conditional branches (45_control_flow.md R200 to R212). PC holds the
address of the byte after the instruction when a meaning runs (R12). -/

namespace Sys2Proof.Machine

/-- JMP, absolute (R200) and indirect (R201): PC becomes the effective address. -/
def execJmp (m : MemOperand) (s : State) : Result :=
  finish .jmp m.mode (penalty m s) { s with pc := effAddr m s }

/-- JSR (R202): push the address of the instruction's last byte, high byte first, and jump. -/
def execJsr (w : Addr) (s : State) : Result :=
  finish .jsr .abs 0 { pushWord (s.pc - 1) s with pc := w }

/-- RTS (R203): pull PC, low byte first, and add 1. -/
def execRts (s : State) : Result :=
  finish .rts .imp 0 { pull (pull s) with pc := pulledWord s + 1 }

/-- BPL (R204). -/
def execBpl (off : Byte) (s : State) : Result := branch .bpl (!s.flags.n) off s

/-- BMI (R205). -/
def execBmi (off : Byte) (s : State) : Result := branch .bmi s.flags.n off s

/-- BVC (R206). -/
def execBvc (off : Byte) (s : State) : Result := branch .bvc (!s.flags.v) off s

/-- BVS (R207). -/
def execBvs (off : Byte) (s : State) : Result := branch .bvs s.flags.v off s

/-- BCC (R208). -/
def execBcc (off : Byte) (s : State) : Result := branch .bcc (!s.flags.c) off s

/-- BCS (R209). -/
def execBcs (off : Byte) (s : State) : Result := branch .bcs s.flags.c off s

/-- BNE (R210). -/
def execBne (off : Byte) (s : State) : Result := branch .bne (!s.flags.z) off s

/-- BEQ (R211). -/
def execBeq (off : Byte) (s : State) : Result := branch .beq s.flags.z off s

end Sys2Proof.Machine
end

