-- ==== Sys2Proof/Machine/IncShift.lean ====
section
/-! DEFINITION. Increments, decrements, shifts and rotates (44_incdec_shift.md R170 to R183). -/

namespace Sys2Proof.Machine

/-- INC (R170). -/
def execInc (m : MemOperand) (s : State) : Result := modify .inc m incByte s

/-- DEC (R171). -/
def execDec (m : MemOperand) (s : State) : Result := modify .dec m decByte s

/-- INX (R172). -/
def execInx (s : State) : Result := finish .inx .imp 0 (setNZ (s.x + 1) { s with x := s.x + 1 })

/-- INY (R173). -/
def execIny (s : State) : Result := finish .iny .imp 0 (setNZ (s.y + 1) { s with y := s.y + 1 })

/-- DEX (R174). -/
def execDex (s : State) : Result := finish .dex .imp 0 (setNZ (s.x - 1) { s with x := s.x - 1 })

/-- DEY (R175). -/
def execDey (s : State) : Result := finish .dey .imp 0 (setNZ (s.y - 1) { s with y := s.y - 1 })

/-- The accumulator form of a shift or rotate: A becomes the function's result. -/
def modifyAcc (f : Byte → State → Byte × State) (s : State) : State :=
  let r := f s.a s
  { r.2 with a := r.1 }

/-- ASL, memory (R176). -/
def execAsl (m : MemOperand) (s : State) : Result := modify .asl m shiftL s

/-- ASL A (R177). -/
def execAslA (s : State) : Result := finish .aslA .imp 0 (modifyAcc shiftL s)

/-- LSR, memory (R178). -/
def execLsr (m : MemOperand) (s : State) : Result := modify .lsr m shiftR s

/-- LSR A (R179). -/
def execLsrA (s : State) : Result := finish .lsrA .imp 0 (modifyAcc shiftR s)

/-- ROL, memory (R180). -/
def execRol (m : MemOperand) (s : State) : Result := modify .rol m rotL s

/-- ROL A (R181). -/
def execRolA (s : State) : Result := finish .rolA .imp 0 (modifyAcc rotL s)

/-- ROR, memory (R182). -/
def execRor (m : MemOperand) (s : State) : Result := modify .ror m rotR s

/-- ROR A (R183). -/
def execRorA (s : State) : Result := finish .rorA .imp 0 (modifyAcc rotR s)

end Sys2Proof.Machine
end

