-- ==== Sys2Proof/Machine/LoadStore.lean ====
section
/-! DEFINITION. Loads, stores and register transfers (41_load_store_transfer.md R120 to R131). -/

namespace Sys2Proof.Machine

/-- LDA (R120). -/
def execLda (o : Operand) (s : State) : Result :=
  finish .lda o.mode (operandPenalty o s) (setNZ (operandValue o s) { s with a := operandValue o s })

/-- LDX (R121). -/
def execLdx (o : Operand) (s : State) : Result :=
  finish .ldx o.mode (operandPenalty o s) (setNZ (operandValue o s) { s with x := operandValue o s })

/-- LDY (R122). -/
def execLdy (o : Operand) (s : State) : Result :=
  finish .ldy o.mode (operandPenalty o s) (setNZ (operandValue o s) { s with y := operandValue o s })

/-- STA (R123). -/
def execSta (m : MemOperand) (s : State) : Result := store .sta m s.a s

/-- STX (R124). -/
def execStx (m : MemOperand) (s : State) : Result := store .stx m s.x s

/-- STY (R125). -/
def execSty (m : MemOperand) (s : State) : Result := store .sty m s.y s

/-- TAX (R126). -/
def execTax (s : State) : Result := finish .tax .imp 0 (setNZ s.a { s with x := s.a })

/-- TAY (R127). -/
def execTay (s : State) : Result := finish .tay .imp 0 (setNZ s.a { s with y := s.a })

/-- TXA (R128). -/
def execTxa (s : State) : Result := finish .txa .imp 0 (setNZ s.x { s with a := s.x })

/-- TYA (R129). -/
def execTya (s : State) : Result := finish .tya .imp 0 (setNZ s.y { s with a := s.y })

/-- TSX (R130). -/
def execTsx (s : State) : Result := finish .tsx .imp 0 (setNZ s.sp { s with x := s.sp })

/-- TXS (R131): N and Z only where the parameter `TXS_SETS_NZ` says so. -/
def execTxs (s : State) : Result :=
  finish .txs .imp 0 (if cfg.txsSetsNZ then setNZ s.x { s with sp := s.x } else { s with sp := s.x })

end Sys2Proof.Machine
end

