-- ==== Sys2Proof/Machine/Stack.lean ====
section
/-! DEFINITION. Stack instructions (42_stack.md R140 to R143). -/

namespace Sys2Proof.Machine

/-- PHA (R140). -/
def execPha (s : State) : Result := finish .pha .imp 0 (push s.a s)

/-- PLA (R141): a load, so N and Z follow the pulled byte. -/
def execPla (s : State) : Result :=
  finish .pla .imp 0 (setNZ (pulled s) { pull s with a := pulled s })

/-- PHP (R142): bit 4 of the pushed byte is `PHP_BREAK`. -/
def execPhp (s : State) : Result := finish .php .imp 0 (push (packP cfg.phpBreak s.flags) s)

/-- PLP (R143). -/
def execPlp (s : State) : Result :=
  finish .plp .imp 0 { pull s with flags := unpackP (pulled s) }

end Sys2Proof.Machine
end

