-- ==== Sys2Proof/Machine/System.lean ====
section
/-! DEFINITION. Flag instructions, NOP, BRK, RTI, HLT, UNIMPL (46_flags_system.md R220 to R231) and the two synthetic
service sequences (60_exceptions.md R323, R324). -/

namespace Sys2Proof.Machine

/-- CLC (R220). -/
def execClc (s : State) : Result := finish .clc .imp 0 (setC false s)

/-- SEC (R221). -/
def execSec (s : State) : Result := finish .sec .imp 0 (setC true s)

/-- CLI (R222). -/
def execCli (s : State) : Result := finish .cli .imp 0 (setI false s)

/-- SEI (R223). -/
def execSei (s : State) : Result := finish .sei .imp 0 (setI true s)

/-- CLD (R224). -/
def execCld (s : State) : Result := finish .cld .imp 0 (setD false s)

/-- SED (R225). -/
def execSed (s : State) : Result := finish .sed .imp 0 (setD true s)

/-- CLV (R226). -/
def execClv (s : State) : Result := finish .clv .imp 0 (setV false s)

/-- NOP (R227). -/
def execNop (s : State) : Result := finish .nop .imp 0 s

/-- BRK (R228). -/
def execBrk (s : State) : Result :=
  finish .brk .imp 0 (enterInterrupt cfg.vecIrq true cfg.brkPushSkew s)

/-- RTI (R229). -/
def execRti (s : State) : Result := finish .rti .imp 0 (returnFromInterrupt s)

/-- HLT (R230): PC goes back onto the halt byte, which repeats itself. Its twelve bytes behave alike (R77). -/
def execHlt (code : Byte) (s : State) : Result := finishCode .hlt .imp code { s with pc := s.pc - 1 }

/-- UNIMPL (R231): the fatal condition is raised and no cycle is added; the step that follows stops (log entry 6). -/
def execUnimpl (code : Byte) (s : State) : Result := .next (raiseFatal code s)

/-- The NMI service sequence, registry index 256 (R323): the request is consumed (R325). -/
def serviceNmi (s : State) : Result :=
  charge (lookup 256).base 0 (enterInterrupt cfg.vecNmi false 0 { s with nmiPending := false })

/-- The IRQ service sequence, registry index 257 (R324). -/
def serviceIrq (s : State) : Result := charge (lookup 257).base 0 (enterInterrupt cfg.vecIrq false 0 s)

end Sys2Proof.Machine
end

