-- ==== Sys2Proof/Machine/Undocumented.lean ====
section
/-! DEFINITION. The undocumented operations the registry maps (47_undocumented.md R240 to R249): the memory half first,
then the accumulator half, from the state the first leaves. -/

namespace Sys2Proof.Machine

/-- A read-modify-write followed by an accumulator operation on the byte written. -/
def modifyThen (op : Op) (m : MemOperand) (f : Byte → State → Byte × State) (g : Byte → State → State)
    (s : State) : Result :=
  let r := readModifyWrite m f s
  finish op m.mode (penalty m s) (g r.1 r.2)

/-- SLO (R240). -/
def execSlo (m : MemOperand) (s : State) : Result :=
  modifyThen .slo m shiftL (fun v t => setAccNZ (t.a ||| v) t) s

/-- RLA (R241). -/
def execRla (m : MemOperand) (s : State) : Result :=
  modifyThen .rla m rotL (fun v t => setAccNZ (t.a &&& v) t) s

/-- SRE (R242). -/
def execSre (m : MemOperand) (s : State) : Result :=
  modifyThen .sre m shiftR (fun v t => setAccNZ (t.a ^^^ v) t) s

/-- RRA (R243): the carry that enters the addition is the one the rotate produced. -/
def execRra (m : MemOperand) (s : State) : Result := modifyThen .rra m rotR addCore s

/-- DCP (R244): the compare overwrites the N and Z of the decrement. -/
def execDcp (m : MemOperand) (s : State) : Result :=
  modifyThen .dcp m decByte (fun v t => compare t.a v t) s

/-- ISC (R245): the incoming carry is the borrow input. -/
def execIsc (m : MemOperand) (s : State) : Result :=
  modifyThen .isc m incByte (fun v t => addCore (v ^^^ 0xFF#8) t) s

/-- ANC (R246): C becomes bit 7 of the result; both bytes behave alike. -/
def execAnc (code : Byte) (v : Byte) (s : State) : Result :=
  let r := s.a &&& v
  finishCode .anc .imm code (setC (r.getLsbD 7) (setAccNZ r s))

/-- ALR (R247). -/
def execAlr (v : Byte) (s : State) : Result :=
  let r := shiftR (s.a &&& v) s
  finish .alr .imm 0 { r.2 with a := r.1 }

/-- ARR (R248): C is bit 6 of the result, V bit 6 xor bit 5. -/
def execArr (v : Byte) (s : State) : Result :=
  let r := ((s.a &&& v) >>> 1) ||| (flagBit s.flags.c <<< 7)
  finish .arr .imm 0 (setV (r.getLsbD 6 ^^ r.getLsbD 5) (setC (r.getLsbD 6) (setAccNZ r s)))

/-- SBX (R249): the compare of A and X with the operand, its result kept in X. -/
def execSbx (v : Byte) (s : State) : Result :=
  let r : Byte := BitVec.ofNat 8 (compareSum (s.a &&& s.x) v)
  finish .sbx .imm 0 { compare (s.a &&& s.x) v s with x := r }

end Sys2Proof.Machine
end

