-- ==== Sys2Proof/Machine/Fetch.lean ====
section
/-! DEFINITION. What the next step does (40_engine_addressing.md R90, 60_exceptions.md R325, R326) and the fetch of an
instruction's bytes (R91), and how bytes are placed where the fetch reads them. -/

namespace Sys2Proof.Machine

/-- The bytes the fetch may read: three from PC upward, modulo 65536, through the address decoder (R70, R91). Reads have
no effect (R61), so reading past a shorter instruction shows nowhere (log entry 5). -/
def fetchWindow (s : State) : List Byte := [memRead s s.pc, memRead s (s.pc + 1), memRead s (s.pc + 2)]

/-- PC moved past an instruction's bytes, modulo 65536 (R12, R91). -/
def afterFetch (i : Instr) (s : State) : State := { s with pc := s.pc + BitVec.ofNat 16 i.length }

/-- What a step boundary leads to. -/
inductive Event where
  /-- The fault latch is set: no step is possible (R320). -/
  | latched (code : Byte)
  /-- The NMI sequence runs. -/
  | nmi
  /-- The IRQ sequence runs. -/
  | irq
  /-- The instruction runs. -/
  | instr (i : Instr)
  /-- The bytes at PC do not decode; no bytes do so (R81). -/
  | undecodable (e : DecodeError)
  deriving DecidableEq, Repr

/-- The sampling at the start of a step (R325, R326): NMI before IRQ before the instruction at PC; a faulted machine
samples nothing (R320). -/
def nextEvent (s : State) : Event :=
  if s.fault then .latched s.faultByte
  else if s.nmiPending then .nmi
  else if s.irqLine && !s.flags.i then .irq
  else
    match decode (fetchWindow s) with
    | .ok i _ => .instr i
    | .error e => .undecodable e

/-- Where an instruction can be placed so that the fetch reads its three bytes as stored: PC, unless `SW_RDBANK` lies in
the window, whose read never returns the stored byte (R46); then address 0 (log entry 14). -/
def placeAddr (s : State) : Addr :=
  if s.pc = cfg.swRdBank ∨ s.pc + 1 = cfg.swRdBank ∨ s.pc + 2 = cfg.swRdBank then 0 else s.pc

/-- Store three bytes where the next step fetches its instruction, with nothing pending that would run before it: the
fault latch and the two requests are cleared (log entry 14). The bytes go into the array directly, as an image load
puts them there (R56). -/
def placeBytes (b0 b1 b2 : Byte) (s : State) : State :=
  let p := placeAddr s
  { s with
    pc := p
    mem := Memory.set (Memory.set (Memory.set s.mem p.toNat b0) (p + 1).toNat b1) (p + 2).toNat b2
    fault := false
    nmiPending := false
    irqLine := false }

end Sys2Proof.Machine
end

