-- ==== Sys2Proof/Machine/Step.lean ====
section
/-! DEFINITION. One step of the machine: the engine's `Step()` (40_engine_addressing.md R90), and the host's placing of
an instruction where the next step fetches it. -/

namespace Sys2Proof.Machine

/-- `Step()` (R90): one instruction or one service sequence; a machine whose fault latch is set stops (R320). -/
def step (s : State) : Host.Outcome State Fault Refusal :=
  match nextEvent s with
  | .latched code => .fault (.unimplemented code)
  | .nmi => serviceNmi s
  | .irq => serviceIrq s
  | .instr i => exec i (afterFetch i s)
  | .undecodable e => .refused (.undecodable e)

/-- The state with an instruction of the opcode table stored where the next step fetches it (log entry 14). -/
def State.withFetchWord (s : State) (nbits w : Nat) : State :=
  match tableBytes nbits w with
  | [b0, b1, b2] => placeBytes b0 b1 b2 s
  | _ => s

end Sys2Proof.Machine
end

