-- ==== Sys2Proof/Machine/Video.lean ====
section
/-! DEFINITION. The Video Decoder (50_video.md R300 to R309). -/

namespace Sys2Proof.Machine

/-- `bit(d)` (R302): the bit of a video byte that is its sample `d`, by `DOT_ORDER`. -/
def dotBit (d : Nat) : Nat :=
  match cfg.dotOrder with
  | .bit0Leftmost => d
  | .bit6Leftmost => 6 - d

/-- `lut[v][d]` (R302): the colour of sample `d` (0..6) of a video byte; bit 7 selects nothing (R306). -/
def lut (v : Byte) (d : Nat) : Pixel := if v.getLsbD (dotBit d) then cfg.pixelWhite else cfg.pixelBlack

/-- The array index of byte `k` of scanline `r` of a bank (R49). -/
def videoIndex (b : Bank) (r k : Nat) : Nat := (bankBase b).toNat + lineOffset r + k

/-- The fourteen pixels of one video byte: each of its seven samples twice (R300, R303). -/
def bytePixels (v : Byte) : List Pixel := (List.range 7).flatMap (fun d => [lut v d, lut v d])

/-- The pixels of one output row of a scanline: its forty bytes left to right, read from the array directly (R303,
R304). -/
def rowPixels (m : Memory) (b : Bank) (r : Nat) : List Pixel :=
  (List.range 40).flatMap (fun k => bytePixels (Memory.get m (videoIndex b r k)))

/-- Lists of one length, joined. -/
theorem flatMap_length_of_const {α β : Type} (f : α → List β) (n : Nat) (h : ∀ a, (f a).length = n)
    (l : List α) : (l.flatMap f).length = l.length * n := by
  induction l with
  | nil => simp
  | cons a l ih => simp [h, ih, Nat.succ_mul, Nat.add_comm]

theorem bytePixels_length (v : Byte) : (bytePixels v).length = 14 := rfl

theorem rowPixels_length (m : Memory) (b : Bank) (r : Nat) : (rowPixels m b r).length = 560 := by
  rw [rowPixels, flatMap_length_of_const _ 14 (fun _ => bytePixels_length _), List.length_range]

theorem rowPixels_size (m : Memory) (b : Bank) (r : Nat) : (rowPixels m b r).toArray.size = 560 :=
  List.size_toArray.trans (rowPixels_length m b r)

/-- One output row. -/
def pixelRow (m : Memory) (b : Bank) (r : Nat) : Vector Pixel 560 := ⟨(rowPixels m b r).toArray, rowPixels_size m b r⟩

/-- The output rows, each scanline's row twice, top to bottom (R300, R303). -/
def frameRows (m : Memory) (b : Bank) : List (Vector Pixel 560) :=
  (List.range 192).flatMap (fun r => [pixelRow m b r, pixelRow m b r])

theorem frameRows_length (m : Memory) (b : Bank) : (frameRows m b).length = 384 := by
  rw [frameRows, flatMap_length_of_const _ 2 (fun _ => rfl), List.length_range]

theorem frameRows_size (m : Memory) (b : Bank) : (frameRows m b).toArray.size = 384 :=
  List.size_toArray.trans (frameRows_length m b)

/-- The whole frame of a bank: every pixel, whatever the dirty table says (R303, R308). -/
def frame (m : Memory) (b : Bank) : Framebuffer := ⟨(frameRows m b).toArray, frameRows_size m b⟩

/-- The dirty table after the pass: the decoded bank's 192 flags cleared, the other bank's left (R309). -/
def clearDirty (b : Bank) (t : Vector Bool 384) : Vector Bool 384 :=
  Vector.ofFn (fun i => if bankLine b ≤ i.val ∧ i.val < bankLine b + 192 then false else t[i])

/-- `DecodePass()` (R303, R307). -/
def decodePass (s : State) : State :=
  { s with fb := frame s.mem s.bankSel, dirty := clearDirty s.bankSel s.dirty, frameReady := true }

end Sys2Proof.Machine
end

