-- ==== Sys2Proof/Machine/Facade.lean ====
section
/-! DEFINITION. The host operations of 70_reset_and_hazards.md R350 and R357, among them the quantum loop `Tick()`
(40_engine_addressing.md R93). All happen between ticks (R63). -/

namespace Sys2Proof.Machine

/-- `reset()` (R350): every field at its reset value but `running`, `fault_byte` and the pixels of `fb`, which reset does
not touch (R351). -/
def resetMachine (s : State) : State :=
  { State.reset with running := s.running, faultByte := s.faultByte, fb := s.fb }

/-- `load_bios(bytes)` at a given base (R55): a direct copy, refused if the image passes 0xFFFF. -/
def loadBiosAt (base : Addr) (bytes : List Byte) (s : State) : Result :=
  if base.toNat + bytes.length ≤ 65536 then .next { s with mem := Memory.load s.mem base.toNat bytes }
  else .refused .biosImageRefused

/-- `load_bios(bytes)` (R55): at `BIOS_BASE`, which is OPEN. -/
def loadBios (bytes : List Byte) (s : State) : Result := loadBiosAt Config.biosBase bytes s

/-- `load_program(bytes)` (R56): a four-byte header, load address and length, then exactly that many bytes, copied
directly; PC becomes the load address. Refused if the lengths disagree or the payload passes 0xFFFF. -/
def loadProgram (bytes : List Byte) (s : State) : Result :=
  match bytes with
  | b0 :: b1 :: b2 :: b3 :: payload =>
    let load := word b1 b0
    let n := (word b3 b2).toNat
    if payload.length = n ∧ load.toNat + n ≤ 65536 then
      .next { s with mem := Memory.load s.mem load.toNat payload, pc := load }
    else .refused .programImageRefused
  | _ => .refused .programImageRefused

/-- `start()` (R357). -/
def start (s : State) : State := { s with running := true }

/-- `stop()` (R357). -/
def stop (s : State) : State := { s with running := false }

/-- `request_nmi()` (R325, R357). -/
def requestNmi (s : State) : State := { s with nmiPending := true }

/-- `set_irq(level)` (R325, R357). -/
def setIrq (level : Bool) (s : State) : State := { s with irqLine := level }

/-- `is_frame_ready()` (R357). -/
def isFrameReady (s : State) : Bool := s.frameReady

/-- `acknowledge_frame()` (R357): the pixels stay. -/
def acknowledgeFrame (s : State) : State := { s with frameReady := false }

/-- `framebuffer()` (R310, R357): the view the host may rely on, only between a ready signal and its acknowledgment
(log entry 15). -/
def framebuffer (s : State) : Option Framebuffer := if s.frameReady then some s.fb else none

/-- `fault_status()` (R320, R357): the recorded byte while the latch is set. -/
def faultStatus (s : State) : Option Byte := if s.fault then some s.faultByte else none

/-- The loop of `Tick()` (R93): steps while the budget is above 0, each step's cost subtracted, then one decode pass; a
step that latches the fault abandons the quantum without a pass. The overshoot of the last step is discarded, so the
budget may stop at 0. Every completed step costs at least 2 cycles, so the first argument, the most steps allowed, never
decides the result where it exceeds the budget (log entry 17). -/
def runQuantum : Nat → Nat → State → State
  | 0, _, s => s
  | fuel + 1, budget, s =>
    if budget = 0 then decodePass s
    else
      match step s with
      | .next t => if t.fault then t else runQuantum fuel (budget - (t.cycles - s.cycles)) t
      | .fault _ => s
      | .refused _ => s

/-- `Tick()` (R93): nothing unless running and not faulted, else one quantum. -/
def tick (s : State) : State :=
  if s.running && !s.fault then runQuantum (cfg.cycleQuantum + 1) cfg.cycleQuantum s else s

/-- The host operations of R357 that act on the machine. -/
inductive HostOp where
  | reset
  | loadBios (bytes : List Byte)
  | loadProgram (bytes : List Byte)
  | start
  | stop
  | tick
  | acknowledgeFrame
  | requestNmi
  | setIrq (level : Bool)
  deriving DecidableEq, Repr

/-- The effect of a host operation. -/
def hostOp (op : HostOp) (s : State) : Result :=
  match op with
  | .reset => .next (resetMachine s)
  | .loadBios bytes => loadBios bytes s
  | .loadProgram bytes => loadProgram bytes s
  | .start => .next (start s)
  | .stop => .next (stop s)
  | .tick => .next (tick s)
  | .acknowledgeFrame => .next (acknowledgeFrame s)
  | .requestNmi => .next (requestNmi s)
  | .setIrq level => .next (setIrq level s)

end Sys2Proof.Machine
end

