-- ==== Sys2Proof/Safety.lean ====
section
/-! DEFINITION. The terms the claims use: the numbered registers and flags, what an operation leaves unchanged, what a
store does, what an interrupt entry leaves, the machine's invariant, and which states are safe or halted. -/

namespace Sys2Proof.Machine

/-! ### Registers and flags by name -/

/-- The 8-bit registers (R10, R11). -/
inductive Reg where
  | a | x | y | sp
  deriving DecidableEq, Repr

/-- The six flags (R13). -/
inductive Flag where
  | n | v | d | i | z | c
  deriving DecidableEq, Repr

/-- A register's value. -/
def regOf (r : Reg) (s : State) : Byte :=
  match r with
  | .a => s.a
  | .x => s.x
  | .y => s.y
  | .sp => s.sp

/-- A flag's value. -/
def flagOf (f : Flag) (s : State) : Bool :=
  match f with
  | .n => s.flags.n
  | .v => s.flags.v
  | .d => s.flags.d
  | .i => s.flags.i
  | .z => s.flags.z
  | .c => s.flags.c

/-! ### Frames -/

/-- The state no instruction touches: the framebuffer, its ready flag, the running flag, the interrupt inputs. -/
structure SameHostSide (s t : State) : Prop where
  fb : t.fb = s.fb
  frameReady : t.frameReady = s.frameReady
  running : t.running = s.running
  nmiPending : t.nmiPending = s.nmiPending
  irqLine : t.irqLine = s.irqLine

/-- What an instruction leaves unchanged: every register but `regs`, every flag but `flags`, every byte of memory but
those at `stored`, the host's side, the fault latch; and, where it stores nothing, the bank select and the dirty
table. -/
structure Frame (regs : List Reg) (flags : List Flag) (stored : List Addr) (s t : State) : Prop where
  reg : ∀ r, r ∉ regs → regOf r t = regOf r s
  flag : ∀ f, f ∉ flags → flagOf f t = flagOf f s
  mem : ∀ a, a ∉ stored → cell t a = cell s a
  host : SameHostSide s t
  fault : t.fault = s.fault
  faultByte : t.faultByte = s.faultByte
  bank : stored = [] → t.bankSel = s.bankSel
  dirty : stored = [] → t.dirty = s.dirty

/-- N and Z follow a byte (R113): Z when it is 0, N its bit 7. -/
def NZFollow (r : Byte) (t : State) : Prop :=
  t.flags.z = decide (r = 0) ∧ t.flags.n = decide (128 ≤ r.toNat)

/-- An instruction of registers, flags and reads completes: PC stays past its bytes, its base cost and the given
penalty are added, and the frame holds with nothing stored. -/
structure Completes (op : Op) (mode : Mode) (pen : Nat) (regs : List Reg) (flags : List Flag) (s t : State) : Prop where
  pc : t.pc = s.pc
  cycles : t.cycles = s.cycles + baseCycles op mode + pen
  frame : Frame regs flags [] s t

/-! ### Stores (R45, R47, R48) -/

/-- Is an address one of the two bank-select switches? -/
abbrev IsSelect (a : Addr) : Prop := a = cfg.swBank0 ∨ a = cfg.swBank1

/-- Does an address belong to entry `i` of the dirty table, scanline `i % 192` of bank 0 (`i` below 192) or bank 1? It
lies in the bank's window and in the forty bytes of that scanline (R22, R48, R49). -/
abbrev OnScanline (i : Fin 384) (a : Addr) : Prop :=
  let base := if i.val < 192 then cfg.vbank0Base.toNat else cfg.vbank1Base.toNat
  (base ≤ a.toNat ∧ a.toNat < base + cfg.vbankSize) ∧
    base + lineOffset (i.val % 192) ≤ a.toNat ∧ a.toNat < base + lineOffset (i.val % 192) + 40

/-- One byte `v` was written at `a`: the two select addresses switch the bank and store nothing; any other address
holds `v` afterwards and marks the scanline it belongs to, and no other. -/
structure Wrote (a : Addr) (v : Byte) (s t : State) : Prop where
  select0 : a = cfg.swBank0 → t.bankSel = .bank0
  select1 : a = cfg.swBank1 → t.bankSel = .bank1
  keepBank : ¬ IsSelect a → t.bankSel = s.bankSel
  selectStoresNothing : IsSelect a → cell t a = cell s a ∧ t.dirty = s.dirty
  stored : ¬ IsSelect a → cell t a = v
  marks : ¬ IsSelect a → ∀ i : Fin 384, t.dirty[i] = (s.dirty[i] || decide (OnScanline i a))

/-- A storing instruction completes: one byte written at `a`, PC past its bytes, its cost added, the frame held but for
the byte at `a`. -/
structure CompletesStore (op : Op) (mode : Mode) (regs : List Reg) (flags : List Flag) (a : Addr) (v : Byte)
    (s t : State) : Prop where
  pc : t.pc = s.pc
  cycles : t.cycles = s.cycles + baseCycles op mode
  wrote : Wrote a v s t
  frame : Frame regs flags [a] s t

/-- A push completes: the byte at the old stack address, SP one lower modulo 256, nothing else (R111). -/
structure CompletesPush (op : Op) (v : Byte) (s t : State) : Prop where
  pc : t.pc = s.pc
  cycles : t.cycles = s.cycles + baseCycles op .imp
  sp : t.sp = s.sp - 1
  stored : cell t (stackAddr s.sp) = v
  frame : Frame [.sp] [] [stackAddr s.sp] s t
  bank : t.bankSel = s.bankSel
  dirty : t.dirty = s.dirty

/-- A conditional branch completes (R117): not taken, PC stays past the instruction at the base cost; taken, PC moves
by the signed offset, at 1 cycle, and 1 more into another page. -/
structure CompletesBranch (op : Op) (cond : Bool) (off : Byte) (s t : State) : Prop where
  notTaken : cond = false → t.pc = s.pc ∧ t.cycles = s.cycles + baseCycles op .rel
  forward : cond = true → off.toNat ≤ 127 → t.pc = s.pc + BitVec.ofNat 16 off.toNat
  backward : cond = true → 127 < off.toNat → t.pc = s.pc - BitVec.ofNat 16 (256 - off.toNat)
  takenCost : cond = true → t.cycles = s.cycles + baseCycles op .rel + 1 + (if hi s.pc = hi t.pc then 0 else 1)
  frame : Frame [] [] [] s t

/-! ### Penalties (R92) -/

/-- The penalty of a branch (R117): 1 when taken, and 1 more into another page. -/
def branchCycles (cond : Bool) (off : Byte) (s : State) : Nat :=
  if cond then 1 + pageCross s.pc (s.pc + sext off) else 0

/-- The cycles an instruction adds to its base cost (R92), from the state it runs in: a page crossing in a penalized
mode (R109), a taken branch (R117), nothing else. -/
def extraCycles (i : Instr) (s : State) : Nat :=
  match i with
  | .lda o | .ldx o | .ldy o | .and o | .ora o | .eor o => operandPenalty o s
  | .adc o | .sbc o | .cmp o | .cpx o | .cpy o => operandPenalty o s
  | .sta m | .stx m | .sty m | .bit m | .inc m | .dec m | .asl m | .lsr m | .rol m | .ror m | .jmp m => penalty m s
  | .slo m | .rla m | .sre m | .rra m | .dcp m | .isc m => penalty m s
  | .bpl off => branchCycles (!s.flags.n) off s
  | .bmi off => branchCycles s.flags.n off s
  | .bvc off => branchCycles (!s.flags.v) off s
  | .bvs off => branchCycles s.flags.v off s
  | .bcc off => branchCycles (!s.flags.c) off s
  | .bcs off => branchCycles s.flags.c off s
  | .bne off => branchCycles (!s.flags.z) off s
  | .beq off => branchCycles s.flags.z off s
  | .tax | .tay | .txa | .tya | .tsx | .txs | .pha | .pla | .php | .plp => 0
  | .inx | .iny | .dex | .dey | .aslA | .lsrA | .rolA | .rorA | .jsr _ | .rts => 0
  | .clc | .sec | .cli | .sei | .cld | .sed | .clv | .nop | .brk | .rti => 0
  | .hlt _ | .unimpl _ | .anc _ _ | .alr _ | .arr _ | .sbx _ => 0

/-! ### Interrupt entry (R322) -/

/-- The three stack addresses an entry or a return uses, for the SP before the entry. -/
def entryCells (sp : Byte) : List Addr := [stackAddr sp, stackAddr (sp - 1), stackAddr (sp - 2)]

/-- What `EnterInterrupt(vec, b, skew)` leaves, `ret` being the address it saves (R322). -/
structure Entered (vec : Addr) (b : Bool) (ret : Addr) (s t : State) : Prop where
  savedHigh : cell t (stackAddr s.sp) = hi ret
  savedLow : cell t (stackAddr (s.sp - 1)) = lo ret
  savedStatus : cell t (stackAddr (s.sp - 2)) = packP b s.flags
  sp : t.sp = s.sp - 3
  setsI : t.flags.i = true
  pc : t.pc = word (memRead t (vec + 1)) (memRead t vec)
  frame : Frame [.sp] [.i] (entryCells s.sp) s t
  bank : t.bankSel = s.bankSel
  dirty : t.dirty = s.dirty

/-! ### Step boundaries, safety, the invariant -/

/-- The next step runs an instruction: nothing latched, no request that is taken before it (R325, R326). -/
abbrev Undisturbed (s : State) : Prop :=
  s.fault = false ∧ s.nmiPending = false ∧ (s.irqLine = false ∨ s.flags.i = true)

/-- The state an instruction or an interrupt can see: everything but the cycle clock, the dirty table, the framebuffer,
its ready flag and the running flag (R31, R25, R26). -/
structure SameVisible (s t : State) : Prop where
  a : t.a = s.a
  x : t.x = s.x
  y : t.y = s.y
  sp : t.sp = s.sp
  pc : t.pc = s.pc
  flags : t.flags = s.flags
  fault : t.fault = s.fault
  faultByte : t.faultByte = s.faultByte
  mem : t.mem = s.mem
  bankSel : t.bankSel = s.bankSel
  nmiPending : t.nmiPending = s.nmiPending
  irqLine : t.irqLine = s.irqLine

/-- HALTED (R19): the byte at PC is a halt byte and the next step runs it. -/
def Halted (s : State) : Prop := Undisturbed s ∧ memRead s s.pc ∈ hltCodes

/-- A state a safe run may end in: the fault latch is clear. A run that reaches a latched state has no final state
(R231, R320). -/
def Safe (s : State) : Prop := s.fault = false

/-- The invariant every step and every host operation keeps: the memory is in its canonical form (R20, R40). -/
def Invariant (s : State) : Prop := Memory.wf s.mem

end Sys2Proof.Machine
end

