-- ==== Sys2Proof/Certificates/Slice0/Obligations.lean ====
section
/-! DEFINITION. The statements for the provers. Each docstring names the rule or section of the spec it formalises and,
where a clause rests on a choice of the model or of the spec, the log entry or the decision. Statements name the
parameters of R7 through `cfg`. -/

open Sys2Proof Sys2Proof.Machine

/-! ### Encoding and decoding -/

/-- Decoding the bytes of a well-formed instruction gives it back, whatever bytes follow (R70, R72, R75 to R78): every
operand at every value. -/
def Obligations.DecodeEncodeRoundTrip : Prop :=
  ∀ i : Instr, i.wellFormed = true →
    ∃ ws, encode i = some ws ∧ ws.length = i.length ∧ ∀ rest, decode (ws ++ rest) = .ok i rest

/-- Decoding is total on three bytes or more (R81), gives a well-formed instruction, and encoding that gives back the
bytes it was read from, the rest being left. -/
def Obligations.DecodeTotalAndInverse : Prop :=
  ∀ (b0 b1 b2 : Byte) (rest : List Byte), ∃ i,
    decode (b0 :: b1 :: b2 :: rest) = .ok i ((b0 :: b1 :: b2 :: rest).drop i.length) ∧
    i.wellFormed = true ∧ encode i = some ((b0 :: b1 :: b2 :: rest).take i.length)

/-- A few words written out from the spec's encodings (R75 to R78, R83). -/
def Obligations.DecodesWordsOfTheSpec : Prop :=
  decode [0xA9#8, 0x10#8] = .ok (.lda (.imm 0x10#8)) [] ∧
  decode [0xBD#8, 0x34#8, 0x12#8] = .ok (.lda (.mem (.abxp 0x1234#16))) [] ∧
  decode [0x9D#8, 0x34#8, 0x12#8] = .ok (.sta (.abx 0x1234#16)) [] ∧
  decode [0x6C#8, 0x34#8, 0x12#8] = .ok (.jmp (.ind 0x1234#16)) [] ∧
  decode [0xD0#8, 0x03#8] = .ok (.bne 0x03#8) [] ∧
  decode [0x13#8, 0x20#8] = .ok (.slo (.izy 0x20#8)) [] ∧
  decode [0x00#8, 0xFF#8] = .ok .brk [0xFF#8] ∧
  decode [0xF2#8] = .ok (.hlt 0xF2#8) [] ∧
  decode [0xA7#8, 0x10#8] = .ok (.unimpl 0xA7#8) [0x10#8]

/-- The pattern behind the base costs that R80 gives for checking, every group of it (the numbers are decision D6, log
entry 2): the one-byte operations, pushes, pulls, calls, returns, jumps; the reads, stores and both kinds of
read-modify-write in each of their modes; branches, undocumented immediates, the halt, the entries. -/
def Obligations.BaseCostsFollowThePattern : Prop :=
  (∀ op ∈ [Op.tax, .tay, .txa, .tya, .tsx, .txs, .inx, .iny, .dex, .dey, .aslA, .lsrA, .rolA, .rorA,
      .clc, .sec, .cli, .sei, .cld, .sed, .clv, .nop], baseCycles op .imp = 2) ∧
  (∀ op ∈ [Op.pha, .php], baseCycles op .imp = 3) ∧ (∀ op ∈ [Op.pla, .plp], baseCycles op .imp = 4) ∧
  (∀ op ∈ [Op.rts, .rti], baseCycles op .imp = 6) ∧ baseCycles .jsr .abs = 6 ∧
  baseCycles .jmp .abs = 3 ∧ baseCycles .jmp .ind = 5 ∧
  (∀ op ∈ [Op.lda, .and, .ora, .eor, .adc, .sbc, .cmp],
    accModes.map (baseCycles op) = [2, 3, 4, 4, 4, 4, 6, 5]) ∧
  [Mode.imm, .zp, .zpy, .abs, .abyp].map (baseCycles .ldx) = [2, 3, 4, 4, 4] ∧
  [Mode.imm, .zp, .zpx, .abs, .abxp].map (baseCycles .ldy) = [2, 3, 4, 4, 4] ∧
  (∀ op ∈ [Op.cpx, .cpy], [Mode.imm, .zp, .abs].map (baseCycles op) = [2, 3, 4]) ∧
  [Mode.zp, .abs].map (baseCycles .bit) = [3, 4] ∧
  staModes.map (baseCycles .sta) = [3, 4, 4, 5, 5, 6, 6] ∧
  [Mode.zp, .zpy, .abs].map (baseCycles .stx) = [3, 4, 4] ∧
  [Mode.zp, .zpx, .abs].map (baseCycles .sty) = [3, 4, 4] ∧
  (∀ op ∈ [Op.asl, .lsr, .rol, .ror, .inc, .dec], rmwModes.map (baseCycles op) = [5, 6, 6, 7]) ∧
  (∀ op ∈ [Op.slo, .rla, .sre, .rra, .dcp, .isc], undocModes.map (baseCycles op) = [5, 6, 6, 7, 7, 8, 8]) ∧
  (∀ op ∈ [Op.bpl, .bmi, .bvc, .bvs, .bcc, .bcs, .bne, .beq], baseCycles op .rel = 2) ∧
  (∀ op ∈ [Op.anc, .alr, .arr, .sbx], baseCycles op .imm = 2) ∧
  baseCycles .hlt .imp = cfg.hltCycles ∧ (∀ op ∈ [Op.brk, .nmi, .irq], baseCycles op .imp = 7)

/-! ### A step -/

/-- When nothing is latched or requested and the bytes at PC decode to an instruction, the step is `exec` of it in the
state whose PC is past its bytes, modulo 65536 (R90, R91, R12). -/
def Obligations.StepRunsDecodedInstruction : Prop :=
  ∀ (s : State) (i : Instr) (rest : List Byte), Undisturbed s → decode (fetchWindow s) = .ok i rest →
    step s = exec i { s with pc := s.pc + BitVec.ofNat 16 i.length }

/-- When the bytes read at PC and after it, modulo 65536, are those of a well-formed instruction, the step runs that
instruction, from PC past its bytes (R60, R70, R90). -/
def Obligations.StepRunsEncodedInstruction : Prop :=
  ∀ (s : State) (i : Instr) (ws : List Byte), Undisturbed s → i.wellFormed = true → encode i = some ws →
    (∀ k : Fin ws.length, memRead s (s.pc + BitVec.ofNat 16 k.val) = ws[k]) →
    step s = exec i { s with pc := s.pc + BitVec.ofNat 16 ws.length }

/-- A machine that is not faulted takes a step, whatever its state: no access, address, stack or decode fault exists
(R40, R81, R321). At an UNIMPL byte that step answers the state with its latch set, which is the model's reading of R231
and R320 (log entry 6). A faulted machine stops with the byte it recorded; that it is a `Fault` outcome is log entry 6
too. -/
def Obligations.UnfaultedStepCompletes : Prop :=
  ∀ s : State, (s.fault = false → ∃ t, step s = .next t) ∧
    (s.fault = true → step s = .fault (.unimplemented s.faultByte))

/-- `exec` answers a next state for every instruction in every state: none is privileged and none faults on its operands
(R232, R329, R40). That it does so for UNIMPL, whose step R90 and R231 call not completed, is the model's choice: the
next state is the one with the latch set (log entry 6). -/
def Obligations.EveryInstructionCompletes : Prop :=
  ∀ (i : Instr) (s : State), ∃ t, exec i s = .next t

/-- What a step charges is `OPMAP[idx].base` plus the penalties (R92): for a fetched instruction other than UNIMPL the
entry of the byte at PC, for the service sequences those of indices 256 and 257 (R79, R90); `lookup` is `OPMAP`. -/
def Obligations.StepChargesRegistryEntry : Prop :=
  (∀ k < 258, cfg.opmap[k]? = some (lookup k)) ∧
  ∀ s : State,
    (∀ (i : Instr) (rest : List Byte), Undisturbed s → decode (fetchWindow s) = .ok i rest → i.op ≠ .unimpl →
      ∃ t, step s = .next t ∧ t.cycles = s.cycles + (lookup (memRead s s.pc).toNat).base +
        extraCycles i { s with pc := s.pc + BitVec.ofNat 16 i.length }) ∧
    (s.fault = false → s.nmiPending = true → ∃ t, step s = .next t ∧ t.cycles = s.cycles + (lookup 256).base) ∧
    (s.fault = false → s.nmiPending = false → s.irqLine = true → s.flags.i = false →
      ∃ t, step s = .next t ∧ t.cycles = s.cycles + (lookup 257).base)

/-- A completed step costs at least 2 and at most 8 cycles; only a step that latches the fault costs none (R92, R93,
R231). The numbers rest on decision D6. -/
def Obligations.StepCostBounds : Prop :=
  ∀ s t : State, step s = .next t →
    (t.fault = false → s.cycles + 2 ≤ t.cycles ∧ t.cycles ≤ s.cycles + 8) ∧ (t.fault = true → t.cycles = s.cycles)

/-! ### Addressing modes -/

/-- The effective address of every mode, as numbers: zero-page sums and pointers wrap modulo 256, absolute sums modulo
65536, and the indirect pointer's high byte comes from its own page (R96 to R107). -/
def Obligations.EffectiveAddresses : Prop :=
  ∀ (s : State) (b : Byte) (w : Addr),
    (effAddr (.zp b) s).toNat = b.toNat ∧
    (effAddr (.zpx b) s).toNat = (b.toNat + s.x.toNat) % 256 ∧
    (effAddr (.zpy b) s).toNat = (b.toNat + s.y.toNat) % 256 ∧
    (∀ z : Nat, z = (b.toNat + s.x.toNat) % 256 → (effAddr (.izx b) s).toNat =
      (memRead s (BitVec.ofNat 16 z)).toNat + 256 * (memRead s (BitVec.ofNat 16 ((z + 1) % 256))).toNat) ∧
    (∀ m ∈ [MemOperand.izy b, .izyp b], (effAddr m s).toNat =
      ((memRead s (BitVec.ofNat 16 b.toNat)).toNat +
        256 * (memRead s (BitVec.ofNat 16 ((b.toNat + 1) % 256))).toNat + s.y.toNat) % 65536) ∧
    effAddr (.abs w) s = w ∧
    (∀ m ∈ [MemOperand.abx w, .abxp w], (effAddr m s).toNat = (w.toNat + s.x.toNat) % 65536) ∧
    (∀ m ∈ [MemOperand.aby w, .abyp w], (effAddr m s).toNat = (w.toNat + s.y.toNat) % 65536) ∧
    (effAddr (.ind w) s).toNat = (memRead s w).toNat +
      256 * (memRead s (BitVec.ofNat 16 (w.toNat / 256 * 256 + (w.toNat + 1) % 256))).toNat

/-- The page-crossing test (R109): a penalized mode costs one cycle exactly when the address before indexing and the
effective address have different high bytes, so never at index 0; the other modes never. Each of the nine instructions
that use a penalized mode adds it to the running clock. -/
def Obligations.PageCrossingCostsOneCycle : Prop :=
  ∀ s : State,
    (∀ w : Addr, penalty (.abxp w) s = (if w.toNat / 256 = (effAddr (.abxp w) s).toNat / 256 then 0 else 1) ∧
      penalty (.abyp w) s = (if w.toNat / 256 = (effAddr (.abyp w) s).toNat / 256 then 0 else 1)) ∧
    (∀ b : Byte, penalty (.izyp b) s =
      (if (memRead16zp s b).toNat / 256 = (effAddr (.izyp b) s).toNat / 256 then 0 else 1)) ∧
    (s.x = 0 → ∀ w : Addr, penalty (.abxp w) s = 0) ∧
    (s.y = 0 → ∀ w : Addr, penalty (.abyp w) s = 0 ∧ ∀ b : Byte, penalty (.izyp b) s = 0) ∧
    (∀ m : MemOperand, m.mode ∉ [Mode.abxp, .abyp, .izyp] → penalty m s = 0) ∧
    (∀ (m : MemOperand) (i : Instr),
      i ∈ [Instr.lda (.mem m), .ldx (.mem m), .ldy (.mem m), .and (.mem m), .ora (.mem m), .eor (.mem m),
        .adc (.mem m), .sbc (.mem m), .cmp (.mem m)] →
      ∃ t, exec i s = .next t ∧ t.cycles = s.cycles + baseCycles i.op m.mode + penalty m s)

/-! ### The status byte -/

/-- The status byte and the six flags (R16): packing and unpacking loses no flag, and a byte unpacked and packed again
is itself but for bit 5, always 1, and bit 4, the break bit. The positions of the flags are decision D8 of the spec (log
entry 1). -/
def Obligations.StatusByteIsLossless : Prop :=
  (∀ (b : Bool) (f : Flags), unpackP (packP b f) = f) ∧
  (∀ (b : Bool) (v : Byte), packP b (unpackP v) = (v &&& 0xCF#8) ||| 0x20#8 ||| (if b then 0x10#8 else 0#8)) ∧
  (∀ v : Byte, unpackP v =
    ⟨v.getLsbD 7, v.getLsbD 6, v.getLsbD 3, v.getLsbD 2, v.getLsbD 1, v.getLsbD 0⟩)

/-! ### Loads, stores, transfers (41_load_store_transfer.md) -/

/-- LDA, LDX, LDY: the register takes the operand, N and Z follow it, nothing else changes (R120 to R122). -/
def Obligations.LoadsSetRegisterAndNZ : Prop :=
  ∀ (o : Operand) (s : State),
    (∃ t, exec (.lda o) s = .next t ∧ t.a = operandValue o s ∧ NZFollow (operandValue o s) t ∧
      Completes .lda o.mode (operandPenalty o s) [.a] [.n, .z] s t) ∧
    (∃ t, exec (.ldx o) s = .next t ∧ t.x = operandValue o s ∧ NZFollow (operandValue o s) t ∧
      Completes .ldx o.mode (operandPenalty o s) [.x] [.n, .z] s t) ∧
    (∃ t, exec (.ldy o) s = .next t ∧ t.y = operandValue o s ∧ NZFollow (operandValue o s) t ∧
      Completes .ldy o.mode (operandPenalty o s) [.y] [.n, .z] s t)

/-- STA, STX, STY in each of their modes: one byte written at the effective address, no flag, no register, base cost
whatever the index does (R123 to R125). -/
def Obligations.StoresWriteOneByte : Prop :=
  ∀ (m : MemOperand) (s : State), m.mode ∈ Mode.zpy :: staModes →
    (∃ t, exec (.sta m) s = .next t ∧ CompletesStore .sta m.mode [] [] (effAddr m s) s.a s t) ∧
    (∃ t, exec (.stx m) s = .next t ∧ CompletesStore .stx m.mode [] [] (effAddr m s) s.x s t) ∧
    (∃ t, exec (.sty m) s = .next t ∧ CompletesStore .sty m.mode [] [] (effAddr m s) s.y s t)

/-- TAX, TAY, TXA, TYA, TSX copy a register and set N and Z from it; TXS sets SP and no flag (R126 to R131; the last is
decision D13). -/
def Obligations.TransfersCopyRegisters : Prop :=
  ∀ s : State,
    (∃ t, exec .tax s = .next t ∧ t.x = s.a ∧ NZFollow s.a t ∧ Completes .tax .imp 0 [.x] [.n, .z] s t) ∧
    (∃ t, exec .tay s = .next t ∧ t.y = s.a ∧ NZFollow s.a t ∧ Completes .tay .imp 0 [.y] [.n, .z] s t) ∧
    (∃ t, exec .txa s = .next t ∧ t.a = s.x ∧ NZFollow s.x t ∧ Completes .txa .imp 0 [.a] [.n, .z] s t) ∧
    (∃ t, exec .tya s = .next t ∧ t.a = s.y ∧ NZFollow s.y t ∧ Completes .tya .imp 0 [.a] [.n, .z] s t) ∧
    (∃ t, exec .tsx s = .next t ∧ t.x = s.sp ∧ NZFollow s.sp t ∧ Completes .tsx .imp 0 [.x] [.n, .z] s t) ∧
    (∃ t, exec .txs s = .next t ∧ t.sp = s.x ∧ Completes .txs .imp 0 [.sp] [] s t)

/-! ### Stack (42_stack.md) -/

/-- PHA pushes A, PHP the status byte with bits 5 and 4 set; no flag changes (R140, R142; bit 4 is decision D12). -/
def Obligations.PushesStoreBelowTheStack : Prop :=
  ∀ s : State,
    (∃ t, exec .pha s = .next t ∧ CompletesPush .pha s.a s t) ∧
    (∃ t, exec .php s = .next t ∧ CompletesPush .php (packP cfg.phpBreak s.flags) s t ∧
      (cell t (stackAddr s.sp)).getLsbD 5 = true)

/-- PLA and PLP read the byte above SP, modulo 256, and leave memory alone; PLA sets N and Z from it, PLP all six flags
(R141, R143). -/
def Obligations.PullsReadAboveTheStack : Prop :=
  ∀ s : State,
    (∃ t, exec .pla s = .next t ∧ t.a = cell s (stackAddr (s.sp + 1)) ∧ t.sp = s.sp + 1 ∧ NZFollow t.a t ∧
      Completes .pla .imp 0 [.a, .sp] [.n, .z] s t) ∧
    (∃ t, exec .plp s = .next t ∧ t.flags = unpackP (cell s (stackAddr (s.sp + 1))) ∧ t.sp = s.sp + 1 ∧
      Completes .plp .imp 0 [.sp] [.n, .v, .d, .i, .z, .c] s t)

/-- Push then pull (R144): PHA; PLA restores A and SP, PHP; PLP every flag and SP, and no byte of memory but the pushed
one changes. -/
def Obligations.PushPullRoundTrips : Prop :=
  ∀ s : State,
    (∃ t u, exec .pha s = .next t ∧ exec .pla t = .next u ∧ u.a = s.a ∧ u.sp = s.sp ∧ NZFollow s.a u ∧
      ∀ b, b ≠ stackAddr s.sp → cell u b = cell s b) ∧
    (∃ t u, exec .php s = .next t ∧ exec .plp t = .next u ∧ u.flags = s.flags ∧ u.sp = s.sp ∧ u.a = s.a ∧
      ∀ b, b ≠ stackAddr s.sp → cell u b = cell s b)

/-! ### Logic, arithmetic, compare (43_logic_arith.md) -/

/-- AND, ORA, EOR: A takes the bitwise result, N and Z follow it (R150 to R152). -/
def Obligations.LogicWritesAccumulator : Prop :=
  ∀ (o : Operand) (s : State),
    (∃ t, exec (.and o) s = .next t ∧ t.a = s.a &&& operandValue o s ∧ NZFollow t.a t ∧
      Completes .and o.mode (operandPenalty o s) [.a] [.n, .z] s t) ∧
    (∃ t, exec (.ora o) s = .next t ∧ t.a = s.a ||| operandValue o s ∧ NZFollow t.a t ∧
      Completes .ora o.mode (operandPenalty o s) [.a] [.n, .z] s t) ∧
    (∃ t, exec (.eor o) s = .next t ∧ t.a = s.a ^^^ operandValue o s ∧ NZFollow t.a t ∧
      Completes .eor o.mode (operandPenalty o s) [.a] [.n, .z] s t)

/-- BIT: Z from A and M, N and V from bits 7 and 6 of M, A unchanged (R153). -/
def Obligations.BitTestsWithoutWriting : Prop :=
  ∀ (m : MemOperand) (s : State), ∃ t, exec (.bit m) s = .next t ∧
    t.flags.z = decide (s.a &&& memRead s (effAddr m s) = 0) ∧
    t.flags.n = decide (128 ≤ (memRead s (effAddr m s)).toNat) ∧
    t.flags.v = decide (64 ≤ (memRead s (effAddr m s)).toNat % 128) ∧
    Completes .bit m.mode (penalty m s) [] [.n, .v, .z] s t

/-- ADC and SBC (R114): the 9-bit sum of A, the operand (complemented for SBC) and C; A its low byte, C its ninth bit,
V by the sign rule, N and Z from the low byte, whatever D holds. -/
def Obligations.AddWithCarry : Prop :=
  ∀ (o : Operand) (s : State) (i : Instr) (m : Byte),
    (i = .adc o ∧ m = operandValue o s) ∨ (i = .sbc o ∧ m = operandValue o s ^^^ 0xFF#8) →
    ∃ t, exec i s = .next t ∧
      t.a.toNat = (s.a.toNat + m.toNat + s.flags.c.toNat) % 256 ∧
      t.flags.c = decide (255 < s.a.toNat + m.toNat + s.flags.c.toNat) ∧
      t.flags.v = decide ((128 ≤ s.a.toNat ↔ 128 ≤ m.toNat) ∧ ¬ (128 ≤ m.toNat ↔ 128 ≤ t.a.toNat)) ∧
      NZFollow t.a t ∧ Completes i.op o.mode (operandPenalty o s) [.a] [.n, .v, .z, .c] s t

/-- What ADC and SBC mean as numbers (R154, R155): V is set exactly when the signed result leaves -128..127; SBC leaves
A minus M minus the borrow, with C set exactly when no borrow occurred. -/
def Obligations.SignedOverflowAndBorrow : Prop :=
  ∀ (o : Operand) (s : State),
    (∃ t, exec (.adc o) s = .next t ∧
      (t.flags.v = true ↔ s.a.toInt + (operandValue o s).toInt + s.flags.c.toNat < -128 ∨
        127 < s.a.toInt + (operandValue o s).toInt + s.flags.c.toNat)) ∧
    (∃ t, exec (.sbc o) s = .next t ∧
      (t.a.toNat : Int) = ((s.a.toNat : Int) - (operandValue o s).toNat - (1 - s.flags.c.toNat)) % 256 ∧
      (t.flags.c = true ↔ (operandValue o s).toNat + (1 - s.flags.c.toNat) ≤ s.a.toNat) ∧
      (t.flags.v = true ↔ s.a.toInt - (operandValue o s).toInt - (1 - s.flags.c.toNat) < -128 ∨
        127 < s.a.toInt - (operandValue o s).toInt - (1 - s.flags.c.toNat)))

/-- CMP, CPX, CPY (R115): C says the register is not below the operand, Z that they are equal, N is bit 7 of the
difference; V, the register and memory stay. -/
def Obligations.ComparesSetCarryZeroNegative : Prop :=
  ∀ (o : Operand) (s : State) (i : Instr) (reg m : Byte), m = operandValue o s →
    (i = .cmp o ∧ reg = s.a) ∨ (i = .cpx o ∧ reg = s.x) ∨ (i = .cpy o ∧ reg = s.y) →
    ∃ t, exec i s = .next t ∧
      t.flags.c = decide (m.toNat ≤ reg.toNat) ∧ t.flags.z = decide (reg = m) ∧
      t.flags.n = decide (128 ≤ (reg.toNat + 256 - m.toNat) % 256) ∧
      Completes i.op o.mode (operandPenalty o s) [] [.n, .z, .c] s t

/-- The decimal flag changes no result (R158, a reading the spec marks as its own, decision D14): of the instructions,
only PHP and BRK read it and only CLD, SED, PLP and RTI write it; every other one does the same whatever D holds and
leaves it as it was. -/
def Obligations.DecimalFlagIsInert : Prop :=
  ∀ (i : Instr) (s t : State) (b : Bool), i ∉ [Instr.php, .brk, .cld, .sed, .plp, .rti] → exec i s = .next t →
    t.flags.d = s.flags.d ∧ exec i (setD b s) = .next (setD b t)

/-! ### Increments, decrements, shifts, rotates (44_incdec_shift.md) -/

/-- INC and DEC on memory: modulo 256, N and Z from the new byte, C and V untouched, one write at the address read
(R170, R171). -/
def Obligations.IncDecModifyMemory : Prop :=
  ∀ (m : MemOperand) (s : State) (v : Byte), m.mode ∈ rmwModes → v = memRead s (effAddr m s) →
    (∃ t, exec (.inc m) s = .next t ∧ NZFollow (BitVec.ofNat 8 (v.toNat + 1)) t ∧
      CompletesStore .inc m.mode [] [.n, .z] (effAddr m s) (BitVec.ofNat 8 (v.toNat + 1)) s t) ∧
    (∃ t, exec (.dec m) s = .next t ∧ NZFollow (BitVec.ofNat 8 (v.toNat + 255)) t ∧
      CompletesStore .dec m.mode [] [.n, .z] (effAddr m s) (BitVec.ofNat 8 (v.toNat + 255)) s t)

/-- INX, INY, DEX, DEY: modulo 256, N and Z from the result, C and V untouched (R172 to R175). -/
def Obligations.IncDecRegisters : Prop :=
  ∀ s : State,
    (∃ t, exec .inx s = .next t ∧ t.x.toNat = (s.x.toNat + 1) % 256 ∧ NZFollow t.x t ∧
      Completes .inx .imp 0 [.x] [.n, .z] s t) ∧
    (∃ t, exec .iny s = .next t ∧ t.y.toNat = (s.y.toNat + 1) % 256 ∧ NZFollow t.y t ∧
      Completes .iny .imp 0 [.y] [.n, .z] s t) ∧
    (∃ t, exec .dex s = .next t ∧ t.x.toNat = (s.x.toNat + 255) % 256 ∧ NZFollow t.x t ∧
      Completes .dex .imp 0 [.x] [.n, .z] s t) ∧
    (∃ t, exec .dey s = .next t ∧ t.y.toNat = (s.y.toNat + 255) % 256 ∧ NZFollow t.y t ∧
      Completes .dey .imp 0 [.y] [.n, .z] s t)

/-- ASL, LSR, ROL, ROR on memory (R116): the new byte and C as the shift says, rotates taking in the old C, N and Z from
the new byte, one write at the address read. -/
def Obligations.ShiftsModifyMemory : Prop :=
  ∀ (m : MemOperand) (s : State) (v : Nat), m.mode ∈ rmwModes → v = (memRead s (effAddr m s)).toNat →
    ∀ (i : Instr) (r : Byte) (c : Bool),
      (i, r, c) ∈ [(Instr.asl m, BitVec.ofNat 8 (2 * v), decide (128 ≤ v)),
        (.lsr m, BitVec.ofNat 8 (v / 2), decide (v % 2 = 1)),
        (.rol m, BitVec.ofNat 8 (2 * v + s.flags.c.toNat), decide (128 ≤ v)),
        (.ror m, BitVec.ofNat 8 (v / 2 + 128 * s.flags.c.toNat), decide (v % 2 = 1))] →
      ∃ t, exec i s = .next t ∧ t.flags.c = c ∧ NZFollow r t ∧
        CompletesStore i.op m.mode [] [.n, .z, .c] (effAddr m s) r s t

/-- ASL A, LSR A, ROL A, ROR A (R116): the same functions on the accumulator. -/
def Obligations.ShiftsModifyAccumulator : Prop :=
  ∀ (s : State) (v : Nat), v = s.a.toNat →
    ∀ (i : Instr) (r : Byte) (c : Bool),
      (i, r, c) ∈ [(Instr.aslA, BitVec.ofNat 8 (2 * v), decide (128 ≤ v)),
        (.lsrA, BitVec.ofNat 8 (v / 2), decide (v % 2 = 1)),
        (.rolA, BitVec.ofNat 8 (2 * v + s.flags.c.toNat), decide (128 ≤ v)),
        (.rorA, BitVec.ofNat 8 (v / 2 + 128 * s.flags.c.toNat), decide (v % 2 = 1))] →
      ∃ t, exec i s = .next t ∧ t.a = r ∧ t.flags.c = c ∧ NZFollow r t ∧
        Completes i.op .imp 0 [.a] [.n, .z, .c] s t

/-! ### Jumps, call, return, branches (45_control_flow.md) -/

/-- JMP in both modes, JSR and RTS: where PC goes, what is pushed and pulled, and that nothing else changes (R200 to
R203; what JSR pushes is decision D33). -/
def Obligations.JumpsCallsReturns : Prop :=
  ∀ s : State,
    (∀ m : MemOperand, m.mode ∈ [Mode.abs, .ind] → ∃ t, exec (.jmp m) s = .next t ∧ t.pc = effAddr m s ∧
      t.cycles = s.cycles + baseCycles .jmp m.mode ∧ Frame [] [] [] s t) ∧
    (∀ w : Addr, ∃ t, exec (.jsr w) s = .next t ∧ t.pc = w ∧ t.sp = s.sp - 2 ∧
      cell t (stackAddr s.sp) = hi (s.pc - 1) ∧ cell t (stackAddr (s.sp - 1)) = lo (s.pc - 1) ∧
      t.cycles = s.cycles + baseCycles .jsr .abs ∧ t.bankSel = s.bankSel ∧ t.dirty = s.dirty ∧
      Frame [.sp] [] [stackAddr s.sp, stackAddr (s.sp - 1)] s t) ∧
    (∃ t, exec .rts s = .next t ∧ t.sp = s.sp + 2 ∧
      t.pc.toNat = ((cell s (stackAddr (s.sp + 1))).toNat + 256 * (cell s (stackAddr (s.sp + 2))).toNat + 1) % 65536 ∧
      t.cycles = s.cycles + baseCycles .rts .imp ∧ Frame [.sp] [] [] s t)

/-- A subroutine returns to the instruction after its call (R202, R203): from any state that has the call's SP and its
two pushed bytes, RTS goes to the PC the call left from and restores SP. -/
def Obligations.ReturnLandsAfterCall : Prop :=
  ∀ (w : Addr) (s t u : State), exec (.jsr w) s = .next t → u.sp = t.sp →
    cell u (stackAddr s.sp) = cell t (stackAddr s.sp) →
    cell u (stackAddr (s.sp - 1)) = cell t (stackAddr (s.sp - 1)) →
    ∃ r, exec .rts u = .next r ∧ r.pc = s.pc ∧ r.sp = s.sp

/-- The eight branches (R117), each on its flag (R204 to R211; which flag is decision D42): not taken at base cost;
taken, PC by the signed offset, 1 cycle more, and 1 more into another page; no flag and nothing else written. -/
def Obligations.BranchesMovePC : Prop :=
  ∀ (off : Byte) (s : State) (i : Instr) (cond : Bool),
    (i, cond) ∈ [(Instr.bpl off, !s.flags.n), (.bmi off, s.flags.n), (.bvc off, !s.flags.v), (.bvs off, s.flags.v),
      (.bcc off, !s.flags.c), (.bcs off, s.flags.c), (.bne off, !s.flags.z), (.beq off, s.flags.z)] →
    ∃ t, exec i s = .next t ∧ CompletesBranch i.op cond off s t

/-! ### Flags, BRK, RTI, HLT, UNIMPL, interrupts (46_flags_system.md, 60_exceptions.md) -/

/-- The seven flag instructions write their flag and nothing else; NOP writes nothing (R220 to R227). -/
def Obligations.FlagInstructionsAndNop : Prop :=
  ∀ s : State,
    (∀ (i : Instr) (f : Flag) (v : Bool),
      (i, f, v) ∈ [(Instr.clc, Flag.c, false), (.sec, .c, true), (.cli, .i, false), (.sei, .i, true),
        (.cld, .d, false), (.sed, .d, true), (.clv, .v, false)] →
      ∃ t, exec i s = .next t ∧ flagOf f t = v ∧ Completes i.op .imp 0 [] [f] s t) ∧
    (∃ t, exec .nop s = .next t ∧ Completes .nop .imp 0 [] [] s t)

/-- `EnterInterrupt(vec, b, skew)` (R322): PC plus the skew and the status byte on the stack, high byte first, the
flags as they were; I set; PC from the vector; nothing else changed, and no cycle counted here. -/
def Obligations.EntrySavesAndVectors : Prop :=
  ∀ (vec : Addr) (b : Bool) (skew : Addr) (s : State),
    Entered vec b (s.pc + skew) s (enterInterrupt vec b skew s) ∧ (enterInterrupt vec b skew s).cycles = s.cycles

/-- BRK enters through the IRQ vector with the break bit set, saving the address of its opcode plus 2 (R228; the skew is
decision D11). PC is past the opcode when it runs. -/
def Obligations.BrkEntersThroughIrqVector : Prop :=
  ∀ s : State, ∃ t, exec .brk s = .next t ∧ Entered cfg.vecIrq true (s.pc + cfg.brkPushSkew) s t ∧
    t.cycles = s.cycles + baseCycles .brk .imp

/-- NMI before IRQ before the instruction (R323 to R326, decision D16): a pending NMI is consumed and entered through
its vector whatever I is; an IRQ level with I clear is entered through the IRQ vector and stays; both save the PC of
the instruction not run, with the break bit clear. -/
def Obligations.HardwareInterruptsEnter : Prop :=
  ∀ s : State, s.fault = false →
    (s.nmiPending = true → ∃ t, step s = .next t ∧
      Entered cfg.vecNmi false s.pc { s with nmiPending := false } t ∧
      t.cycles = s.cycles + baseCycles .nmi .imp) ∧
    (s.nmiPending = false → s.irqLine = true → s.flags.i = false → ∃ t, step s = .next t ∧
      Entered cfg.vecIrq false s.pc s t ∧ t.irqLine = true ∧ t.cycles = s.cycles + baseCycles .irq .imp)

/-- RTI pulls the status, then PC low, then PC high, and adds nothing (R229). -/
def Obligations.RtiPullsStatusAndPC : Prop :=
  ∀ s : State, ∃ t, exec .rti s = .next t ∧ t.flags = unpackP (cell s (stackAddr (s.sp + 1))) ∧
    t.pc = word (cell s (stackAddr (s.sp + 3))) (cell s (stackAddr (s.sp + 2))) ∧ t.sp = s.sp + 3 ∧
    t.cycles = s.cycles + baseCycles .rti .imp ∧ Frame [.sp] [.n, .v, .d, .i, .z, .c] [] s t

/-- An entry and its return (R229, R328): from any state with the entry's SP and its three saved bytes, RTI restores
every flag, SP, and PC exactly as saved. -/
def Obligations.ReturnRestoresInterruptedState : Prop :=
  ∀ (vec : Addr) (b : Bool) (ret : Addr) (s t u : State), Entered vec b ret s t → u.sp = t.sp →
    (∀ a ∈ entryCells s.sp, cell u a = cell t a) →
    ∃ r, exec .rti u = .next r ∧ r.flags = s.flags ∧ r.pc = ret ∧ r.sp = s.sp

/-- HLT puts PC back on its own byte and changes nothing else (R230), so a halted machine stays where it is, at
`HLT_CYCLES` a step. -/
def Obligations.HaltSpins : Prop :=
  (∀ (code : Byte) (s : State), ∃ t, exec (.hlt code) s = .next t ∧ t.pc = s.pc - 1 ∧
    t.cycles = s.cycles + baseCycles .hlt .imp ∧ Frame [] [] [] s t) ∧
  (∀ s : State, Halted s → step s = .next { s with cycles := s.cycles + cfg.hltCycles } ∧
    Halted { s with cycles := s.cycles + cfg.hltCycles })

/-- UNIMPL (R231, R320): the latch is set with the opcode byte, PC is one past it, no cycle is added, nothing else
changes; and no step follows. What state is left and that the latch sticks are decision D27; that the latching step
answers a next state is log entry 6. -/
def Obligations.UnimplementedByteLatchesFault : Prop :=
  (∀ (code : Byte) (s : State), exec (.unimpl code) s = .next { s with fault := true, faultByte := code }) ∧
  (∀ s : State, Undisturbed s → memRead s s.pc ∈ unimplCodes →
    ∃ t, step s = .next t ∧ t = { s with pc := s.pc + 1, fault := true, faultByte := memRead s s.pc } ∧
      step t = .fault (.unimplemented (memRead s s.pc)))

/-! ### Undocumented operations (47_undocumented.md) -/

/-- SLO, RLA, SRE: the shifted byte goes back to memory and is combined into A; C is the bit shifted out, N and Z from A
(R240 to R242, decision D38). -/
def Obligations.ShiftThenLogic : Prop :=
  ∀ (m : MemOperand) (s : State) (v : Nat), m.mode ∈ undocModes → v = (memRead s (effAddr m s)).toNat →
    (∃ t, exec (.slo m) s = .next t ∧ t.a = s.a ||| BitVec.ofNat 8 (2 * v) ∧ t.flags.c = decide (128 ≤ v) ∧
      NZFollow t.a t ∧ CompletesStore .slo m.mode [.a] [.n, .z, .c] (effAddr m s) (BitVec.ofNat 8 (2 * v)) s t) ∧
    (∃ t, exec (.rla m) s = .next t ∧ t.a = s.a &&& BitVec.ofNat 8 (2 * v + s.flags.c.toNat) ∧
      t.flags.c = decide (128 ≤ v) ∧ NZFollow t.a t ∧
      CompletesStore .rla m.mode [.a] [.n, .z, .c] (effAddr m s) (BitVec.ofNat 8 (2 * v + s.flags.c.toNat)) s t) ∧
    (∃ t, exec (.sre m) s = .next t ∧ t.a = s.a ^^^ BitVec.ofNat 8 (v / 2) ∧ t.flags.c = decide (v % 2 = 1) ∧
      NZFollow t.a t ∧ CompletesStore .sre m.mode [.a] [.n, .z, .c] (effAddr m s) (BitVec.ofNat 8 (v / 2)) s t)

/-- RRA adds the rotated byte with the carry the rotate produced; ISC subtracts the incremented byte with the incoming
carry as borrow; DCP compares A with the decremented byte (R243 to R245, decision D38). -/
def Obligations.ModifyThenArithmetic : Prop :=
  ∀ (m : MemOperand) (s : State) (v r : Byte), m.mode ∈ undocModes → v = memRead s (effAddr m s) →
    (r.toNat = v.toNat / 2 + 128 * s.flags.c.toNat → ∃ t, exec (.rra m) s = .next t ∧
      t.a.toNat = (s.a.toNat + r.toNat + v.toNat % 2) % 256 ∧
      t.flags.c = decide (255 < s.a.toNat + r.toNat + v.toNat % 2) ∧
      t.flags.v = decide ((128 ≤ s.a.toNat ↔ 128 ≤ r.toNat) ∧ ¬ (128 ≤ r.toNat ↔ 128 ≤ t.a.toNat)) ∧
      NZFollow t.a t ∧ CompletesStore .rra m.mode [.a] [.n, .v, .z, .c] (effAddr m s) r s t) ∧
    (r.toNat = (v.toNat + 1) % 256 → ∃ t, exec (.isc m) s = .next t ∧
      (t.a.toNat : Int) = ((s.a.toNat : Int) - r.toNat - (1 - s.flags.c.toNat)) % 256 ∧
      t.flags.c = decide (r.toNat + (1 - s.flags.c.toNat) ≤ s.a.toNat) ∧
      t.flags.v = decide (¬ (128 ≤ s.a.toNat ↔ 128 ≤ r.toNat) ∧ (128 ≤ r.toNat ↔ 128 ≤ t.a.toNat)) ∧
      NZFollow t.a t ∧ CompletesStore .isc m.mode [.a] [.n, .v, .z, .c] (effAddr m s) r s t) ∧
    (r.toNat = (v.toNat + 255) % 256 → ∃ t, exec (.dcp m) s = .next t ∧
      t.flags.c = decide (r.toNat ≤ s.a.toNat) ∧ t.flags.z = decide (s.a = r) ∧
      t.flags.n = decide (128 ≤ (s.a.toNat + 256 - r.toNat) % 256) ∧
      CompletesStore .dcp m.mode [] [.n, .z, .c] (effAddr m s) r s t)

/-- ANC, ALR, ARR, SBX (R246 to R249, decision D38). -/
def Obligations.ImmediateUndocumented : Prop :=
  ∀ (code v : Byte) (s : State),
    (∃ t, exec (.anc code v) s = .next t ∧ t.a = s.a &&& v ∧ NZFollow t.a t ∧ t.flags.c = t.flags.n ∧
      Completes .anc .imm 0 [.a] [.n, .z, .c] s t) ∧
    (∃ t, exec (.alr v) s = .next t ∧ t.a.toNat = (s.a &&& v).toNat / 2 ∧
      t.flags.c = decide ((s.a &&& v).toNat % 2 = 1) ∧ t.flags.n = false ∧ NZFollow t.a t ∧
      Completes .alr .imm 0 [.a] [.n, .z, .c] s t) ∧
    (∃ t, exec (.arr v) s = .next t ∧ t.a.toNat = (s.a &&& v).toNat / 2 + 128 * s.flags.c.toNat ∧
      NZFollow t.a t ∧ t.flags.c = decide (64 ≤ t.a.toNat % 128) ∧
      t.flags.v = decide (¬ (64 ≤ t.a.toNat % 128 ↔ 32 ≤ t.a.toNat % 64)) ∧
      Completes .arr .imm 0 [.a] [.n, .v, .z, .c] s t) ∧
    (∃ t, exec (.sbx v) s = .next t ∧ t.x.toNat = ((s.a &&& s.x).toNat + 256 - v.toNat) % 256 ∧
      t.flags.c = decide (v.toNat ≤ (s.a &&& s.x).toNat) ∧ NZFollow t.x t ∧
      Completes .sbx .imm 0 [.x] [.n, .z, .c] s t)

/-! ### Memory (20_memory.md) -/

/-- `MemWrite` (R45): the two select addresses switch the bank and store nothing; every other address, `SW_RDBANK` and
the BIOS window among them, is stored and marks the scanline it belongs to, by the numbers of R48 and R49; nothing else
changes, PC and the clock included. -/
def Obligations.WritesStoreOrSwitch : Prop :=
  ∀ (a : Addr) (v : Byte) (s : State), Wrote a v s (memWrite a v s) ∧ Frame [] [] [a] s (memWrite a v s) ∧
    (memWrite a v s).pc = s.pc ∧ (memWrite a v s).cycles = s.cycles

/-- `MemRead` (R44, R46) and a read after a write (R57): the stored byte, and at `SW_RDBANK` the bank status, whatever
is stored there; after a write, the byte written at its own address, every other address as before, at the select
addresses the byte that was there, at `SW_RDBANK` the status of the bank selected by then. -/
def Obligations.ReadAfterWrite : Prop :=
  ∀ (a b : Addr) (v : Byte) (s : State),
    (b ≠ cfg.swRdBank → memRead s b = cell s b) ∧
    (memRead s cfg.swRdBank = if s.bankSel = .bank0 then 0x00#8 else cfg.bank1ReadValue) ∧
    (b ≠ cfg.swRdBank → memRead (memWrite a v s) b = if b = a ∧ ¬ IsSelect a then v else memRead s b) ∧
    memRead (memWrite a v s) cfg.swRdBank =
      (if a = cfg.swBank0 then 0x00#8 else if a = cfg.swBank1 then cfg.bank1ReadValue else memRead s cfg.swRdBank)

/-- Memories in canonical form that read alike are the same memory, so equal memories are equal data (R20; the form is
log entry 10). -/
def Obligations.CanonicalMemoriesAreEqual : Prop :=
  ∀ m n : Memory, Memory.wf m → Memory.wf n → (∀ a : Nat, Memory.get m a = Memory.get n a) → m = n

/-- Every step keeps the memory canonical: addresses rising, inside 0..0xFFFF, none listed that reads as unlisted
(R40; log entry 10). -/
def Obligations.StepKeepsMemoryCanonical : Prop :=
  ∀ s t : State, Invariant s → step s = .next t → Invariant t

/-- The reset machine has the invariant (R32; log entry 10). -/
def Obligations.ResetIsCanonical : Prop := Invariant State.reset

/-- Every host operation that is not refused keeps the invariant (R357; log entry 10). -/
def Obligations.HostOperationsKeepMemoryCanonical : Prop :=
  ∀ (op : HostOp) (s t : State), Invariant s → hostOp op s = .next t → Invariant t

/-- No step changes the bytes at the two bank-select addresses: the CPU never stores there (R31, R47). -/
def Obligations.SelectBytesAreNeverStored : Prop :=
  ∀ s t : State, step s = .next t → cell t cfg.swBank0 = cell s cfg.swBank0 ∧ cell t cfg.swBank1 = cell s cfg.swBank1

/-- What no step changes (R22, R25, R26, R27, R309): the framebuffer, its ready flag, the running flag and the IRQ level
are the host's and the decoder's; the NMI latch is only cleared, and only by its own service; a step never clears a
dirty flag. -/
def Obligations.StepLeavesHostSideAlone : Prop :=
  ∀ s t : State, step s = .next t →
    t.fb = s.fb ∧ t.frameReady = s.frameReady ∧ t.running = s.running ∧ t.irqLine = s.irqLine ∧
    t.nmiPending = false ∧ (∀ i : Fin 384, s.dirty[i] = true → t.dirty[i] = true)

/-- What no program can observe (R25, R31, R356): the cycle clock, the dirty table, the framebuffer, its ready flag and
the running flag influence nothing a step computes. -/
def Obligations.UnobservableStateHasNoInfluence : Prop :=
  ∀ s s' t : State, SameVisible s s' → step s = .next t →
    ∃ t', step s' = .next t' ∧ SameVisible t t' ∧ t'.cycles + s.cycles = t.cycles + s'.cycles

/-- The interleave maps (R49): the formula; each offset of a window belongs to the one scanline the inverse formula
gives, or is a hole. -/
def Obligations.OffsetMapsAreInverse : Prop :=
  (∀ r < 192, lineOffset r = (r &&& 7) * 0x400 + ((r >>> 3) &&& 7) * 0x80 + ((r >>> 6) &&& 7) * 0x28 ∧
    lineOffset r + 40 ≤ 0x2000) ∧
  (∀ r < 192, ∀ k < 40, offsetLine (lineOffset r + k) = some r) ∧
  (∀ o < 0x2000, offsetLine o =
    if 120 ≤ o % 128 then none else some (o / 1024 % 8 + o / 128 % 8 * 8 + o % 128 / 40 * 64))

/-! ### Video (50_video.md) -/

/-- Pixel placement as a closed formula (R305, which the spec derives from R303): the decode pass, which emits scanline
rows byte by byte, gives pixel (y, x) the sample of the byte that covers it; and sample `d` is white exactly when bit `d`
of the byte is set (R302; the two colours and the order of the bits are decision D30, log entry 1). -/
def Obligations.PixelPlacement : Prop :=
  (∀ (s : State) (y : Fin 384) (x : Fin 560) (base : Nat),
    base = (if s.bankSel = .bank0 then cfg.vbank0Base else cfg.vbank1Base).toNat →
    ((decodePass s).fb[y])[x] =
      lut (Memory.get s.mem (base + lineOffset (y.val / 2) + x.val / 2 / 7)) (x.val / 2 % 7)) ∧
  (∀ (v : Byte) (d : Nat), d < 7 → lut v d = if v.getLsbD d then cfg.pixelWhite else cfg.pixelBlack)

/-- Bit 7 of a video byte selects nothing (R306), and neither the other bank, the holes, the rest of memory nor the
dirty table has any effect: two states with one bank selected whose displayed bytes agree in bits 6..0 decode to one
frame. -/
def Obligations.OnlyDisplayedBitsMatter : Prop :=
  ∀ s s' : State, s.bankSel = s'.bankSel →
    (∀ r < 192, ∀ k < 40, Memory.get s.mem (videoIndex s.bankSel r k) &&& 0x7F#8 =
      Memory.get s'.mem (videoIndex s.bankSel r k) &&& 0x7F#8) →
    (decodePass s).fb = (decodePass s').fb

/-- A decode pass sets the ready flag, clears the decoded bank's dirty flags and leaves the other bank's (decision D24),
and touches no register, flag or byte (R303, R307 to R309). -/
def Obligations.DecodePassEffects : Prop :=
  ∀ s : State, (decodePass s).frameReady = true ∧
    (∀ i : Fin 384, (decodePass s).dirty[i] =
      (s.dirty[i] && !decide (bankLine s.bankSel ≤ i.val ∧ i.val < bankLine s.bankSel + 192))) ∧
    SameVisible s (decodePass s) ∧ (decodePass s).cycles = s.cycles ∧ (decodePass s).running = s.running

/-! ### Ticks, reset, images, host operations (R93, R350, R55, R56, R357) -/

/-- A tick (R93): nothing unless running and not faulted; otherwise a whole quantum and one decode pass, which shows the
memory the last step left, with an overshoot of at most 7 cycles; or the fault latched in it, the quantum abandoned
and no pass made. The bounds rest on decisions D6, D25 and D27. -/
def Obligations.TickRunsOneQuantum : Prop :=
  ∀ s : State,
    (s.running = false ∨ s.fault = true → tick s = s) ∧
    (s.running = true → s.fault = false →
      ((tick s).fault = false ∧ (tick s).frameReady = true ∧ s.cycles + cfg.cycleQuantum ≤ (tick s).cycles ∧
        (tick s).cycles ≤ s.cycles + cfg.cycleQuantum + 7 ∧
        (tick s).fb = frame (tick s).mem (tick s).bankSel) ∨
      ((tick s).fault = true ∧ (tick s).frameReady = s.frameReady ∧ (tick s).fb = s.fb ∧
        (tick s).cycles < s.cycles + cfg.cycleQuantum))

/-- `reset()` (R350): registers, flags and every byte of memory zero, SP 0xFF, every scanline dirty, bank 0, clock 0, no
fault, no request, no frame, whatever the state was; and resetting twice is resetting once. The values of the last
kinds are decision D29. -/
def Obligations.ResetRestoresPowerOnState : Prop :=
  ∀ s : State, let t := resetMachine s
    t.a = 0 ∧ t.x = 0 ∧ t.y = 0 ∧ t.sp = 0xFF#8 ∧ t.pc = 0 ∧ (∀ f, flagOf f t = false) ∧
    (∀ a, cell t a = 0) ∧ (∀ i : Fin 384, t.dirty[i] = true) ∧
    t.bankSel = .bank0 ∧ t.cycles = 0 ∧ t.fault = false ∧ t.nmiPending = false ∧ t.irqLine = false ∧
    t.frameReady = false ∧ t.running = s.running ∧ resetMachine t = t

/-- `load_program` (R56): with a header whose length is that of the payload and a payload that fits, the payload lies at
the load address, every other byte stays, PC is the load address and nothing else changes; any other image is refused.
That the copy is direct and that a bad image is refused are decision D31. -/
def Obligations.LoadProgramCopiesPayload : Prop :=
  ∀ (bytes : List Byte) (s : State),
    (∀ (b0 b1 b2 b3 : Byte) (payload : List Byte), bytes = b0 :: b1 :: b2 :: b3 :: payload →
      payload.length = b2.toNat + 256 * b3.toNat → b0.toNat + 256 * b1.toNat + payload.length ≤ 65536 →
      ∃ t, hostOp (.loadProgram bytes) s = .next t ∧ t.pc.toNat = b0.toNat + 256 * b1.toNat ∧
        (∀ k : Fin payload.length, Memory.get t.mem (b0.toNat + 256 * b1.toNat + k.val) = payload[k]) ∧
        (∀ a : Nat, a < b0.toNat + 256 * b1.toNat ∨ b0.toNat + 256 * b1.toNat + payload.length ≤ a →
          Memory.get t.mem a = Memory.get s.mem a) ∧
        t = { s with mem := t.mem, pc := t.pc }) ∧
    (¬ (∃ (b0 b1 b2 b3 : Byte) (payload : List Byte), bytes = b0 :: b1 :: b2 :: b3 :: payload ∧
        payload.length = b2.toNat + 256 * b3.toNat ∧ b0.toNat + 256 * b1.toNat + payload.length ≤ 65536) →
      hostOp (.loadProgram bytes) s = .refused .programImageRefused)

/-- `load_bios` (R55): the image lies at `BIOS_BASE`, every other byte and all other state stay; an image that passes
0xFFFF is refused. `BIOS_BASE` is OPEN, so this holds whatever it is. -/
def Obligations.LoadBiosCopiesImage : Prop :=
  ∀ (bytes : List Byte) (s : State),
    (Config.biosBase.toNat + bytes.length ≤ 65536 →
      ∃ t, hostOp (.loadBios bytes) s = .next t ∧
        (∀ k : Fin bytes.length, Memory.get t.mem (Config.biosBase.toNat + k.val) = bytes[k]) ∧
        (∀ a : Nat, a < Config.biosBase.toNat ∨ Config.biosBase.toNat + bytes.length ≤ a →
          Memory.get t.mem a = Memory.get s.mem a) ∧
        t = { s with mem := t.mem }) ∧
    (65536 < Config.biosBase.toNat + bytes.length → hostOp (.loadBios bytes) s = .refused .biosImageRefused)
end

