-- ==== Sys2Proof/Laws/State.lean ====
section
/-! SUPPORT. One lemma per field per named update of the state: what the update leaves alone, and what it writes. -/

namespace Sys2Proof.Machine

/-! ### `setC`: only the flags -/

@[simp] theorem setC_a (c : Bool) (s : State) : (setC c s).a = s.a := rfl
@[simp] theorem setC_x (c : Bool) (s : State) : (setC c s).x = s.x := rfl
@[simp] theorem setC_y (c : Bool) (s : State) : (setC c s).y = s.y := rfl
@[simp] theorem setC_sp (c : Bool) (s : State) : (setC c s).sp = s.sp := rfl
@[simp] theorem setC_pc (c : Bool) (s : State) : (setC c s).pc = s.pc := rfl
@[simp] theorem setC_cycles (c : Bool) (s : State) : (setC c s).cycles = s.cycles := rfl
@[simp] theorem setC_fault (c : Bool) (s : State) : (setC c s).fault = s.fault := rfl
@[simp] theorem setC_faultByte (c : Bool) (s : State) : (setC c s).faultByte = s.faultByte := rfl
@[simp] theorem setC_mem (c : Bool) (s : State) : (setC c s).mem = s.mem := rfl
@[simp] theorem setC_bankSel (c : Bool) (s : State) : (setC c s).bankSel = s.bankSel := rfl
@[simp] theorem setC_dirty (c : Bool) (s : State) : (setC c s).dirty = s.dirty := rfl
@[simp] theorem setC_fb (c : Bool) (s : State) : (setC c s).fb = s.fb := rfl
@[simp] theorem setC_frameReady (c : Bool) (s : State) : (setC c s).frameReady = s.frameReady := rfl
@[simp] theorem setC_running (c : Bool) (s : State) : (setC c s).running = s.running := rfl
@[simp] theorem setC_nmiPending (c : Bool) (s : State) : (setC c s).nmiPending = s.nmiPending := rfl
@[simp] theorem setC_irqLine (c : Bool) (s : State) : (setC c s).irqLine = s.irqLine := rfl

/-! ### `setV`: only the flags -/

@[simp] theorem setV_a (v : Bool) (s : State) : (setV v s).a = s.a := rfl
@[simp] theorem setV_x (v : Bool) (s : State) : (setV v s).x = s.x := rfl
@[simp] theorem setV_y (v : Bool) (s : State) : (setV v s).y = s.y := rfl
@[simp] theorem setV_sp (v : Bool) (s : State) : (setV v s).sp = s.sp := rfl
@[simp] theorem setV_pc (v : Bool) (s : State) : (setV v s).pc = s.pc := rfl
@[simp] theorem setV_cycles (v : Bool) (s : State) : (setV v s).cycles = s.cycles := rfl
@[simp] theorem setV_fault (v : Bool) (s : State) : (setV v s).fault = s.fault := rfl
@[simp] theorem setV_faultByte (v : Bool) (s : State) : (setV v s).faultByte = s.faultByte := rfl
@[simp] theorem setV_mem (v : Bool) (s : State) : (setV v s).mem = s.mem := rfl
@[simp] theorem setV_bankSel (v : Bool) (s : State) : (setV v s).bankSel = s.bankSel := rfl
@[simp] theorem setV_dirty (v : Bool) (s : State) : (setV v s).dirty = s.dirty := rfl
@[simp] theorem setV_fb (v : Bool) (s : State) : (setV v s).fb = s.fb := rfl
@[simp] theorem setV_frameReady (v : Bool) (s : State) : (setV v s).frameReady = s.frameReady := rfl
@[simp] theorem setV_running (v : Bool) (s : State) : (setV v s).running = s.running := rfl
@[simp] theorem setV_nmiPending (v : Bool) (s : State) : (setV v s).nmiPending = s.nmiPending := rfl
@[simp] theorem setV_irqLine (v : Bool) (s : State) : (setV v s).irqLine = s.irqLine := rfl

/-! ### `setI`: only the flags -/

@[simp] theorem setI_a (i : Bool) (s : State) : (setI i s).a = s.a := rfl
@[simp] theorem setI_x (i : Bool) (s : State) : (setI i s).x = s.x := rfl
@[simp] theorem setI_y (i : Bool) (s : State) : (setI i s).y = s.y := rfl
@[simp] theorem setI_sp (i : Bool) (s : State) : (setI i s).sp = s.sp := rfl
@[simp] theorem setI_pc (i : Bool) (s : State) : (setI i s).pc = s.pc := rfl
@[simp] theorem setI_cycles (i : Bool) (s : State) : (setI i s).cycles = s.cycles := rfl
@[simp] theorem setI_fault (i : Bool) (s : State) : (setI i s).fault = s.fault := rfl
@[simp] theorem setI_faultByte (i : Bool) (s : State) : (setI i s).faultByte = s.faultByte := rfl
@[simp] theorem setI_mem (i : Bool) (s : State) : (setI i s).mem = s.mem := rfl
@[simp] theorem setI_bankSel (i : Bool) (s : State) : (setI i s).bankSel = s.bankSel := rfl
@[simp] theorem setI_dirty (i : Bool) (s : State) : (setI i s).dirty = s.dirty := rfl
@[simp] theorem setI_fb (i : Bool) (s : State) : (setI i s).fb = s.fb := rfl
@[simp] theorem setI_frameReady (i : Bool) (s : State) : (setI i s).frameReady = s.frameReady := rfl
@[simp] theorem setI_running (i : Bool) (s : State) : (setI i s).running = s.running := rfl
@[simp] theorem setI_nmiPending (i : Bool) (s : State) : (setI i s).nmiPending = s.nmiPending := rfl
@[simp] theorem setI_irqLine (i : Bool) (s : State) : (setI i s).irqLine = s.irqLine := rfl

/-! ### `setD`: only the flags -/

@[simp] theorem setD_a (d : Bool) (s : State) : (setD d s).a = s.a := rfl
@[simp] theorem setD_x (d : Bool) (s : State) : (setD d s).x = s.x := rfl
@[simp] theorem setD_y (d : Bool) (s : State) : (setD d s).y = s.y := rfl
@[simp] theorem setD_sp (d : Bool) (s : State) : (setD d s).sp = s.sp := rfl
@[simp] theorem setD_pc (d : Bool) (s : State) : (setD d s).pc = s.pc := rfl
@[simp] theorem setD_cycles (d : Bool) (s : State) : (setD d s).cycles = s.cycles := rfl
@[simp] theorem setD_fault (d : Bool) (s : State) : (setD d s).fault = s.fault := rfl
@[simp] theorem setD_faultByte (d : Bool) (s : State) : (setD d s).faultByte = s.faultByte := rfl
@[simp] theorem setD_mem (d : Bool) (s : State) : (setD d s).mem = s.mem := rfl
@[simp] theorem setD_bankSel (d : Bool) (s : State) : (setD d s).bankSel = s.bankSel := rfl
@[simp] theorem setD_dirty (d : Bool) (s : State) : (setD d s).dirty = s.dirty := rfl
@[simp] theorem setD_fb (d : Bool) (s : State) : (setD d s).fb = s.fb := rfl
@[simp] theorem setD_frameReady (d : Bool) (s : State) : (setD d s).frameReady = s.frameReady := rfl
@[simp] theorem setD_running (d : Bool) (s : State) : (setD d s).running = s.running := rfl
@[simp] theorem setD_nmiPending (d : Bool) (s : State) : (setD d s).nmiPending = s.nmiPending := rfl
@[simp] theorem setD_irqLine (d : Bool) (s : State) : (setD d s).irqLine = s.irqLine := rfl

/-! ### `setNZ`: only the flags -/

@[simp] theorem setNZ_a (r : Byte) (s : State) : (setNZ r s).a = s.a := rfl
@[simp] theorem setNZ_x (r : Byte) (s : State) : (setNZ r s).x = s.x := rfl
@[simp] theorem setNZ_y (r : Byte) (s : State) : (setNZ r s).y = s.y := rfl
@[simp] theorem setNZ_sp (r : Byte) (s : State) : (setNZ r s).sp = s.sp := rfl
@[simp] theorem setNZ_pc (r : Byte) (s : State) : (setNZ r s).pc = s.pc := rfl
@[simp] theorem setNZ_cycles (r : Byte) (s : State) : (setNZ r s).cycles = s.cycles := rfl
@[simp] theorem setNZ_fault (r : Byte) (s : State) : (setNZ r s).fault = s.fault := rfl
@[simp] theorem setNZ_faultByte (r : Byte) (s : State) : (setNZ r s).faultByte = s.faultByte := rfl
@[simp] theorem setNZ_mem (r : Byte) (s : State) : (setNZ r s).mem = s.mem := rfl
@[simp] theorem setNZ_bankSel (r : Byte) (s : State) : (setNZ r s).bankSel = s.bankSel := rfl
@[simp] theorem setNZ_dirty (r : Byte) (s : State) : (setNZ r s).dirty = s.dirty := rfl
@[simp] theorem setNZ_fb (r : Byte) (s : State) : (setNZ r s).fb = s.fb := rfl
@[simp] theorem setNZ_frameReady (r : Byte) (s : State) : (setNZ r s).frameReady = s.frameReady := rfl
@[simp] theorem setNZ_running (r : Byte) (s : State) : (setNZ r s).running = s.running := rfl
@[simp] theorem setNZ_nmiPending (r : Byte) (s : State) : (setNZ r s).nmiPending = s.nmiPending := rfl
@[simp] theorem setNZ_irqLine (r : Byte) (s : State) : (setNZ r s).irqLine = s.irqLine := rfl

/-! ### `compare`: only the flags -/

@[simp] theorem compare_a (reg : Byte) (m : Byte) (s : State) : (compare reg m s).a = s.a := rfl
@[simp] theorem compare_x (reg : Byte) (m : Byte) (s : State) : (compare reg m s).x = s.x := rfl
@[simp] theorem compare_y (reg : Byte) (m : Byte) (s : State) : (compare reg m s).y = s.y := rfl
@[simp] theorem compare_sp (reg : Byte) (m : Byte) (s : State) : (compare reg m s).sp = s.sp := rfl
@[simp] theorem compare_pc (reg : Byte) (m : Byte) (s : State) : (compare reg m s).pc = s.pc := rfl
@[simp] theorem compare_cycles (reg : Byte) (m : Byte) (s : State) : (compare reg m s).cycles = s.cycles := rfl
@[simp] theorem compare_fault (reg : Byte) (m : Byte) (s : State) : (compare reg m s).fault = s.fault := rfl
@[simp] theorem compare_faultByte (reg : Byte) (m : Byte) (s : State) : (compare reg m s).faultByte = s.faultByte := rfl
@[simp] theorem compare_mem (reg : Byte) (m : Byte) (s : State) : (compare reg m s).mem = s.mem := rfl
@[simp] theorem compare_bankSel (reg : Byte) (m : Byte) (s : State) : (compare reg m s).bankSel = s.bankSel := rfl
@[simp] theorem compare_dirty (reg : Byte) (m : Byte) (s : State) : (compare reg m s).dirty = s.dirty := rfl
@[simp] theorem compare_fb (reg : Byte) (m : Byte) (s : State) : (compare reg m s).fb = s.fb := rfl
@[simp] theorem compare_frameReady (reg : Byte) (m : Byte) (s : State) : (compare reg m s).frameReady = s.frameReady := rfl
@[simp] theorem compare_running (reg : Byte) (m : Byte) (s : State) : (compare reg m s).running = s.running := rfl
@[simp] theorem compare_nmiPending (reg : Byte) (m : Byte) (s : State) : (compare reg m s).nmiPending = s.nmiPending := rfl
@[simp] theorem compare_irqLine (reg : Byte) (m : Byte) (s : State) : (compare reg m s).irqLine = s.irqLine := rfl

theorem setC_flags (c : Bool) (s : State) : (setC c s).flags = { s.flags with c := c } := rfl
theorem setV_flags (v : Bool) (s : State) : (setV v s).flags = { s.flags with v := v } := rfl
theorem setI_flags (i : Bool) (s : State) : (setI i s).flags = { s.flags with i := i } := rfl
theorem setD_flags (d : Bool) (s : State) : (setD d s).flags = { s.flags with d := d } := rfl
theorem setNZ_flags (r : Byte) (s : State) :
    (setNZ r s).flags = { s.flags with z := decide (r = 0), n := r.getLsbD 7 } := rfl

@[simp] theorem setC_flags_n (c : Bool) (s : State) : (setC c s).flags.n = s.flags.n := rfl
@[simp] theorem setV_flags_n (v : Bool) (s : State) : (setV v s).flags.n = s.flags.n := rfl
@[simp] theorem setI_flags_n (i : Bool) (s : State) : (setI i s).flags.n = s.flags.n := rfl
@[simp] theorem setD_flags_n (d : Bool) (s : State) : (setD d s).flags.n = s.flags.n := rfl
@[simp] theorem setNZ_flags_n (r : Byte) (s : State) : (setNZ r s).flags.n = r.getLsbD 7 := rfl
@[simp] theorem setC_flags_v (c : Bool) (s : State) : (setC c s).flags.v = s.flags.v := rfl
@[simp] theorem setV_flags_v (v : Bool) (s : State) : (setV v s).flags.v = v := rfl
@[simp] theorem setI_flags_v (i : Bool) (s : State) : (setI i s).flags.v = s.flags.v := rfl
@[simp] theorem setD_flags_v (d : Bool) (s : State) : (setD d s).flags.v = s.flags.v := rfl
@[simp] theorem setNZ_flags_v (r : Byte) (s : State) : (setNZ r s).flags.v = s.flags.v := rfl
@[simp] theorem setC_flags_d (c : Bool) (s : State) : (setC c s).flags.d = s.flags.d := rfl
@[simp] theorem setV_flags_d (v : Bool) (s : State) : (setV v s).flags.d = s.flags.d := rfl
@[simp] theorem setI_flags_d (i : Bool) (s : State) : (setI i s).flags.d = s.flags.d := rfl
@[simp] theorem setD_flags_d (d : Bool) (s : State) : (setD d s).flags.d = d := rfl
@[simp] theorem setNZ_flags_d (r : Byte) (s : State) : (setNZ r s).flags.d = s.flags.d := rfl
@[simp] theorem setC_flags_i (c : Bool) (s : State) : (setC c s).flags.i = s.flags.i := rfl
@[simp] theorem setV_flags_i (v : Bool) (s : State) : (setV v s).flags.i = s.flags.i := rfl
@[simp] theorem setI_flags_i (i : Bool) (s : State) : (setI i s).flags.i = i := rfl
@[simp] theorem setD_flags_i (d : Bool) (s : State) : (setD d s).flags.i = s.flags.i := rfl
@[simp] theorem setNZ_flags_i (r : Byte) (s : State) : (setNZ r s).flags.i = s.flags.i := rfl
@[simp] theorem setC_flags_z (c : Bool) (s : State) : (setC c s).flags.z = s.flags.z := rfl
@[simp] theorem setV_flags_z (v : Bool) (s : State) : (setV v s).flags.z = s.flags.z := rfl
@[simp] theorem setI_flags_z (i : Bool) (s : State) : (setI i s).flags.z = s.flags.z := rfl
@[simp] theorem setD_flags_z (d : Bool) (s : State) : (setD d s).flags.z = s.flags.z := rfl
@[simp] theorem setNZ_flags_z (r : Byte) (s : State) : (setNZ r s).flags.z = decide (r = 0) := rfl
@[simp] theorem setC_flags_c (c : Bool) (s : State) : (setC c s).flags.c = c := rfl
@[simp] theorem setV_flags_c (v : Bool) (s : State) : (setV v s).flags.c = s.flags.c := rfl
@[simp] theorem setI_flags_c (i : Bool) (s : State) : (setI i s).flags.c = s.flags.c := rfl
@[simp] theorem setD_flags_c (d : Bool) (s : State) : (setD d s).flags.c = s.flags.c := rfl
@[simp] theorem setNZ_flags_c (r : Byte) (s : State) : (setNZ r s).flags.c = s.flags.c := rfl

/-! ### `addCore`: A and the flags -/

@[simp] theorem addCore_x (m : Byte) (s : State) : (addCore m s).x = s.x := rfl
@[simp] theorem addCore_y (m : Byte) (s : State) : (addCore m s).y = s.y := rfl
@[simp] theorem addCore_sp (m : Byte) (s : State) : (addCore m s).sp = s.sp := rfl
@[simp] theorem addCore_pc (m : Byte) (s : State) : (addCore m s).pc = s.pc := rfl
@[simp] theorem addCore_cycles (m : Byte) (s : State) : (addCore m s).cycles = s.cycles := rfl
@[simp] theorem addCore_fault (m : Byte) (s : State) : (addCore m s).fault = s.fault := rfl
@[simp] theorem addCore_faultByte (m : Byte) (s : State) : (addCore m s).faultByte = s.faultByte := rfl
@[simp] theorem addCore_mem (m : Byte) (s : State) : (addCore m s).mem = s.mem := rfl
@[simp] theorem addCore_bankSel (m : Byte) (s : State) : (addCore m s).bankSel = s.bankSel := rfl
@[simp] theorem addCore_dirty (m : Byte) (s : State) : (addCore m s).dirty = s.dirty := rfl
@[simp] theorem addCore_fb (m : Byte) (s : State) : (addCore m s).fb = s.fb := rfl
@[simp] theorem addCore_frameReady (m : Byte) (s : State) : (addCore m s).frameReady = s.frameReady := rfl
@[simp] theorem addCore_running (m : Byte) (s : State) : (addCore m s).running = s.running := rfl
@[simp] theorem addCore_nmiPending (m : Byte) (s : State) : (addCore m s).nmiPending = s.nmiPending := rfl
@[simp] theorem addCore_irqLine (m : Byte) (s : State) : (addCore m s).irqLine = s.irqLine := rfl

/-! ### `setAccNZ`: A, N and Z -/

@[simp] theorem setAccNZ_x (r : Byte) (s : State) : (setAccNZ r s).x = s.x := rfl
@[simp] theorem setAccNZ_y (r : Byte) (s : State) : (setAccNZ r s).y = s.y := rfl
@[simp] theorem setAccNZ_sp (r : Byte) (s : State) : (setAccNZ r s).sp = s.sp := rfl
@[simp] theorem setAccNZ_pc (r : Byte) (s : State) : (setAccNZ r s).pc = s.pc := rfl
@[simp] theorem setAccNZ_cycles (r : Byte) (s : State) : (setAccNZ r s).cycles = s.cycles := rfl
@[simp] theorem setAccNZ_fault (r : Byte) (s : State) : (setAccNZ r s).fault = s.fault := rfl
@[simp] theorem setAccNZ_faultByte (r : Byte) (s : State) : (setAccNZ r s).faultByte = s.faultByte := rfl
@[simp] theorem setAccNZ_mem (r : Byte) (s : State) : (setAccNZ r s).mem = s.mem := rfl
@[simp] theorem setAccNZ_bankSel (r : Byte) (s : State) : (setAccNZ r s).bankSel = s.bankSel := rfl
@[simp] theorem setAccNZ_dirty (r : Byte) (s : State) : (setAccNZ r s).dirty = s.dirty := rfl
@[simp] theorem setAccNZ_fb (r : Byte) (s : State) : (setAccNZ r s).fb = s.fb := rfl
@[simp] theorem setAccNZ_frameReady (r : Byte) (s : State) : (setAccNZ r s).frameReady = s.frameReady := rfl
@[simp] theorem setAccNZ_running (r : Byte) (s : State) : (setAccNZ r s).running = s.running := rfl
@[simp] theorem setAccNZ_nmiPending (r : Byte) (s : State) : (setAccNZ r s).nmiPending = s.nmiPending := rfl
@[simp] theorem setAccNZ_irqLine (r : Byte) (s : State) : (setAccNZ r s).irqLine = s.irqLine := rfl

@[simp] theorem setAccNZ_a (r : Byte) (s : State) : (setAccNZ r s).a = r := rfl
@[simp] theorem setAccNZ_flags (r : Byte) (s : State) : (setAccNZ r s).flags = (setNZ r s).flags := rfl

/-! ### `markDirtyIn`: only the dirty table -/

@[simp] theorem markDirtyIn_a (b : Bank) (p : Addr) (s : State) : (markDirtyIn b p s).a = s.a := by unfold markDirtyIn; split <;> rfl
@[simp] theorem markDirtyIn_x (b : Bank) (p : Addr) (s : State) : (markDirtyIn b p s).x = s.x := by unfold markDirtyIn; split <;> rfl
@[simp] theorem markDirtyIn_y (b : Bank) (p : Addr) (s : State) : (markDirtyIn b p s).y = s.y := by unfold markDirtyIn; split <;> rfl
@[simp] theorem markDirtyIn_sp (b : Bank) (p : Addr) (s : State) : (markDirtyIn b p s).sp = s.sp := by unfold markDirtyIn; split <;> rfl
@[simp] theorem markDirtyIn_pc (b : Bank) (p : Addr) (s : State) : (markDirtyIn b p s).pc = s.pc := by unfold markDirtyIn; split <;> rfl
@[simp] theorem markDirtyIn_flags (b : Bank) (p : Addr) (s : State) : (markDirtyIn b p s).flags = s.flags := by unfold markDirtyIn; split <;> rfl
@[simp] theorem markDirtyIn_cycles (b : Bank) (p : Addr) (s : State) : (markDirtyIn b p s).cycles = s.cycles := by unfold markDirtyIn; split <;> rfl
@[simp] theorem markDirtyIn_fault (b : Bank) (p : Addr) (s : State) : (markDirtyIn b p s).fault = s.fault := by unfold markDirtyIn; split <;> rfl
@[simp] theorem markDirtyIn_faultByte (b : Bank) (p : Addr) (s : State) : (markDirtyIn b p s).faultByte = s.faultByte := by unfold markDirtyIn; split <;> rfl
@[simp] theorem markDirtyIn_mem (b : Bank) (p : Addr) (s : State) : (markDirtyIn b p s).mem = s.mem := by unfold markDirtyIn; split <;> rfl
@[simp] theorem markDirtyIn_bankSel (b : Bank) (p : Addr) (s : State) : (markDirtyIn b p s).bankSel = s.bankSel := by unfold markDirtyIn; split <;> rfl
@[simp] theorem markDirtyIn_fb (b : Bank) (p : Addr) (s : State) : (markDirtyIn b p s).fb = s.fb := by unfold markDirtyIn; split <;> rfl
@[simp] theorem markDirtyIn_frameReady (b : Bank) (p : Addr) (s : State) : (markDirtyIn b p s).frameReady = s.frameReady := by unfold markDirtyIn; split <;> rfl
@[simp] theorem markDirtyIn_running (b : Bank) (p : Addr) (s : State) : (markDirtyIn b p s).running = s.running := by unfold markDirtyIn; split <;> rfl
@[simp] theorem markDirtyIn_nmiPending (b : Bank) (p : Addr) (s : State) : (markDirtyIn b p s).nmiPending = s.nmiPending := by unfold markDirtyIn; split <;> rfl
@[simp] theorem markDirtyIn_irqLine (b : Bank) (p : Addr) (s : State) : (markDirtyIn b p s).irqLine = s.irqLine := by unfold markDirtyIn; split <;> rfl

/-! ### `markDirty`: only the dirty table -/

@[simp] theorem markDirty_a (p : Addr) (s : State) : (markDirty p s).a = s.a := by simp [markDirty]
@[simp] theorem markDirty_x (p : Addr) (s : State) : (markDirty p s).x = s.x := by simp [markDirty]
@[simp] theorem markDirty_y (p : Addr) (s : State) : (markDirty p s).y = s.y := by simp [markDirty]
@[simp] theorem markDirty_sp (p : Addr) (s : State) : (markDirty p s).sp = s.sp := by simp [markDirty]
@[simp] theorem markDirty_pc (p : Addr) (s : State) : (markDirty p s).pc = s.pc := by simp [markDirty]
@[simp] theorem markDirty_flags (p : Addr) (s : State) : (markDirty p s).flags = s.flags := by simp [markDirty]
@[simp] theorem markDirty_cycles (p : Addr) (s : State) : (markDirty p s).cycles = s.cycles := by simp [markDirty]
@[simp] theorem markDirty_fault (p : Addr) (s : State) : (markDirty p s).fault = s.fault := by simp [markDirty]
@[simp] theorem markDirty_faultByte (p : Addr) (s : State) : (markDirty p s).faultByte = s.faultByte := by simp [markDirty]
@[simp] theorem markDirty_mem (p : Addr) (s : State) : (markDirty p s).mem = s.mem := by simp [markDirty]
@[simp] theorem markDirty_bankSel (p : Addr) (s : State) : (markDirty p s).bankSel = s.bankSel := by simp [markDirty]
@[simp] theorem markDirty_fb (p : Addr) (s : State) : (markDirty p s).fb = s.fb := by simp [markDirty]
@[simp] theorem markDirty_frameReady (p : Addr) (s : State) : (markDirty p s).frameReady = s.frameReady := by simp [markDirty]
@[simp] theorem markDirty_running (p : Addr) (s : State) : (markDirty p s).running = s.running := by simp [markDirty]
@[simp] theorem markDirty_nmiPending (p : Addr) (s : State) : (markDirty p s).nmiPending = s.nmiPending := by simp [markDirty]
@[simp] theorem markDirty_irqLine (p : Addr) (s : State) : (markDirty p s).irqLine = s.irqLine := by simp [markDirty]

/-! ### `memWrite`: memory, the bank select, the dirty table -/

@[simp] theorem memWrite_a (p : Addr) (v : Byte) (s : State) : (memWrite p v s).a = s.a := by unfold memWrite; split_ifs <;> simp
@[simp] theorem memWrite_x (p : Addr) (v : Byte) (s : State) : (memWrite p v s).x = s.x := by unfold memWrite; split_ifs <;> simp
@[simp] theorem memWrite_y (p : Addr) (v : Byte) (s : State) : (memWrite p v s).y = s.y := by unfold memWrite; split_ifs <;> simp
@[simp] theorem memWrite_sp (p : Addr) (v : Byte) (s : State) : (memWrite p v s).sp = s.sp := by unfold memWrite; split_ifs <;> simp
@[simp] theorem memWrite_pc (p : Addr) (v : Byte) (s : State) : (memWrite p v s).pc = s.pc := by unfold memWrite; split_ifs <;> simp
@[simp] theorem memWrite_flags (p : Addr) (v : Byte) (s : State) : (memWrite p v s).flags = s.flags := by unfold memWrite; split_ifs <;> simp
@[simp] theorem memWrite_cycles (p : Addr) (v : Byte) (s : State) : (memWrite p v s).cycles = s.cycles := by unfold memWrite; split_ifs <;> simp
@[simp] theorem memWrite_fault (p : Addr) (v : Byte) (s : State) : (memWrite p v s).fault = s.fault := by unfold memWrite; split_ifs <;> simp
@[simp] theorem memWrite_faultByte (p : Addr) (v : Byte) (s : State) : (memWrite p v s).faultByte = s.faultByte := by unfold memWrite; split_ifs <;> simp
@[simp] theorem memWrite_fb (p : Addr) (v : Byte) (s : State) : (memWrite p v s).fb = s.fb := by unfold memWrite; split_ifs <;> simp
@[simp] theorem memWrite_frameReady (p : Addr) (v : Byte) (s : State) : (memWrite p v s).frameReady = s.frameReady := by unfold memWrite; split_ifs <;> simp
@[simp] theorem memWrite_running (p : Addr) (v : Byte) (s : State) : (memWrite p v s).running = s.running := by unfold memWrite; split_ifs <;> simp
@[simp] theorem memWrite_nmiPending (p : Addr) (v : Byte) (s : State) : (memWrite p v s).nmiPending = s.nmiPending := by unfold memWrite; split_ifs <;> simp
@[simp] theorem memWrite_irqLine (p : Addr) (v : Byte) (s : State) : (memWrite p v s).irqLine = s.irqLine := by unfold memWrite; split_ifs <;> simp

/-! ### `push`: SP and what `memWrite` writes -/

@[simp] theorem push_a (v : Byte) (s : State) : (push v s).a = s.a := by simp [push]
@[simp] theorem push_x (v : Byte) (s : State) : (push v s).x = s.x := by simp [push]
@[simp] theorem push_y (v : Byte) (s : State) : (push v s).y = s.y := by simp [push]
@[simp] theorem push_pc (v : Byte) (s : State) : (push v s).pc = s.pc := by simp [push]
@[simp] theorem push_flags (v : Byte) (s : State) : (push v s).flags = s.flags := by simp [push]
@[simp] theorem push_cycles (v : Byte) (s : State) : (push v s).cycles = s.cycles := by simp [push]
@[simp] theorem push_fault (v : Byte) (s : State) : (push v s).fault = s.fault := by simp [push]
@[simp] theorem push_faultByte (v : Byte) (s : State) : (push v s).faultByte = s.faultByte := by simp [push]
@[simp] theorem push_fb (v : Byte) (s : State) : (push v s).fb = s.fb := by simp [push]
@[simp] theorem push_frameReady (v : Byte) (s : State) : (push v s).frameReady = s.frameReady := by simp [push]
@[simp] theorem push_running (v : Byte) (s : State) : (push v s).running = s.running := by simp [push]
@[simp] theorem push_nmiPending (v : Byte) (s : State) : (push v s).nmiPending = s.nmiPending := by simp [push]
@[simp] theorem push_irqLine (v : Byte) (s : State) : (push v s).irqLine = s.irqLine := by simp [push]

@[simp] theorem push_sp (v : Byte) (s : State) : (push v s).sp = s.sp - 1 := rfl
@[simp] theorem push_mem (v : Byte) (s : State) : (push v s).mem = (memWrite (stackAddr s.sp) v s).mem := rfl
@[simp] theorem push_bankSel (v : Byte) (s : State) :
    (push v s).bankSel = (memWrite (stackAddr s.sp) v s).bankSel := rfl
@[simp] theorem push_dirty (v : Byte) (s : State) : (push v s).dirty = (memWrite (stackAddr s.sp) v s).dirty := rfl

/-! ### `pushWord`: two pushes -/

@[simp] theorem pushWord_a (w : Addr) (s : State) : (pushWord w s).a = s.a := by simp [pushWord]
@[simp] theorem pushWord_x (w : Addr) (s : State) : (pushWord w s).x = s.x := by simp [pushWord]
@[simp] theorem pushWord_y (w : Addr) (s : State) : (pushWord w s).y = s.y := by simp [pushWord]
@[simp] theorem pushWord_pc (w : Addr) (s : State) : (pushWord w s).pc = s.pc := by simp [pushWord]
@[simp] theorem pushWord_flags (w : Addr) (s : State) : (pushWord w s).flags = s.flags := by simp [pushWord]
@[simp] theorem pushWord_cycles (w : Addr) (s : State) : (pushWord w s).cycles = s.cycles := by simp [pushWord]
@[simp] theorem pushWord_fault (w : Addr) (s : State) : (pushWord w s).fault = s.fault := by simp [pushWord]
@[simp] theorem pushWord_faultByte (w : Addr) (s : State) : (pushWord w s).faultByte = s.faultByte := by simp [pushWord]
@[simp] theorem pushWord_fb (w : Addr) (s : State) : (pushWord w s).fb = s.fb := by simp [pushWord]
@[simp] theorem pushWord_frameReady (w : Addr) (s : State) : (pushWord w s).frameReady = s.frameReady := by simp [pushWord]
@[simp] theorem pushWord_running (w : Addr) (s : State) : (pushWord w s).running = s.running := by simp [pushWord]
@[simp] theorem pushWord_nmiPending (w : Addr) (s : State) : (pushWord w s).nmiPending = s.nmiPending := by simp [pushWord]
@[simp] theorem pushWord_irqLine (w : Addr) (s : State) : (pushWord w s).irqLine = s.irqLine := by simp [pushWord]

/-! ### `pull`: only SP -/

@[simp] theorem pull_a (s : State) : (pull s).a = s.a := rfl
@[simp] theorem pull_x (s : State) : (pull s).x = s.x := rfl
@[simp] theorem pull_y (s : State) : (pull s).y = s.y := rfl
@[simp] theorem pull_pc (s : State) : (pull s).pc = s.pc := rfl
@[simp] theorem pull_flags (s : State) : (pull s).flags = s.flags := rfl
@[simp] theorem pull_cycles (s : State) : (pull s).cycles = s.cycles := rfl
@[simp] theorem pull_fault (s : State) : (pull s).fault = s.fault := rfl
@[simp] theorem pull_faultByte (s : State) : (pull s).faultByte = s.faultByte := rfl
@[simp] theorem pull_mem (s : State) : (pull s).mem = s.mem := rfl
@[simp] theorem pull_bankSel (s : State) : (pull s).bankSel = s.bankSel := rfl
@[simp] theorem pull_dirty (s : State) : (pull s).dirty = s.dirty := rfl
@[simp] theorem pull_fb (s : State) : (pull s).fb = s.fb := rfl
@[simp] theorem pull_frameReady (s : State) : (pull s).frameReady = s.frameReady := rfl
@[simp] theorem pull_running (s : State) : (pull s).running = s.running := rfl
@[simp] theorem pull_nmiPending (s : State) : (pull s).nmiPending = s.nmiPending := rfl
@[simp] theorem pull_irqLine (s : State) : (pull s).irqLine = s.irqLine := rfl

@[simp] theorem pull_sp (s : State) : (pull s).sp = s.sp + 1 := rfl

/-! ### `enterInterrupt`: SP, PC, I and the pushes -/

@[simp] theorem enterInterrupt_a (vec : Addr) (b : Bool) (skew : Addr) (s : State) : (enterInterrupt vec b skew s).a = s.a := by simp [enterInterrupt]
@[simp] theorem enterInterrupt_x (vec : Addr) (b : Bool) (skew : Addr) (s : State) : (enterInterrupt vec b skew s).x = s.x := by simp [enterInterrupt]
@[simp] theorem enterInterrupt_y (vec : Addr) (b : Bool) (skew : Addr) (s : State) : (enterInterrupt vec b skew s).y = s.y := by simp [enterInterrupt]
@[simp] theorem enterInterrupt_cycles (vec : Addr) (b : Bool) (skew : Addr) (s : State) : (enterInterrupt vec b skew s).cycles = s.cycles := by simp [enterInterrupt]
@[simp] theorem enterInterrupt_fault (vec : Addr) (b : Bool) (skew : Addr) (s : State) : (enterInterrupt vec b skew s).fault = s.fault := by simp [enterInterrupt]
@[simp] theorem enterInterrupt_faultByte (vec : Addr) (b : Bool) (skew : Addr) (s : State) : (enterInterrupt vec b skew s).faultByte = s.faultByte := by simp [enterInterrupt]
@[simp] theorem enterInterrupt_fb (vec : Addr) (b : Bool) (skew : Addr) (s : State) : (enterInterrupt vec b skew s).fb = s.fb := by simp [enterInterrupt]
@[simp] theorem enterInterrupt_frameReady (vec : Addr) (b : Bool) (skew : Addr) (s : State) : (enterInterrupt vec b skew s).frameReady = s.frameReady := by simp [enterInterrupt]
@[simp] theorem enterInterrupt_running (vec : Addr) (b : Bool) (skew : Addr) (s : State) : (enterInterrupt vec b skew s).running = s.running := by simp [enterInterrupt]
@[simp] theorem enterInterrupt_nmiPending (vec : Addr) (b : Bool) (skew : Addr) (s : State) : (enterInterrupt vec b skew s).nmiPending = s.nmiPending := by simp [enterInterrupt]
@[simp] theorem enterInterrupt_irqLine (vec : Addr) (b : Bool) (skew : Addr) (s : State) : (enterInterrupt vec b skew s).irqLine = s.irqLine := by simp [enterInterrupt]

/-! ### `returnFromInterrupt`: SP, PC and the flags -/

@[simp] theorem returnFromInterrupt_a (s : State) : (returnFromInterrupt s).a = s.a := by simp [returnFromInterrupt]
@[simp] theorem returnFromInterrupt_x (s : State) : (returnFromInterrupt s).x = s.x := by simp [returnFromInterrupt]
@[simp] theorem returnFromInterrupt_y (s : State) : (returnFromInterrupt s).y = s.y := by simp [returnFromInterrupt]
@[simp] theorem returnFromInterrupt_cycles (s : State) : (returnFromInterrupt s).cycles = s.cycles := by simp [returnFromInterrupt]
@[simp] theorem returnFromInterrupt_fault (s : State) : (returnFromInterrupt s).fault = s.fault := by simp [returnFromInterrupt]
@[simp] theorem returnFromInterrupt_faultByte (s : State) : (returnFromInterrupt s).faultByte = s.faultByte := by simp [returnFromInterrupt]
@[simp] theorem returnFromInterrupt_mem (s : State) : (returnFromInterrupt s).mem = s.mem := by simp [returnFromInterrupt]
@[simp] theorem returnFromInterrupt_bankSel (s : State) : (returnFromInterrupt s).bankSel = s.bankSel := by simp [returnFromInterrupt]
@[simp] theorem returnFromInterrupt_dirty (s : State) : (returnFromInterrupt s).dirty = s.dirty := by simp [returnFromInterrupt]
@[simp] theorem returnFromInterrupt_fb (s : State) : (returnFromInterrupt s).fb = s.fb := by simp [returnFromInterrupt]
@[simp] theorem returnFromInterrupt_frameReady (s : State) : (returnFromInterrupt s).frameReady = s.frameReady := by simp [returnFromInterrupt]
@[simp] theorem returnFromInterrupt_running (s : State) : (returnFromInterrupt s).running = s.running := by simp [returnFromInterrupt]
@[simp] theorem returnFromInterrupt_nmiPending (s : State) : (returnFromInterrupt s).nmiPending = s.nmiPending := by simp [returnFromInterrupt]
@[simp] theorem returnFromInterrupt_irqLine (s : State) : (returnFromInterrupt s).irqLine = s.irqLine := by simp [returnFromInterrupt]

/-! ### `raiseFatal`: only the latch -/

@[simp] theorem raiseFatal_a (code : Byte) (s : State) : (raiseFatal code s).a = s.a := rfl
@[simp] theorem raiseFatal_x (code : Byte) (s : State) : (raiseFatal code s).x = s.x := rfl
@[simp] theorem raiseFatal_y (code : Byte) (s : State) : (raiseFatal code s).y = s.y := rfl
@[simp] theorem raiseFatal_sp (code : Byte) (s : State) : (raiseFatal code s).sp = s.sp := rfl
@[simp] theorem raiseFatal_pc (code : Byte) (s : State) : (raiseFatal code s).pc = s.pc := rfl
@[simp] theorem raiseFatal_flags (code : Byte) (s : State) : (raiseFatal code s).flags = s.flags := rfl
@[simp] theorem raiseFatal_cycles (code : Byte) (s : State) : (raiseFatal code s).cycles = s.cycles := rfl
@[simp] theorem raiseFatal_mem (code : Byte) (s : State) : (raiseFatal code s).mem = s.mem := rfl
@[simp] theorem raiseFatal_bankSel (code : Byte) (s : State) : (raiseFatal code s).bankSel = s.bankSel := rfl
@[simp] theorem raiseFatal_dirty (code : Byte) (s : State) : (raiseFatal code s).dirty = s.dirty := rfl
@[simp] theorem raiseFatal_fb (code : Byte) (s : State) : (raiseFatal code s).fb = s.fb := rfl
@[simp] theorem raiseFatal_frameReady (code : Byte) (s : State) : (raiseFatal code s).frameReady = s.frameReady := rfl
@[simp] theorem raiseFatal_running (code : Byte) (s : State) : (raiseFatal code s).running = s.running := rfl
@[simp] theorem raiseFatal_nmiPending (code : Byte) (s : State) : (raiseFatal code s).nmiPending = s.nmiPending := rfl
@[simp] theorem raiseFatal_irqLine (code : Byte) (s : State) : (raiseFatal code s).irqLine = s.irqLine := rfl

@[simp] theorem raiseFatal_fault (code : Byte) (s : State) : (raiseFatal code s).fault = true := rfl
@[simp] theorem raiseFatal_faultByte (code : Byte) (s : State) : (raiseFatal code s).faultByte = code := rfl

/-! ### `afterFetch`: only PC -/

@[simp] theorem afterFetch_a (i : Instr) (s : State) : (afterFetch i s).a = s.a := rfl
@[simp] theorem afterFetch_x (i : Instr) (s : State) : (afterFetch i s).x = s.x := rfl
@[simp] theorem afterFetch_y (i : Instr) (s : State) : (afterFetch i s).y = s.y := rfl
@[simp] theorem afterFetch_sp (i : Instr) (s : State) : (afterFetch i s).sp = s.sp := rfl
@[simp] theorem afterFetch_flags (i : Instr) (s : State) : (afterFetch i s).flags = s.flags := rfl
@[simp] theorem afterFetch_cycles (i : Instr) (s : State) : (afterFetch i s).cycles = s.cycles := rfl
@[simp] theorem afterFetch_fault (i : Instr) (s : State) : (afterFetch i s).fault = s.fault := rfl
@[simp] theorem afterFetch_faultByte (i : Instr) (s : State) : (afterFetch i s).faultByte = s.faultByte := rfl
@[simp] theorem afterFetch_mem (i : Instr) (s : State) : (afterFetch i s).mem = s.mem := rfl
@[simp] theorem afterFetch_bankSel (i : Instr) (s : State) : (afterFetch i s).bankSel = s.bankSel := rfl
@[simp] theorem afterFetch_dirty (i : Instr) (s : State) : (afterFetch i s).dirty = s.dirty := rfl
@[simp] theorem afterFetch_fb (i : Instr) (s : State) : (afterFetch i s).fb = s.fb := rfl
@[simp] theorem afterFetch_frameReady (i : Instr) (s : State) : (afterFetch i s).frameReady = s.frameReady := rfl
@[simp] theorem afterFetch_running (i : Instr) (s : State) : (afterFetch i s).running = s.running := rfl
@[simp] theorem afterFetch_nmiPending (i : Instr) (s : State) : (afterFetch i s).nmiPending = s.nmiPending := rfl
@[simp] theorem afterFetch_irqLine (i : Instr) (s : State) : (afterFetch i s).irqLine = s.irqLine := rfl

@[simp] theorem afterFetch_pc (i : Instr) (s : State) :
    (afterFetch i s).pc = s.pc + BitVec.ofNat 16 i.length := rfl

/-! ### `decodePass`: the framebuffer, its ready flag and the dirty table -/

@[simp] theorem decodePass_a (s : State) : (decodePass s).a = s.a := by simp only [decodePass]
@[simp] theorem decodePass_x (s : State) : (decodePass s).x = s.x := by simp only [decodePass]
@[simp] theorem decodePass_y (s : State) : (decodePass s).y = s.y := by simp only [decodePass]
@[simp] theorem decodePass_sp (s : State) : (decodePass s).sp = s.sp := by simp only [decodePass]
@[simp] theorem decodePass_pc (s : State) : (decodePass s).pc = s.pc := by simp only [decodePass]
@[simp] theorem decodePass_flags (s : State) : (decodePass s).flags = s.flags := by simp only [decodePass]
@[simp] theorem decodePass_cycles (s : State) : (decodePass s).cycles = s.cycles := by simp only [decodePass]
@[simp] theorem decodePass_fault (s : State) : (decodePass s).fault = s.fault := by simp only [decodePass]
@[simp] theorem decodePass_faultByte (s : State) : (decodePass s).faultByte = s.faultByte := by simp only [decodePass]
@[simp] theorem decodePass_mem (s : State) : (decodePass s).mem = s.mem := by simp only [decodePass]
@[simp] theorem decodePass_bankSel (s : State) : (decodePass s).bankSel = s.bankSel := by simp only [decodePass]
@[simp] theorem decodePass_running (s : State) : (decodePass s).running = s.running := by simp only [decodePass]
@[simp] theorem decodePass_nmiPending (s : State) : (decodePass s).nmiPending = s.nmiPending := by simp only [decodePass]
@[simp] theorem decodePass_irqLine (s : State) : (decodePass s).irqLine = s.irqLine := by simp only [decodePass]

@[simp] theorem decodePass_fb (s : State) : (decodePass s).fb = frame s.mem s.bankSel := by simp only [decodePass]
@[simp] theorem decodePass_dirty (s : State) : (decodePass s).dirty = clearDirty s.bankSel s.dirty := by simp only [decodePass]
@[simp] theorem decodePass_frameReady (s : State) : (decodePass s).frameReady = true := by simp only [decodePass]

end Sys2Proof.Machine
end

