-- ==== Sys2Proof/Laws/Memory.lean ====
section
/-! SUPPORT. What the memory array's operations do: a read after a write, and that every operation keeps the canonical
form. -/

namespace Sys2Proof.Machine

theorem Memory.get_of_not_listed (m : Memory) (a : Nat) (h : ∀ p ∈ m, p.1 ≠ a) : Memory.get m a = 0 := by
  induction m with
  | nil => rfl
  | cons p rest ih =>
    have h0 : p.1 ≠ a := h p (by simp)
    simpa [Memory.get, h0] using ih (fun q hq => h q (by simp [hq]))

theorem Memory.mem_erase (m : Memory) (a : Nat) (p : Host.Cell) :
    p ∈ Memory.erase m a ↔ p ∈ m ∧ p.1 ≠ a := by
  simp [Memory.erase, List.mem_filter]

theorem Memory.get_erase (m : Memory) (a b : Nat) :
    Memory.get (Memory.erase m a) b = if b = a then 0 else Memory.get m b := by
  by_cases hb : b = a
  · subst hb
    rw [if_pos rfl]
    exact Memory.get_of_not_listed _ _ (fun p hp => ((Memory.mem_erase m b p).1 hp).2)
  · rw [if_neg hb]
    induction m with
    | nil => rfl
    | cons p rest ih =>
      obtain ⟨k, v⟩ := p
      by_cases hk : k = a
      · have hkb : k ≠ b := fun h => hb (h.symm.trans hk)
        simpa [Memory.erase, Memory.get, hk, hkb, Ne.symm hb] using ih
      · simp only [Memory.erase, ne_eq, hk, not_false_eq_true, decide_true, List.filter_cons_of_pos, Memory.get]
        split
        · rfl
        · simpa [Memory.erase] using ih

theorem Memory.get_insert (m : Memory) (a : Nat) (v : Byte) (b : Nat) (h : ∀ p ∈ m, p.1 ≠ a) :
    Memory.get (Memory.insert m a v) b = if b = a then v else Memory.get m b := by
  induction m with
  | nil => simp [Memory.insert, Memory.get, eq_comm]
  | cons p rest ih =>
    obtain ⟨k, w⟩ := p
    have hk : k ≠ a := h (k, w) (by simp)
    have ih := ih (fun q hq => h q (by simp [hq]))
    simp only [Memory.insert]
    split
    · simp [Memory.get, eq_comm]
    · simp only [Memory.get, ih]
      by_cases hkb : k = b
      · subst hkb; simp [hk]
      · simp [hkb]

/-- A read after a write: the byte written at its address, every other address as before. -/
theorem Memory.get_set (m : Memory) (a : Nat) (v : Byte) (b : Nat) :
    Memory.get (Memory.set m a v) b = if b = a then v else Memory.get m b := by
  unfold Memory.set
  split
  · rename_i hv; subst hv; exact Memory.get_erase m a b
  · rw [Memory.get_insert _ _ _ _ (fun p hp => ((Memory.mem_erase m a p).1 hp).2), Memory.get_erase]
    split <;> rfl

theorem Memory.mem_insert (m : Memory) (a : Nat) (v : Byte) (p : Host.Cell) :
    p ∈ Memory.insert m a v ↔ p = (a, v) ∨ p ∈ m := by
  induction m with
  | nil => simp [Memory.insert]
  | cons q rest ih =>
    simp only [Memory.insert]
    split
    · simp
    · simp only [List.mem_cons, ih]; tauto

theorem Memory.wf_erase {m : Memory} (h : Memory.wf m) (a : Nat) : Memory.wf (Memory.erase m a) :=
  ⟨h.1.filter _, fun p hp => h.2 p ((Memory.mem_erase m a p).1 hp).1⟩

theorem Memory.wf_insert {m : Memory} (h : Memory.wf m) (a : Nat) (v : Byte) (hn : ∀ p ∈ m, p.1 ≠ a)
    (ha : a < 65536) (hv : v ≠ 0) : Memory.wf (Memory.insert m a v) := by
  refine ⟨?_, fun p hp => ?_⟩
  · induction m with
    | nil => simp [Memory.insert]
    | cons q rest ih =>
      obtain ⟨k, w⟩ := q
      obtain ⟨hr, hb⟩ := h
      rw [List.pairwise_cons] at hr
      have hk : k ≠ a := hn (k, w) (by simp)
      simp only [Memory.insert]
      split
      · rename_i hak
        refine List.pairwise_cons.2 ⟨fun p hp => ?_, List.pairwise_cons.2 hr⟩
        rcases List.mem_cons.1 hp with rfl | hp
        · exact hak
        · exact lt_trans hak (hr.1 p hp)
      · rename_i hak
        refine List.pairwise_cons.2 ⟨fun p hp => ?_, ?_⟩
        · rcases (Memory.mem_insert rest a v p).1 hp with rfl | hp
          · exact lt_of_le_of_ne (not_lt.1 hak) hk
          · exact hr.1 p hp
        · exact ih ⟨hr.2, fun p hp => hb p (by simp [hp])⟩ (fun p hp => hn p (by simp [hp]))
  · rcases (Memory.mem_insert m a v p).1 hp with rfl | hp
    · exact ⟨ha, hv⟩
    · exact h.2 p hp

/-- A write keeps the canonical form. -/
theorem Memory.wf_set {m : Memory} (h : Memory.wf m) {a : Nat} (ha : a < 65536) (v : Byte) :
    Memory.wf (Memory.set m a v) := by
  unfold Memory.set
  split
  · exact Memory.wf_erase h a
  · rename_i hv
    exact Memory.wf_insert (Memory.wf_erase h a) a v (fun p hp => ((Memory.mem_erase m a p).1 hp).2) ha hv

/-- The canonical form of the empty array. -/
theorem Memory.wf_nil : Memory.wf [] := by decide

/-- An image copy keeps the canonical form while it stays in the address space. -/
theorem Memory.wf_load {m : Memory} (h : Memory.wf m) (a : Nat) (bs : List Byte) (hb : a + bs.length ≤ 65536) :
    Memory.wf (Memory.load m a bs) := by
  induction bs generalizing m a with
  | nil => exact h
  | cons b bs ih =>
    simp only [List.length_cons] at hb
    exact ih (Memory.wf_set h (by omega) b) (a + 1) (by omega)

/-- Bytes below an image copy stay. -/
theorem Memory.get_load_below (m : Memory) (a : Nat) (bs : List Byte) (b : Nat) (h : b < a) :
    Memory.get (Memory.load m a bs) b = Memory.get m b := by
  induction bs generalizing m a with
  | nil => rfl
  | cons v bs ih =>
    rw [Memory.load, ih _ _ (by omega), Memory.get_set, if_neg (by omega)]

/-- Bytes above an image copy stay. -/
theorem Memory.get_load_above (m : Memory) (a : Nat) (bs : List Byte) (b : Nat) (h : a + bs.length ≤ b) :
    Memory.get (Memory.load m a bs) b = Memory.get m b := by
  induction bs generalizing m a with
  | nil => rfl
  | cons v bs ih =>
    simp only [List.length_cons] at h
    rw [Memory.load, ih _ _ (by omega), Memory.get_set, if_neg (by omega)]

/-- Bytes of an image copy land in order. -/
theorem Memory.get_load_inside (m : Memory) (a : Nat) (bs : List Byte) (k : Nat) (h : k < bs.length) :
    Memory.get (Memory.load m a bs) (a + k) = bs[k] := by
  induction bs generalizing m a k with
  | nil => simp at h
  | cons v bs ih =>
    cases k with
    | zero => rw [Memory.load, Memory.get_load_below _ _ _ _ (by omega), Memory.get_set]; simp
    | succ k =>
      have := ih (Memory.set m a v) (a + 1) k (by simpa using h)
      rw [Memory.load, show a + (k + 1) = a + 1 + k by omega, this]; rfl

end Sys2Proof.Machine
end

