-- ==== Sys2Proof/Laws/Ops.lean ====
section
/-! SUPPORT. What each shared operation can do, said once: the write primitive, the stack, the dirty table, the
completion of an instruction, and a step. -/

namespace Sys2Proof.Machine

@[simp] theorem cfg_romWriteProtect : cfg.romWriteProtect = false := rfl

/-! ### The write primitive -/

/-- The three things `memWrite` can do (R45). -/
theorem memWrite_cases (a : Addr) (v : Byte) (s : State) :
    (a = cfg.swBank0 ∧ memWrite a v s = { s with bankSel := .bank0 }) ∨
    (a = cfg.swBank1 ∧ memWrite a v s = { s with bankSel := .bank1 }) ∨
    (¬ IsSelect a ∧ memWrite a v s = markDirty a { s with mem := Memory.set s.mem a.toNat v }) := by
  by_cases h0 : a = cfg.swBank0
  · exact .inl ⟨h0, by simp [memWrite, h0]⟩
  by_cases h1 : a = cfg.swBank1
  · exact .inr (.inl ⟨h1, by unfold memWrite; rw [if_neg h0, if_pos h1]⟩)
  · refine .inr (.inr ⟨fun h => h.elim h0 h1, ?_⟩)
    unfold memWrite
    rw [if_neg h0, if_neg h1]
    simp

theorem memWrite_select0 (v : Byte) (s : State) : memWrite cfg.swBank0 v s = { s with bankSel := .bank0 } := by
  simp [memWrite]

theorem memWrite_select1 (v : Byte) (s : State) : memWrite cfg.swBank1 v s = { s with bankSel := .bank1 } := by
  unfold memWrite
  rw [if_neg (by decide), if_pos rfl]

theorem memWrite_ordinary {a : Addr} (h : ¬ IsSelect a) (v : Byte) (s : State) :
    memWrite a v s = markDirty a { s with mem := Memory.set s.mem a.toNat v } := by
  rcases memWrite_cases a v s with ⟨h0, -⟩ | ⟨h1, -⟩ | ⟨-, h'⟩
  · exact absurd (.inl h0) h
  · exact absurd (.inr h1) h
  · exact h'

theorem cell_eq_of_mem {s t : State} (h : t.mem = s.mem) (a : Addr) : cell t a = cell s a := by
  simp [cell, h]

/-- Every byte of memory after a write. -/
theorem cell_memWrite (a : Addr) (v : Byte) (s : State) (b : Addr) :
    cell (memWrite a v s) b = if b = a ∧ ¬ IsSelect a then v else cell s b := by
  rcases memWrite_cases a v s with ⟨h0, h⟩ | ⟨h1, h⟩ | ⟨hn, h⟩
  · rw [h, if_neg (fun hb => hb.2 (.inl h0))]; rfl
  · rw [h, if_neg (fun hb => hb.2 (.inr h1))]; rfl
  · rw [h]
    simp only [cell, markDirty_mem, Memory.get_set]
    by_cases hb : b = a
    · subst hb; rw [if_pos rfl, if_pos ⟨rfl, hn⟩]
    · rw [if_neg (fun e => hb (BitVec.eq_of_toNat_eq e)), if_neg (fun e => hb e.1)]

theorem memWrite_bankSel_ordinary {a : Addr} (h : ¬ IsSelect a) (v : Byte) (s : State) :
    (memWrite a v s).bankSel = s.bankSel := by rw [memWrite_ordinary h]; simp

theorem memWrite_dirty_select {a : Addr} (h : IsSelect a) (v : Byte) (s : State) :
    (memWrite a v s).dirty = s.dirty := by
  rcases h with rfl | rfl
  · rw [memWrite_select0]
  · rw [memWrite_select1]

/-- A write keeps the canonical form of memory. -/
theorem wf_memWrite {s : State} (h : Memory.wf s.mem) (a : Addr) (v : Byte) : Memory.wf (memWrite a v s).mem := by
  rcases memWrite_cases a v s with ⟨-, e⟩ | ⟨-, e⟩ | ⟨-, e⟩
  · rw [e]; exact h
  · rw [e]; exact h
  · rw [e]; simpa using Memory.wf_set h a.isLt v

/-- The bytes at the two select addresses are never stored to. -/
theorem cell_memWrite_select {b : Addr} (hb : IsSelect b) (a : Addr) (v : Byte) (s : State) :
    cell (memWrite a v s) b = cell s b := by
  rw [cell_memWrite, if_neg]
  rintro ⟨rfl, hn⟩
  exact hn hb

/-! ### The dirty table -/

theorem getElem_markDirtyIn (b : Bank) (a : Addr) (s : State) (i : Fin 384) :
    (markDirtyIn b a s).dirty[i] = (s.dirty[i] || decide (dirtyIndex b a = some i.val)) := by
  unfold markDirtyIn
  split
  · rename_i j hj
    simp only [hj, Option.some.injEq, Fin.getElem_fin]
    rw [Vector.getElem_setIfInBounds]
    split <;> simp_all
  · rename_i hj; simp [hj]

/-- Every dirty flag after `MarkDirty`. -/
theorem getElem_markDirty (a : Addr) (s : State) (i : Fin 384) :
    (markDirty a s).dirty[i] =
      (s.dirty[i] || decide (dirtyIndex .bank0 a = some i.val ∨ dirtyIndex .bank1 a = some i.val)) := by
  unfold markDirty
  rw [getElem_markDirtyIn, getElem_markDirtyIn, Bool.or_assoc, Bool.decide_or]

/-! ### The stack -/

theorem zext_toNat (b : Byte) : (zext b).toNat = b.toNat := by
  simp only [zext, BitVec.toNat_setWidth]
  have := b.isLt
  omega

theorem stackAddr_toNat (sp : Byte) : (stackAddr sp).toNat = 256 + sp.toNat := by
  have h : cfg.stackBase.toNat = 256 := by decide
  have := sp.isLt
  rw [stackAddr, BitVec.toNat_add, zext_toNat, h]
  omega

theorem stackAddr_inj {p q : Byte} : stackAddr p = stackAddr q ↔ p = q := by
  refine ⟨fun h => BitVec.eq_of_toNat_eq ?_, fun h => h ▸ rfl⟩
  have := congrArg BitVec.toNat h
  rw [stackAddr_toNat, stackAddr_toNat] at this
  omega

theorem stackAddr_ne_of_large {a : Addr} (h : 512 ≤ a.toNat) (sp : Byte) : stackAddr sp ≠ a := by
  intro e
  have h1 := stackAddr_toNat sp
  have := sp.isLt
  rw [e] at h1
  omega

theorem stackAddr_not_select (sp : Byte) : ¬ IsSelect (stackAddr sp) := fun h =>
  h.elim (stackAddr_ne_of_large (by decide) sp) (stackAddr_ne_of_large (by decide) sp)

theorem stackAddr_ne_rdBank (sp : Byte) : stackAddr sp ≠ cfg.swRdBank := stackAddr_ne_of_large (by decide) sp

@[simp] theorem memRead_stackAddr (s : State) (sp : Byte) : memRead s (stackAddr sp) = cell s (stackAddr sp) := by
  unfold memRead; rw [if_neg (stackAddr_ne_rdBank sp)]

theorem dirtyIndex_stackAddr (b : Bank) (sp : Byte) : dirtyIndex b (stackAddr sp) = none := by
  unfold dirtyIndex
  have h1 := stackAddr_toNat sp
  have := sp.isLt
  have hb : 512 ≤ (bankBase b).toNat := by cases b <;> decide
  rw [if_neg (by omega)]

theorem markDirty_stackAddr (sp : Byte) (s : State) : markDirty (stackAddr sp) s = s := by
  unfold markDirty markDirtyIn
  simp only [dirtyIndex_stackAddr]

/-- A push stores one ordinary byte and moves SP: nothing else changes. -/
theorem push_eq (v : Byte) (s : State) :
    push v s = { s with mem := Memory.set s.mem (stackAddr s.sp).toNat v, sp := s.sp - 1 } := by
  unfold push
  rw [memWrite_ordinary (stackAddr_not_select s.sp), markDirty_stackAddr]

theorem cell_push (v : Byte) (s : State) (b : Addr) :
    cell (push v s) b = if b = stackAddr s.sp then v else cell s b := by
  rw [show cell (push v s) b = cell (memWrite (stackAddr s.sp) v s) b from rfl, cell_memWrite]
  simp [stackAddr_not_select]

theorem push_keeps_bankSel (v : Byte) (s : State) : (push v s).bankSel = s.bankSel := by rw [push_eq]

theorem push_keeps_dirty (v : Byte) (s : State) : (push v s).dirty = s.dirty := by rw [push_eq]

theorem wf_push {s : State} (h : Memory.wf s.mem) (v : Byte) : Memory.wf (push v s).mem := wf_memWrite h _ v

theorem pulled_eq (s : State) : pulled s = cell s (stackAddr (s.sp + 1)) := memRead_stackAddr s _

/-- A pull after a push returns the byte (R112). -/
theorem pulled_push (v : Byte) (s : State) : pulled (push v s) = v := by
  rw [pulled_eq, cell_push, push_sp, if_pos (by rw [BitVec.sub_add_cancel])]

/-! ### Byte order -/

theorem word_hi_lo (w : Addr) : word (hi w) (lo w) = w := by
  unfold word hi lo
  apply BitVec.eq_of_getLsbD_eq
  intro i hlt
  simp only [BitVec.getLsbD_append, BitVec.getLsbD_extractLsb']
  by_cases h : i < 8
  · simp [h]
  · have : 8 + (i - 8) = i := by omega
    simp [h, this, show i - 8 < 8 by omega]

@[simp] theorem hi_word (h l : Byte) : hi (word h l) = h := by
  unfold word hi
  apply BitVec.eq_of_getLsbD_eq
  intro i hlt
  rw [BitVec.getLsbD_extractLsb', BitVec.getLsbD_append]
  simp [hlt]

@[simp] theorem lo_word (h l : Byte) : lo (word h l) = l := by
  unfold word lo
  apply BitVec.eq_of_getLsbD_eq
  intro i hlt
  rw [BitVec.getLsbD_extractLsb', BitVec.getLsbD_append]
  simp [hlt]

theorem word_toNat (h l : Byte) : (word h l).toNat = h.toNat * 256 + l.toNat := by
  unfold word
  rw [BitVec.toNat_append, Nat.shiftLeft_eq, ← Nat.shiftLeft_eq, ← Nat.shiftLeft_add_eq_or_of_lt l.isLt,
    Nat.shiftLeft_eq]

/-! ### Completing an instruction, and the shared meanings -/

/-- The state a completed instruction leaves. -/
def charged (op : Op) (mode : Mode) (pen : Nat) (s : State) : State :=
  { s with cycles := s.cycles + (baseCycles op mode + pen) }

theorem finish_eq (op : Op) (mode : Mode) (pen : Nat) (s : State) :
    finish op mode pen s = .next (charged op mode pen s) := rfl

/-- The cost of an operation in a mode is that of every entry of `OPMAP` that has them (R80). -/
theorem baseCycles_lookup : ∀ k < 258, baseCycles (lookup k).op (lookup k).mode = (lookup k).base := by decide +kernel

/-- An instruction that carries its byte pays what its operation pays. -/
@[simp] theorem entryCycles_eq (op : Op) (mode : Mode) (code : Byte) :
    entryCycles op mode code = baseCycles op mode := by
  unfold entryCycles
  split
  · rename_i h
    rw [← h.1, ← h.2, baseCycles_lookup _ (by omega)]
  · rfl

/-- An instruction that carries its byte completes, as a record. -/
theorem finishCode_eq (op : Op) (mode : Mode) (code : Byte) (s : State) :
    finishCode op mode code s = .next (charged op mode 0 s) := by
  unfold finishCode charge
  rw [entryCycles_eq]; rfl

/-- The NMI service sequence, as a record (R323). -/
theorem serviceNmi_eq (s : State) : serviceNmi s =
    .next (charged .nmi .imp 0 (enterInterrupt cfg.vecNmi false 0 { s with nmiPending := false })) := by
  unfold serviceNmi charge
  rw [← baseCycles_lookup 256 (by decide)]; rfl

/-- The IRQ service sequence, as a record (R324). -/
theorem serviceIrq_eq (s : State) : serviceIrq s =
    .next (charged .irq .imp 0 (enterInterrupt cfg.vecIrq false 0 s)) := by
  unfold serviceIrq charge
  rw [← baseCycles_lookup 257 (by decide)]; rfl

theorem finish_next {op : Op} {mode : Mode} {pen : Nat} {s t : State} (h : finish op mode pen s = .next t) :
    t = charged op mode pen s := by
  rw [finish_eq] at h
  exact (Host.Outcome.next.inj h).symm

/-- A branch completes, taken or not (R117). -/
theorem branch_eq (op : Op) (cond : Bool) (off : Byte) (s : State) :
    branch op cond off s =
      .next (charged op .rel (if cond then 1 + pageCross s.pc (s.pc + sext off) else 0)
        (if cond then { s with pc := s.pc + sext off } else s)) := by
  cases cond <;> rfl

/-- An entry, written out: three bytes below the old SP, I, PC. -/
theorem enterInterrupt_eq (vec : Addr) (b : Bool) (skew : Addr) (s : State) :
    enterInterrupt vec b skew s =
      { setI true (push (packP b s.flags) (push (lo (s.pc + skew)) (push (hi (s.pc + skew)) s))) with
        pc := memRead16 (setI true (push (packP b s.flags) (push (lo (s.pc + skew)) (push (hi (s.pc + skew)) s))))
          vec } := rfl

/-! ### A step -/

/-- The four ways a step answers a next state (R90, R325). -/
theorem step_cases {s t : State} (h : step s = .next t) :
    s.fault = false ∧
    ((s.nmiPending = true ∧ serviceNmi s = .next t) ∨
     (s.nmiPending = false ∧ s.irqLine = true ∧ s.flags.i = false ∧ serviceIrq s = .next t) ∨
     (s.nmiPending = false ∧ (s.irqLine = false ∨ s.flags.i = true) ∧
       ∃ i rest, decode (fetchWindow s) = .ok i rest ∧ exec i (afterFetch i s) = .next t)) := by
  unfold step nextEvent at h
  cases hf : s.fault
  · refine ⟨rfl, ?_⟩
    simp only [hf, Bool.false_eq_true, if_false] at h
    cases hn : s.nmiPending
    · simp only [hn, Bool.false_eq_true, if_false] at h
      by_cases hq : (s.irqLine && !s.flags.i) = true
      · simp only [hq, if_true] at h
        simp only [Bool.and_eq_true, Bool.not_eq_true'] at hq
        exact .inr (.inl ⟨rfl, hq.1, hq.2, h⟩)
      · simp only [hq] at h
        refine .inr (.inr ⟨rfl, ?_, ?_⟩)
        · cases hl : s.irqLine <;> cases hI : s.flags.i <;> simp_all
        · cases hd : decode (fetchWindow s) with
          | ok i rest => exact ⟨i, rest, rfl, by simpa [hd] using h⟩
          | error e => simp [hd] at h
    · simp only [hn, if_true] at h
      exact .inl ⟨rfl, h⟩
  · simp [hf] at h

end Sys2Proof.Machine
end

