-- ==== Sys2Proof/Laws/Bits.lean ====
section
/-! SUPPORT. The bit operations of the model as arithmetic: single bits, shifts and rotates, the complement, sign
extension, the two bytes of an address, and the flag rules stated over them. -/

namespace Sys2Proof.Machine

/-! ### Single bits -/

theorem getLsbD_seven (r : Byte) : r.getLsbD 7 = decide (128 ≤ r.toNat) := by
  rw [BitVec.getLsbD_eq_getElem (by decide)]
  have : r[7] = r.msb := by simp [BitVec.msb_eq_getLsbD_last, BitVec.getLsbD_eq_getElem]
  rw [this, BitVec.msb_eq_decide]

theorem getLsbD_low : ∀ r : Byte, r.getLsbD 6 = decide (64 ≤ r.toNat % 128) ∧
    r.getLsbD 5 = decide (32 ≤ r.toNat % 64) ∧ r.getLsbD 0 = decide (r.toNat % 2 = 1) := by decide +kernel

/-! ### Shifts, rotates, the complement, sign extension -/

theorem shift_values : ∀ v : Byte, v <<< 1 = BitVec.ofNat 8 (2 * v.toNat) ∧ v >>> 1 = BitVec.ofNat 8 (v.toNat / 2) ∧
    (v ^^^ 0xFF#8).toNat = 255 - v.toNat := by decide +kernel

theorem rotate_values : ∀ (c : Bool) (v : Byte),
    (v <<< 1) ||| flagBit c = BitVec.ofNat 8 (2 * v.toNat + c.toNat) ∧
    (v >>> 1) ||| (flagBit c <<< 7) = BitVec.ofNat 8 (v.toNat / 2 + 128 * c.toNat) := by decide +kernel

theorem sext_values : ∀ off : Byte, (off.toNat ≤ 127 → sext off = BitVec.ofNat 16 off.toNat) ∧
    (127 < off.toNat → sext off = - BitVec.ofNat 16 (256 - off.toNat)) := by decide +kernel

theorem toInt_eq (a : Byte) : a.toInt = (a.toNat : Int) - (if 128 ≤ a.toNat then 256 else 0) := by
  rw [BitVec.toInt_eq_toNat_cond]; split <;> split <;> omega

/-! ### The bytes of an address -/

theorem hi_toNat (w : Addr) : (hi w).toNat = w.toNat / 256 := by
  unfold hi
  rw [BitVec.extractLsb'_toNat, Nat.shiftRight_eq_div_pow]
  have := w.isLt
  omega

theorem lo_toNat (w : Addr) : (lo w).toNat = w.toNat % 256 := by
  unfold lo
  rw [BitVec.extractLsb'_toNat]
  simp

/-- The page test as numbers (R109). -/
theorem pageCross_eq (p q : Addr) : pageCross p q = if p.toNat / 256 = q.toNat / 256 then 0 else 1 := by
  unfold pageCross
  congr 1
  rw [← BitVec.toNat_inj, hi_toNat, hi_toNat]

/-! ### Flag rules -/

theorem setNZ_follows (r : Byte) (s : State) : NZFollow r (setNZ r s) := ⟨rfl, getLsbD_seven r⟩

theorem addOverflow_eq (a m r : Byte) : addOverflow a m r =
    decide ((128 ≤ a.toNat ↔ 128 ≤ m.toNat) ∧ ¬ (128 ≤ m.toNat ↔ 128 ≤ r.toNat)) := by
  unfold addOverflow
  rw [getLsbD_seven, getLsbD_seven, getLsbD_seven]
  by_cases h1 : 128 ≤ a.toNat <;> by_cases h2 : 128 ≤ m.toNat <;> by_cases h3 : 128 ≤ r.toNat <;> simp [h1, h2, h3]

theorem compareSum_eq (reg m : Byte) : compareSum reg m = reg.toNat + (255 - m.toNat) + 1 := by
  rw [compareSum, (shift_values m).2.2]

end Sys2Proof.Machine
end

