-- ==== Sys2Proof/Laws/PerInstr.lean ====
section
/-! SUPPORT. Per-instruction facts about the registry: the entry at an instruction's opcode byte is its operation in its
mode (family `Registered`), and the small facts about operands and descriptors that decoding and encoding rest on. -/

namespace Sys2Proof.Laws

/-- The registry gives the operation an opcode byte in the mode, and the entry at that byte is the operation in that
mode. -/
def registeredIn (op : Op) (mode : Mode) : Bool :=
  match opcodeOf op mode with
  | some code => decide ((lookup code.toNat).op = op) && decide ((lookup code.toNat).mode = mode)
  | none => false

theorem registeredIn_exists {op : Op} {mode : Mode} (h : registeredIn op mode = true) :
    ∃ code, opcodeOf op mode = some code ∧ (lookup code.toNat).op = op ∧ (lookup code.toNat).mode = mode := by
  unfold registeredIn at h
  cases hc : opcodeOf op mode with
  | none => simp [hc] at h
  | some code => simp only [hc, Bool.and_eq_true, decide_eq_true_eq] at h; exact ⟨code, rfl, h⟩

theorem registered_acc : ∀ op ∈ [Op.lda, .and, .ora, .eor, .adc, .sbc, .cmp], ∀ mode ∈ accModes,
    registeredIn op mode = true := by decide +kernel

theorem registered_sta : ∀ mode ∈ staModes, registeredIn .sta mode = true := by decide +kernel

theorem registered_rmw : ∀ op ∈ [Op.asl, .lsr, .rol, .ror, .inc, .dec], ∀ mode ∈ rmwModes,
    registeredIn op mode = true := by decide +kernel

theorem registered_undoc : ∀ op ∈ [Op.slo, .rla, .sre, .rra, .dcp, .isc], ∀ mode ∈ undocModes,
    registeredIn op mode = true := by decide +kernel

theorem registered_index : (∀ mode ∈ [Mode.imm, .zp, .zpy, .abs, .abyp], registeredIn .ldx mode = true) ∧
    (∀ mode ∈ [Mode.imm, .zp, .zpx, .abs, .abxp], registeredIn .ldy mode = true) ∧
    (∀ mode ∈ [Mode.zp, .zpy, .abs], registeredIn .stx mode = true) ∧
    (∀ mode ∈ [Mode.zp, .zpx, .abs], registeredIn .sty mode = true) ∧
    (∀ op ∈ [Op.cpx, .cpy], ∀ mode ∈ [Mode.imm, .zp, .abs], registeredIn op mode = true) ∧
    (∀ mode ∈ [Mode.zp, .abs], registeredIn .bit mode = true) ∧
    (∀ mode ∈ [Mode.abs, .ind], registeredIn .jmp mode = true) := by decide +kernel

theorem registered_codes : (∀ code ∈ hltCodes, (lookup code.toNat).op = .hlt ∧ (lookup code.toNat).mode = .imp) ∧
    (∀ code ∈ unimplCodes, (lookup code.toNat).op = .unimpl ∧ (lookup code.toNat).mode = .imp) ∧
    (∀ code ∈ ancCodes, (lookup code.toNat).op = .anc ∧ (lookup code.toNat).mode = .imm) := by decide +kernel

/-- The operations of one form, each with its mode (R75 to R78). -/
def singleForms : List (Op × Mode) :=
  [(Op.tax, Mode.imp), (.tay, .imp), (.txa, .imp), (.tya, .imp), (.tsx, .imp), (.txs, .imp), (.pha, .imp),
   (.pla, .imp), (.php, .imp), (.plp, .imp), (.inx, .imp), (.iny, .imp), (.dex, .imp), (.dey, .imp),
   (.aslA, .imp), (.lsrA, .imp), (.rolA, .imp), (.rorA, .imp), (.jsr, .abs), (.rts, .imp), (.bpl, .rel),
   (.bmi, .rel), (.bvc, .rel), (.bvs, .rel), (.bcc, .rel), (.bcs, .rel), (.bne, .rel), (.beq, .rel),
   (.clc, .imp), (.sec, .imp), (.cli, .imp), (.sei, .imp), (.cld, .imp), (.sed, .imp), (.clv, .imp),
   (.nop, .imp), (.brk, .imp), (.rti, .imp), (.alr, .imm), (.arr, .imm), (.sbx, .imm)]

theorem registered_single : ∀ p ∈ singleForms, registeredIn p.1 p.2 = true := by decide +kernel

/-! ### Operands -/

/-- A memory operand is what its mode makes of its own bytes. -/
theorem MemOperand_ofMode_bytes (m : MemOperand) :
    (∃ b, m.bytes = [b] ∧ m.mode.operandCount = 1 ∧ ∀ b2, MemOperand.ofMode m.mode b b2 = some m) ∨
    (∃ b1 b2, m.bytes = [b1, b2] ∧ m.mode.operandCount = 2 ∧ MemOperand.ofMode m.mode b1 b2 = some m) := by
  have hw : ∀ w : Addr, word (hi w) (lo w) = w := by
    intro w
    unfold word hi lo
    apply BitVec.eq_of_getLsbD_eq
    intro i hlt
    simp only [BitVec.getLsbD_append, BitVec.getLsbD_extractLsb']
    by_cases h : i < 8
    · simp [h]
    · simp [h, show 8 + (i - 8) = i by omega, show i - 8 < 8 by omega]
  cases m with
  | zp b => exact .inl ⟨b, rfl, rfl, fun _ => rfl⟩
  | zpx b => exact .inl ⟨b, rfl, rfl, fun _ => rfl⟩
  | zpy b => exact .inl ⟨b, rfl, rfl, fun _ => rfl⟩
  | izx b => exact .inl ⟨b, rfl, rfl, fun _ => rfl⟩
  | izy b => exact .inl ⟨b, rfl, rfl, fun _ => rfl⟩
  | izyp b => exact .inl ⟨b, rfl, rfl, fun _ => rfl⟩
  | abs w => exact .inr ⟨lo w, hi w, rfl, rfl, by simp [MemOperand.mode, MemOperand.ofMode, hw]⟩
  | abx w => exact .inr ⟨lo w, hi w, rfl, rfl, by simp [MemOperand.mode, MemOperand.ofMode, hw]⟩
  | abxp w => exact .inr ⟨lo w, hi w, rfl, rfl, by simp [MemOperand.mode, MemOperand.ofMode, hw]⟩
  | aby w => exact .inr ⟨lo w, hi w, rfl, rfl, by simp [MemOperand.mode, MemOperand.ofMode, hw]⟩
  | abyp w => exact .inr ⟨lo w, hi w, rfl, rfl, by simp [MemOperand.mode, MemOperand.ofMode, hw]⟩
  | ind w => exact .inr ⟨lo w, hi w, rfl, rfl, by simp [MemOperand.mode, MemOperand.ofMode, hw]⟩

namespace Registered

/-- The registry's entry at the opcode byte of a well-formed instruction is its operation in its mode. -/
def Statement (i : Instr) : Prop :=
  i.wellFormed = true →
    ∃ code, i.opcode = some code ∧ (lookup code.toNat).op = i.op ∧ (lookup code.toNat).mode = i.mode

theorem of_registeredIn {i : Instr} (ho : i.opcode = opcodeOf i.op i.mode)
    (h : registeredIn i.op i.mode = true) :
    ∃ code, i.opcode = some code ∧ (lookup code.toNat).op = i.op ∧ (lookup code.toNat).mode = i.mode := by
  rw [ho]; exact registeredIn_exists h

theorem lda (o : Operand) : Statement (.lda o) := fun h => of_registeredIn rfl (registered_acc .lda (by decide) _ (of_decide_eq_true h))
theorem ldx (o : Operand) : Statement (.ldx o) := fun h => of_registeredIn rfl (registered_index.1 _ (of_decide_eq_true h))
theorem ldy (o : Operand) : Statement (.ldy o) := fun h => of_registeredIn rfl (registered_index.2.1 _ (of_decide_eq_true h))
theorem sta (m : MemOperand) : Statement (.sta m) := fun h => of_registeredIn rfl (registered_sta _ (of_decide_eq_true h))
theorem stx (m : MemOperand) : Statement (.stx m) := fun h => of_registeredIn rfl (registered_index.2.2.1 _ (of_decide_eq_true h))
theorem sty (m : MemOperand) : Statement (.sty m) := fun h => of_registeredIn rfl (registered_index.2.2.2.1 _ (of_decide_eq_true h))
theorem tax : Statement .tax := fun _ => of_registeredIn rfl (registered_single (.tax, .imp) (by decide))
theorem tay : Statement .tay := fun _ => of_registeredIn rfl (registered_single (.tay, .imp) (by decide))
theorem txa : Statement .txa := fun _ => of_registeredIn rfl (registered_single (.txa, .imp) (by decide))
theorem tya : Statement .tya := fun _ => of_registeredIn rfl (registered_single (.tya, .imp) (by decide))
theorem tsx : Statement .tsx := fun _ => of_registeredIn rfl (registered_single (.tsx, .imp) (by decide))
theorem txs : Statement .txs := fun _ => of_registeredIn rfl (registered_single (.txs, .imp) (by decide))
theorem pha : Statement .pha := fun _ => of_registeredIn rfl (registered_single (.pha, .imp) (by decide))
theorem pla : Statement .pla := fun _ => of_registeredIn rfl (registered_single (.pla, .imp) (by decide))
theorem php : Statement .php := fun _ => of_registeredIn rfl (registered_single (.php, .imp) (by decide))
theorem plp : Statement .plp := fun _ => of_registeredIn rfl (registered_single (.plp, .imp) (by decide))
theorem and (o : Operand) : Statement (.and o) := fun h => of_registeredIn rfl (registered_acc .and (by decide) _ (of_decide_eq_true h))
theorem ora (o : Operand) : Statement (.ora o) := fun h => of_registeredIn rfl (registered_acc .ora (by decide) _ (of_decide_eq_true h))
theorem eor (o : Operand) : Statement (.eor o) := fun h => of_registeredIn rfl (registered_acc .eor (by decide) _ (of_decide_eq_true h))
theorem bit (m : MemOperand) : Statement (.bit m) := fun h => of_registeredIn rfl (registered_index.2.2.2.2.2.1 _ (of_decide_eq_true h))
theorem adc (o : Operand) : Statement (.adc o) := fun h => of_registeredIn rfl (registered_acc .adc (by decide) _ (of_decide_eq_true h))
theorem sbc (o : Operand) : Statement (.sbc o) := fun h => of_registeredIn rfl (registered_acc .sbc (by decide) _ (of_decide_eq_true h))
theorem cmp (o : Operand) : Statement (.cmp o) := fun h => of_registeredIn rfl (registered_acc .cmp (by decide) _ (of_decide_eq_true h))
theorem cpx (o : Operand) : Statement (.cpx o) := fun h => of_registeredIn rfl (registered_index.2.2.2.2.1 .cpx (by decide) _ (of_decide_eq_true h))
theorem cpy (o : Operand) : Statement (.cpy o) := fun h => of_registeredIn rfl (registered_index.2.2.2.2.1 .cpy (by decide) _ (of_decide_eq_true h))
theorem inc (m : MemOperand) : Statement (.inc m) := fun h => of_registeredIn rfl (registered_rmw .inc (by decide) _ (of_decide_eq_true h))
theorem dec (m : MemOperand) : Statement (.dec m) := fun h => of_registeredIn rfl (registered_rmw .dec (by decide) _ (of_decide_eq_true h))
theorem inx : Statement .inx := fun _ => of_registeredIn rfl (registered_single (.inx, .imp) (by decide))
theorem iny : Statement .iny := fun _ => of_registeredIn rfl (registered_single (.iny, .imp) (by decide))
theorem dex : Statement .dex := fun _ => of_registeredIn rfl (registered_single (.dex, .imp) (by decide))
theorem dey : Statement .dey := fun _ => of_registeredIn rfl (registered_single (.dey, .imp) (by decide))
theorem asl (m : MemOperand) : Statement (.asl m) := fun h => of_registeredIn rfl (registered_rmw .asl (by decide) _ (of_decide_eq_true h))
theorem aslA : Statement .aslA := fun _ => of_registeredIn rfl (registered_single (.aslA, .imp) (by decide))
theorem lsr (m : MemOperand) : Statement (.lsr m) := fun h => of_registeredIn rfl (registered_rmw .lsr (by decide) _ (of_decide_eq_true h))
theorem lsrA : Statement .lsrA := fun _ => of_registeredIn rfl (registered_single (.lsrA, .imp) (by decide))
theorem rol (m : MemOperand) : Statement (.rol m) := fun h => of_registeredIn rfl (registered_rmw .rol (by decide) _ (of_decide_eq_true h))
theorem rolA : Statement .rolA := fun _ => of_registeredIn rfl (registered_single (.rolA, .imp) (by decide))
theorem ror (m : MemOperand) : Statement (.ror m) := fun h => of_registeredIn rfl (registered_rmw .ror (by decide) _ (of_decide_eq_true h))
theorem rorA : Statement .rorA := fun _ => of_registeredIn rfl (registered_single (.rorA, .imp) (by decide))
theorem jmp (m : MemOperand) : Statement (.jmp m) := fun h => of_registeredIn rfl (registered_index.2.2.2.2.2.2 _ (of_decide_eq_true h))
theorem jsr (w : Addr) : Statement (.jsr w) := fun _ => of_registeredIn rfl (registered_single (.jsr, .abs) (by decide))
theorem rts : Statement .rts := fun _ => of_registeredIn rfl (registered_single (.rts, .imp) (by decide))
theorem bpl (off : Byte) : Statement (.bpl off) := fun _ => of_registeredIn rfl (registered_single (.bpl, .rel) (by decide))
theorem bmi (off : Byte) : Statement (.bmi off) := fun _ => of_registeredIn rfl (registered_single (.bmi, .rel) (by decide))
theorem bvc (off : Byte) : Statement (.bvc off) := fun _ => of_registeredIn rfl (registered_single (.bvc, .rel) (by decide))
theorem bvs (off : Byte) : Statement (.bvs off) := fun _ => of_registeredIn rfl (registered_single (.bvs, .rel) (by decide))
theorem bcc (off : Byte) : Statement (.bcc off) := fun _ => of_registeredIn rfl (registered_single (.bcc, .rel) (by decide))
theorem bcs (off : Byte) : Statement (.bcs off) := fun _ => of_registeredIn rfl (registered_single (.bcs, .rel) (by decide))
theorem bne (off : Byte) : Statement (.bne off) := fun _ => of_registeredIn rfl (registered_single (.bne, .rel) (by decide))
theorem beq (off : Byte) : Statement (.beq off) := fun _ => of_registeredIn rfl (registered_single (.beq, .rel) (by decide))
theorem clc : Statement .clc := fun _ => of_registeredIn rfl (registered_single (.clc, .imp) (by decide))
theorem sec : Statement .sec := fun _ => of_registeredIn rfl (registered_single (.sec, .imp) (by decide))
theorem cli : Statement .cli := fun _ => of_registeredIn rfl (registered_single (.cli, .imp) (by decide))
theorem sei : Statement .sei := fun _ => of_registeredIn rfl (registered_single (.sei, .imp) (by decide))
theorem cld : Statement .cld := fun _ => of_registeredIn rfl (registered_single (.cld, .imp) (by decide))
theorem sed : Statement .sed := fun _ => of_registeredIn rfl (registered_single (.sed, .imp) (by decide))
theorem clv : Statement .clv := fun _ => of_registeredIn rfl (registered_single (.clv, .imp) (by decide))
theorem nop : Statement .nop := fun _ => of_registeredIn rfl (registered_single (.nop, .imp) (by decide))
theorem brk : Statement .brk := fun _ => of_registeredIn rfl (registered_single (.brk, .imp) (by decide))
theorem rti : Statement .rti := fun _ => of_registeredIn rfl (registered_single (.rti, .imp) (by decide))
theorem hlt (code : Byte) : Statement (.hlt code) := fun h => ⟨code, rfl, registered_codes.1 _ (of_decide_eq_true h)⟩
theorem unimpl (code : Byte) : Statement (.unimpl code) := fun h => ⟨code, rfl, registered_codes.2.1 _ (of_decide_eq_true h)⟩
theorem slo (m : MemOperand) : Statement (.slo m) := fun h => of_registeredIn rfl (registered_undoc .slo (by decide) _ (of_decide_eq_true h))
theorem rla (m : MemOperand) : Statement (.rla m) := fun h => of_registeredIn rfl (registered_undoc .rla (by decide) _ (of_decide_eq_true h))
theorem sre (m : MemOperand) : Statement (.sre m) := fun h => of_registeredIn rfl (registered_undoc .sre (by decide) _ (of_decide_eq_true h))
theorem rra (m : MemOperand) : Statement (.rra m) := fun h => of_registeredIn rfl (registered_undoc .rra (by decide) _ (of_decide_eq_true h))
theorem dcp (m : MemOperand) : Statement (.dcp m) := fun h => of_registeredIn rfl (registered_undoc .dcp (by decide) _ (of_decide_eq_true h))
theorem isc (m : MemOperand) : Statement (.isc m) := fun h => of_registeredIn rfl (registered_undoc .isc (by decide) _ (of_decide_eq_true h))
theorem anc (code : Byte) (v : Byte) : Statement (.anc code v) := fun h => ⟨code, rfl, registered_codes.2.2 _ (of_decide_eq_true h)⟩
theorem alr (v : Byte) : Statement (.alr v) := fun _ => of_registeredIn rfl (registered_single (.alr, .imm) (by decide))
theorem arr (v : Byte) : Statement (.arr v) := fun _ => of_registeredIn rfl (registered_single (.arr, .imm) (by decide))
theorem sbx (v : Byte) : Statement (.sbx v) := fun _ => of_registeredIn rfl (registered_single (.sbx, .imm) (by decide))

end Registered

end Sys2Proof.Laws
end

