-- ==== Sys2Proof/Laws/Decode.lean ====
section
/-! SUPPORT. What assembling an instruction from its parts can do: the parts it answers with, the parts that give an
instruction back, and that every opcode byte of the registry assembles to a well-formed instruction of its own. -/

namespace Sys2Proof.Laws

open Sys2Proof.Machine

/-- The mode and the bytes of an assembled memory operand. -/
theorem MemOperand_ofMode_parts (mode b1 b2 m) (h : MemOperand.ofMode mode b1 b2 = some m) :
    m.mode = mode ∧ m.bytes = [b1, b2].take mode.operandCount := by
  cases mode <;> simp only [MemOperand.ofMode, Option.some.injEq, reduceCtorEq] at h <;> subst h <;>
    simp [MemOperand.mode, MemOperand.bytes, wordBytes, Mode.operandCount]

/-- The mode and the bytes of an assembled operand. -/
theorem Operand_ofMode_parts (mode b1 b2 m) (h : Operand.ofMode mode b1 b2 = some m) :
    m.mode = mode ∧ m.bytes = [b1, b2].take mode.operandCount := by
  unfold Operand.ofMode at h
  split at h
  · simp only [Option.some.injEq] at h; subst h; exact ⟨rfl, rfl⟩
  · obtain ⟨x, h1, rfl⟩ := Option.map_eq_some_iff.1 h
    exact MemOperand_ofMode_parts _ _ _ _ h1

/-- An inline byte is the first operand byte, in its one mode. -/
theorem inlineByte_some {want mode : Mode} {b1 v : Byte} (h : inlineByte want mode b1 = some v) :
    mode = want ∧ v = b1 := by
  unfold inlineByte at h
  split at h <;> simp_all

/-- An instruction without operand has mode IMP. -/
theorem implied_some {mode : Mode} {i j : Instr} (h : implied mode i = some j) : mode = .imp ∧ j = i := by
  unfold implied at h
  split at h <;> simp_all

/-- The parts of an assembled instruction. -/
theorem ofParts_inv (op mode code b1 b2 i) (h : Instr.ofParts op mode code b1 b2 = some i) :
    i.op = op ∧ i.mode = mode ∧ i.operandBytes = [b1, b2].take mode.operandCount := by
  cases op <;> simp only [Instr.ofParts, reduceCtorEq] at h
  case jsr =>
    split at h <;> simp only [Option.some.injEq, reduceCtorEq] at h
    subst h; rename_i hm; subst hm
    exact ⟨rfl, rfl, by simp [Instr.operandBytes, wordBytes, Mode.operandCount]⟩
  all_goals first
    | (obtain ⟨rfl, rfl⟩ := implied_some h; exact ⟨rfl, rfl, rfl⟩)
    | (obtain ⟨x, h1, rfl⟩ := Option.map_eq_some_iff.1 h
       first
         | exact ⟨rfl, Operand_ofMode_parts _ _ _ _ h1⟩
         | exact ⟨rfl, MemOperand_ofMode_parts _ _ _ _ h1⟩
         | (obtain ⟨rfl, rfl⟩ := inlineByte_some h1; exact ⟨rfl, rfl, rfl⟩))

/-- A memory operand is assembled from its own bytes. -/
theorem MemOperand_ofMode_of (m : MemOperand) (b1 b2 : Byte) (hb : m.bytes = [b1, b2].take m.mode.operandCount) :
    MemOperand.ofMode m.mode b1 b2 = some m := by
  rcases MemOperand_ofMode_bytes m with ⟨b, e, n, h⟩ | ⟨b, b', e, n, h⟩
  · rw [e, n] at hb; simp at hb; subst hb; exact h b2
  · rw [e, n] at hb; simp at hb; obtain ⟨rfl, rfl⟩ := hb; exact h

/-- An operand is assembled from its own bytes. -/
theorem Operand_ofMode_of (o : Operand) (b1 b2 : Byte) (hb : o.bytes = [b1, b2].take o.mode.operandCount) :
    Operand.ofMode o.mode b1 b2 = some o := by
  cases o with
  | imm v => simp [Operand.bytes, Operand.mode, Mode.operandCount] at hb; subst hb; rfl
  | mem m =>
    have := MemOperand_ofMode_of m b1 b2 hb
    cases m <;> simp only [MemOperand.mode] at this <;>
      simp only [Operand.ofMode, Operand.mode, MemOperand.mode, this, Option.map_some]

/-- An instruction is assembled from its own parts. -/
theorem ofParts_of (i : Instr) (hw : i.wellFormed = true) (code : Byte) (hc : i.opcode = some code) (b1 b2 : Byte)
    (hb : i.operandBytes = [b1, b2].take i.mode.operandCount) : Instr.ofParts i.op i.mode code b1 b2 = some i := by
  cases i
  case lda | ldx | ldy | and | ora | eor | adc | sbc | cmp | cpx | cpy =>
    simp only [Instr.ofParts, Instr.op, Instr.mode]; rw [Operand_ofMode_of _ _ _ hb]; rfl
  case sta | stx | sty | bit | inc | dec | asl | lsr | rol | ror | jmp | slo | rla | sre | rra | dcp | isc =>
    simp only [Instr.ofParts, Instr.op, Instr.mode]; rw [MemOperand_ofMode_of _ _ _ hb]; rfl
  case jsr w =>
    have h1 : [lo w, hi w] = [b1, b2] := hb
    simp only [List.cons.injEq, and_true] at h1
    obtain ⟨rfl, rfl⟩ := h1
    show some (Instr.jsr (word (hi w) (lo w))) = _
    rw [word_hi_lo]
  case bpl v | bmi v | bvc v | bvs v | bcc v | bcs v | bne v | beq v | alr v | arr v | sbx v =>
    have : v = b1 := List.head_eq_of_cons_eq hb
    subst this; rfl
  case hlt c | unimpl c =>
    have : c = code := Option.some.inj hc
    subst this; rfl
  case anc c v =>
    have : c = code := Option.some.inj hc
    have h2 : v = b1 := List.head_eq_of_cons_eq hb
    subst this h2; rfl
  all_goals rfl

/-- An instruction has as many operand bytes as its mode says. -/
theorem operandBytes_length (i : Instr) : i.operandBytes.length = i.mode.operandCount := by
  have mo : ∀ m : MemOperand, m.bytes.length = m.mode.operandCount := by intro m; cases m <;> rfl
  have oo : ∀ m : Operand, m.bytes.length = m.mode.operandCount := by intro m; cases m; rfl; exact mo _
  cases i <;> first | rfl | exact mo _ | exact oo _

/-- Every instruction has the property `Registered`. -/
theorem registered_all (i : Instr) : Registered.Statement i := by
  cases i
  · apply Registered.lda
  · apply Registered.ldx
  · apply Registered.ldy
  · apply Registered.sta
  · apply Registered.stx
  · apply Registered.sty
  · apply Registered.tax
  · apply Registered.tay
  · apply Registered.txa
  · apply Registered.tya
  · apply Registered.tsx
  · apply Registered.txs
  · apply Registered.pha
  · apply Registered.pla
  · apply Registered.php
  · apply Registered.plp
  · apply Registered.and
  · apply Registered.ora
  · apply Registered.eor
  · apply Registered.bit
  · apply Registered.adc
  · apply Registered.sbc
  · apply Registered.cmp
  · apply Registered.cpx
  · apply Registered.cpy
  · apply Registered.inc
  · apply Registered.dec
  · apply Registered.inx
  · apply Registered.iny
  · apply Registered.dex
  · apply Registered.dey
  · apply Registered.asl
  · apply Registered.aslA
  · apply Registered.lsr
  · apply Registered.lsrA
  · apply Registered.rol
  · apply Registered.rolA
  · apply Registered.ror
  · apply Registered.rorA
  · apply Registered.jmp
  · apply Registered.jsr
  · apply Registered.rts
  · apply Registered.bpl
  · apply Registered.bmi
  · apply Registered.bvc
  · apply Registered.bvs
  · apply Registered.bcc
  · apply Registered.bcs
  · apply Registered.bne
  · apply Registered.beq
  · apply Registered.clc
  · apply Registered.sec
  · apply Registered.cli
  · apply Registered.sei
  · apply Registered.cld
  · apply Registered.sed
  · apply Registered.clv
  · apply Registered.nop
  · apply Registered.brk
  · apply Registered.rti
  · apply Registered.hlt
  · apply Registered.unimpl
  · apply Registered.slo
  · apply Registered.rla
  · apply Registered.sre
  · apply Registered.rra
  · apply Registered.dcp
  · apply Registered.isc
  · apply Registered.anc
  · apply Registered.alr
  · apply Registered.arr
  · apply Registered.sbx

/-- Every opcode byte assembles to a well-formed instruction whose opcode is that byte. -/
theorem ofParts_sweep : ∀ code : Byte,
    (Instr.ofParts (lookup code.toNat).op (lookup code.toNat).mode code 0 0).any
      (fun i => i.wellFormed && decide (i.opcode = some code)) = true := by decide +kernel

/-- The operand bytes do not decide the mode of a memory operand. -/
theorem MemOperand_ofMode_congr (mode b1 b2) (m0 : MemOperand) (h : MemOperand.ofMode mode 0 0 = some m0) :
    ∃ m, MemOperand.ofMode mode b1 b2 = some m ∧ m.mode = m0.mode := by
  cases mode <;> simp only [MemOperand.ofMode, Option.some.injEq, reduceCtorEq] at h <;> subst h <;>
    exact ⟨_, rfl, rfl⟩

/-- The operand bytes do not decide the mode of an operand. -/
theorem Operand_ofMode_congr (mode b1 b2) (o0 : Operand) (h : Operand.ofMode mode 0 0 = some o0) :
    ∃ o, Operand.ofMode mode b1 b2 = some o ∧ o.mode = o0.mode := by
  cases mode <;>
    simp only [Operand.ofMode, MemOperand.ofMode, Option.map_some, Option.map_none, Option.some.injEq,
      reduceCtorEq] at h <;>
    subst h <;> exact ⟨_, rfl, rfl⟩

/-- The operand bytes decide neither whether an instruction is assembled nor its form. -/
theorem ofParts_congr (op mode code b1 b2) (i0 : Instr) (h : Instr.ofParts op mode code 0 0 = some i0) :
    ∃ i, Instr.ofParts op mode code b1 b2 = some i ∧ i.wellFormed = i0.wellFormed ∧ i.opcode = i0.opcode := by
  cases op <;> simp only [Instr.ofParts, reduceCtorEq] at h ⊢
  case jsr =>
    split at h <;> simp only [Option.some.injEq, reduceCtorEq] at h
    subst h; rename_i hm; subst hm; exact ⟨_, rfl, rfl, rfl⟩
  all_goals first
    | exact ⟨i0, h, rfl, rfl⟩
    | (obtain ⟨x, h1, rfl⟩ := Option.map_eq_some_iff.1 h
       first
         | (obtain ⟨m, e, em⟩ := MemOperand_ofMode_congr _ b1 b2 x h1
            refine ⟨_, by rw [e]; rfl, ?_, ?_⟩ <;> simp [Instr.wellFormed, Instr.opcode, Instr.mode, Instr.op, em])
         | (obtain ⟨m, e, em⟩ := Operand_ofMode_congr _ b1 b2 x h1
            refine ⟨_, by rw [e]; rfl, ?_, ?_⟩ <;> simp [Instr.wellFormed, Instr.opcode, Instr.mode, Instr.op, em])
         | (obtain ⟨rfl, rfl⟩ := inlineByte_some h1; exact ⟨_, rfl, rfl, rfl⟩))

end Sys2Proof.Laws
end

