-- ==== Sys2Proof/Laws/Exec.lean ====
section
/-! SUPPORT. What the stack sequences leave, as records; what an instruction can do to memory, the bank select, the dirty
table and the host's side; and what it can add to the cycle clock. -/

namespace Sys2Proof.Machine

/-! ### Two pushes, an entry, a return -/

theorem stackAddr_below (sp : Byte) : stackAddr (sp - 1) ≠ stackAddr sp := by
  rw [Ne, stackAddr_inj]; bv_omega

/-- A 16-bit push, as a record. -/
theorem pushWord_eq (w : Addr) (s : State) : pushWord w s =
    { s with
      mem := Memory.set (Memory.set s.mem (stackAddr s.sp).toNat (hi w)) (stackAddr (s.sp - 1)).toNat (lo w)
      sp := s.sp - 1 - 1 } := by
  unfold pushWord; rw [push_eq, push_eq]

/-- Every byte of memory after a 16-bit push. -/
theorem cell_pushWord (w : Addr) (s : State) (b : Addr) : cell (pushWord w s) b =
    if b = stackAddr (s.sp - 1) then lo w else if b = stackAddr s.sp then hi w else cell s b := by
  unfold pushWord; rw [cell_push, cell_push, push_sp]

/-- An interrupt entry, as a record: three bytes of memory, SP, I, PC (R322). -/
theorem enterInterrupt_writes (vec : Addr) (b : Bool) (skew : Addr) (s : State) :
    ∃ mem, (∀ a : Addr, Memory.get mem a.toNat =
        if a = stackAddr (s.sp - 1 - 1) then packP b s.flags
        else if a = stackAddr (s.sp - 1) then lo (s.pc + skew)
        else if a = stackAddr s.sp then hi (s.pc + skew) else cell s a) ∧
    enterInterrupt vec b skew s = { s with
      mem := mem, sp := s.sp - 1 - 1 - 1, flags := { s.flags with i := true },
      pc := memRead16 { s with mem := mem } vec } := by
  refine ⟨(push (packP b s.flags) (pushWord (s.pc + skew) s)).mem, fun a => ?_, ?_⟩
  · show cell (push _ _) a = _
    rw [cell_push, cell_pushWord, pushWord_eq]
  · unfold enterInterrupt; rw [pushWord_eq, push_eq]; rfl

/-- A return from interrupt, as a record (R229). -/
theorem returnFromInterrupt_eq (s : State) : returnFromInterrupt s = { s with
      flags := unpackP (cell s (stackAddr (s.sp + 1)))
      sp := s.sp + 1 + 1 + 1
      pc := word (cell s (stackAddr (s.sp + 1 + 1 + 1))) (cell s (stackAddr (s.sp + 1 + 1))) } := by
  unfold returnFromInterrupt pulledWord
  simp only [pulled_eq]; rfl

/-! ### Penalties -/

/-- No penalty outside the three penalized modes (R109). -/
theorem penalty_zero {m : MemOperand} {s} (h : m.mode ∉ [Mode.abxp, .abyp, .izyp]) : penalty m s = 0 := by
  cases m <;> first | rfl | (exfalso; apply h; simp [MemOperand.mode])

/-- The most a mode can add to a base cost: 1 for a page crossing, 2 for a branch (R92). -/
def maxPenalty (m : Mode) : Nat :=
  if m ∈ [Mode.abxp, .abyp, .izyp] then 1 else if m = .rel then 2 else 0

theorem penalty_le (m : MemOperand) (s : State) : penalty m s ≤ maxPenalty m.mode := by
  cases m <;> first
    | exact Nat.zero_le _
    | (simp only [penalty, pageCross]
       split
       · exact Nat.zero_le _
       · exact Nat.le_refl 1)

theorem operandPenalty_le (o : Operand) (s : State) : operandPenalty o s ≤ maxPenalty o.mode := by
  cases o
  · exact Nat.zero_le _
  · exact penalty_le _ _

/-! ### What an instruction does to memory and to the host's side -/

/-- The fields an instruction changes only through `memWrite`, or not at all. -/
structure SameStore (t u : State) : Prop where
  mem : u.mem = t.mem
  dirty : u.dirty = t.dirty
  bankSel : u.bankSel = t.bankSel
  host : SameHostSide t u

/-- `t` comes from `s` by writes through `memWrite` and by updates of registers, flags, the clock and the fault latch
alone. -/
inductive Touched : State → State → Prop where
  | refl (s) : Touched s s
  | write (s t a v) : Touched s t → Touched s (memWrite a v t)
  | regs (s t u : State) : Touched s t → SameStore t u → Touched s u

/-- An update of registers, flags, the clock and the latch. -/
theorem Touched.own {s u : State} (h : SameStore s u) : Touched s u := .regs _ _ _ (.refl s) h

theorem Touched.push {s t v} (h : Touched s t) : Touched s (push v t) :=
  .regs _ (memWrite (stackAddr t.sp) v t) _ (.write _ _ _ _ h) ⟨rfl, rfl, rfl, rfl, rfl, rfl, rfl, rfl⟩

theorem Touched.pushWord {s t w} (h : Touched s t) : Touched s (pushWord w t) := h.push.push

theorem Touched.charged {s t op m p} (h : Touched s t) : Touched s (charged op m p t) :=
  .regs _ _ _ h ⟨rfl, rfl, rfl, rfl, rfl, rfl, rfl, rfl⟩

theorem Touched.entry {s t vec b sk} (h : Touched s t) : Touched s (enterInterrupt vec b sk t) :=
  .regs _ _ _ (h.pushWord.push) ⟨rfl, rfl, rfl, rfl, rfl, rfl, rfl, rfl⟩

/-- Every instruction touches memory through `memWrite` only, and nothing of the host's side. -/
theorem exec_touches (i : Instr) (s t : State) (h : exec i s = .next t) : Touched s t := by
  have st : ∀ op m v, store op m v s = .next t → Touched s t := by
    rintro op m v ⟨⟩
    exact (Touched.write _ _ _ _ (.refl s)).charged
  have br : ∀ op c o, branch op c o s = .next t → Touched s t := by
    intro op c o h
    rw [branch_eq] at h
    obtain ⟨⟩ := h
    cases c <;> exact .own ⟨rfl, rfl, rfl, rfl, rfl, rfl, rfl, rfl⟩
  have own : ∀ v, ∀ f ∈ [shiftL, shiftR, rotL, rotR, incByte, decByte], Touched s (f v s).2 := by
    intro v f hf
    simp only [List.mem_cons, List.not_mem_nil, or_false] at hf
    rcases hf with rfl | rfl | rfl | rfl | rfl | rfl <;> exact .own ⟨rfl, rfl, rfl, rfl, rfl, rfl, rfl, rfl⟩
  have mo : ∀ op m, ∀ f ∈ [shiftL, shiftR, rotL, rotR, incByte, decByte],
      Machine.modify op m f s = .next t → Touched s t := by
    rintro op m f hf ⟨⟩
    exact (Touched.write _ _ _ _ (own _ f hf)).charged
  have mt : ∀ op m g, (∀ v u, SameStore u (g v u)) → ∀ f ∈ [shiftL, shiftR, rotL, rotR, incByte, decByte],
      modifyThen op m f g s = .next t → Touched s t := by
    rintro op m g hg f hf ⟨⟩
    exact (Touched.regs _ _ _ (Touched.write _ _ _ _ (own _ f hf)) (hg _ _)).charged
  cases i
  case sta | stx | sty => exact st _ _ _ h
  case bpl | bmi | bvc | bvs | bcc | bcs | bne | beq => exact br _ _ _ h
  case inc | dec | asl | lsr | rol | ror => exact mo _ _ _ (by simp) h
  case slo | rla | sre | rra | dcp | isc =>
    simp only [exec, execSlo, execRla, execSre, execRra, execDcp, execIsc] at h
    refine mt _ _ _ ?_ _ ?_ h
    · intros; exact ⟨rfl, rfl, rfl, rfl, rfl, rfl, rfl, rfl⟩
    · simp
  case pha | php => obtain ⟨⟩ := h; exact (Touched.push (.refl s)).charged
  case jsr w =>
    obtain ⟨⟩ := h
    exact .regs _ (pushWord (s.pc - 1) s) _ (Touched.pushWord (.refl s)) ⟨rfl, rfl, rfl, rfl, rfl, rfl, rfl, rfl⟩
  case brk => obtain ⟨⟩ := h; exact (Touched.entry (.refl s)).charged
  all_goals obtain ⟨⟩ := h; exact .own ⟨rfl, rfl, rfl, rfl, rfl, rfl, rfl, rfl⟩

/-! ### What an instruction adds to the clock -/

theorem branchCycles_le (cond : Bool) (off : Byte) (s : State) : branchCycles cond off s ≤ 2 := by
  simp only [branchCycles, pageCross]
  split <;> (try split) <;> decide

/-- An instruction adds at most its mode's most (R92). -/
theorem extraCycles_le (i : Instr) (s : State) : extraCycles i s ≤ maxPenalty i.mode := by
  cases i <;> first
    | exact Nat.zero_le _
    | exact operandPenalty_le _ _
    | exact penalty_le _ _
    | exact branchCycles_le _ _ _

/-- Every instruction but UNIMPL adds its base cost and its penalties to the clock and leaves the latch (R92). -/
theorem exec_charges (i : Instr) (s t : State) (h : exec i s = .next t) (hu : ∀ c, i ≠ .unimpl c) :
    t.fault = s.fault ∧ t.cycles = s.cycles + (baseCycles i.op i.mode + extraCycles i s) := by
  have fin : ∀ op m p (u : State), finish op m p u = .next t → u.cycles = s.cycles → u.fault = s.fault →
      t.fault = s.fault ∧ t.cycles = s.cycles + (baseCycles op m + p) := by
    rintro op m p u ⟨⟩ h1 h2
    exact ⟨h2, by show u.cycles + _ = _; rw [h1]⟩
  have br : ∀ op c o, branch op c o s = .next t →
      t.fault = s.fault ∧ t.cycles = s.cycles + (baseCycles op .rel + branchCycles c o s) := by
    intro op c o h
    rw [branch_eq] at h
    exact fin _ _ _ _ h (by split <;> rfl) (by split <;> rfl)
  have mo : ∀ op m f, (∀ v, (f v s).2.cycles = s.cycles ∧ (f v s).2.fault = s.fault) →
      Machine.modify op m f s = .next t →
      t.fault = s.fault ∧ t.cycles = s.cycles + (baseCycles op m.mode + penalty m s) :=
    fun op m f hf h =>
      fin _ _ _ _ h ((memWrite_cycles _ _ _).trans (hf _).1) ((memWrite_fault _ _ _).trans (hf _).2)
  have mt : ∀ op m f g, (∀ v, (f v s).2.cycles = s.cycles ∧ (f v s).2.fault = s.fault) →
      (∀ v u, (g v u).cycles = u.cycles ∧ (g v u).fault = u.fault) → modifyThen op m f g s = .next t →
      t.fault = s.fault ∧ t.cycles = s.cycles + (baseCycles op m.mode + penalty m s) := fun op m f g hf hg h =>
    fin _ _ _ _ h ((hg _ _).1.trans ((memWrite_cycles _ _ _).trans (hf _).1))
      ((hg _ _).2.trans ((memWrite_fault _ _ _).trans (hf _).2))
  cases i
  case unimpl c => exact absurd rfl (hu c)
  case sta | stx | sty => exact fin _ _ _ _ h (memWrite_cycles _ _ _) (memWrite_fault _ _ _)
  case bpl | bmi | bvc | bvs | bcc | bcs | bne | beq => exact br _ _ _ h
  case inc | dec | asl | lsr | rol | ror => exact mo _ _ _ (fun _ => ⟨rfl, rfl⟩) h
  case slo | rla | sre | rra | dcp | isc =>
    simp only [exec, execSlo, execRla, execSre, execRra, execDcp, execIsc] at h
    refine mt _ _ _ _ ?_ ?_ h <;> intros <;> exact ⟨rfl, rfl⟩
  case pha | php => exact fin _ _ _ _ h (by simp) (by simp)
  case jsr w =>
    simp only [exec, execJsr, pushWord_eq] at h
    exact fin _ _ _ _ h rfl rfl
  case brk =>
    obtain ⟨mem, hm, e⟩ := enterInterrupt_writes cfg.vecIrq true cfg.brkPushSkew s
    simp only [exec, execBrk, e] at h
    exact fin _ _ _ _ h rfl rfl
  case hlt | anc =>
    simp only [exec, execHlt, execAnc, finishCode_eq] at h
    exact fin _ _ _ _ h rfl rfl
  all_goals exact fin _ _ _ _ h rfl rfl

end Sys2Proof.Machine
end

