-- ==== Sys2Proof/Laws/Video.lean ====
section
/-! SUPPORT. Lists joined from lists of one length, read at an index; the pixels of a byte; and that a frame depends on
its rows alone; the scanline of an address by numbers. The kernel must not compare two frames by computing them: cite
`frame_congr` and `frame_toArray`. -/

namespace Sys2Proof.Machine

/-- Element `i` of a join of lists of length `n`. -/
theorem flatMap_getElem_const {α β : Type} (f : α → List β) (n : Nat) (hn : 0 < n) (h : ∀ a, (f a).length = n)
    (l : List α) (i : Nat) (hi : i / n < l.length) (d : i < (l.flatMap f).length) :
    (l.flatMap f)[i] = (f l[i / n])[i % n]'(by rw [h]; exact Nat.mod_lt _ hn) := by
  induction l generalizing i with
  | nil => simp at hi
  | cons a l ih =>
    simp only [List.flatMap_cons]
    rw [List.getElem_append]
    split
    · rename_i hlt; rw [h] at hlt
      have e1 : i / n = 0 := Nat.div_eq_of_lt hlt
      have e2 : i % n = i := Nat.mod_eq_of_lt hlt
      simp [e1, e2]
    · rename_i hge; rw [h] at hge
      have hge : n ≤ i := by omega
      have e1 : i / n = (i - n) / n + 1 := by
        have := Nat.sub_add_cancel hge
        conv_lhs => rw [← this]
        rw [Nat.add_div_right _ hn]
      have e2 : i % n = (i - n) % n := by
        have := Nat.sub_add_cancel hge
        conv_lhs => rw [← this]
        rw [Nat.add_mod_right]
      have hi' : (i - n) / n < l.length := by simp [e1] at hi; omega
      have := ih (i - n) hi' (by rw [flatMap_length_of_const _ n h]; rw [List.length_flatMap] at d; simp [h] at d; omega)
      simp only [h, e1, e2, List.getElem_cons_succ]
      exact this

/-- Pixel `i` of a video byte's fourteen (R303). -/
theorem getElem_bytePixels (v : Byte) (i : Nat) (h : i < (bytePixels v).length) : (bytePixels v)[i] = lut v (i / 2) := by
  have hl : i < 14 := by rw [bytePixels_length] at h; exact h
  have := flatMap_getElem_const (fun d => [lut v d, lut v d]) 2 (by omega) (fun _ => rfl) (List.range 7) i (by simp; omega) h
  unfold bytePixels; rw [this]
  have : i % 2 = 0 ∨ i % 2 = 1 := by omega
  rcases this with h | h <;> simp [h]

theorem frame_toArray (m : Memory) (b : Bank) : (frame m b).toArray = (frameRows m b).toArray := by
  simp only [frame]

theorem pixelRow_toArray (m : Memory) (b : Bank) (r : Nat) : (pixelRow m b r).toArray = (rowPixels m b r).toArray := by
  simp only [pixelRow]

/-- Frames with the same rows are equal. -/
theorem frame_congr {m m' : Memory} {b : Bank} (h : ∀ r < 192, rowPixels m b r = rowPixels m' b r) :
    frame m b = frame m' b := by
  apply Vector.toArray_inj.1
  rw [frame_toArray, frame_toArray]
  congr 1
  unfold frameRows
  rw [List.flatMap_def, List.flatMap_def]
  refine congrArg List.flatten (List.map_congr_left (fun r hr => ?_))
  have : pixelRow m b r = pixelRow m' b r := by
    apply Vector.toArray_inj.1
    rw [pixelRow_toArray, pixelRow_toArray, h r (List.mem_range.1 hr)]
  rw [this]

/-- A scanline and an offset in its window: the line's forty bytes (R49). -/
theorem lineOffset_iff (r o : Nat) (hr : r < 192) : (lineOffset r ≤ o ∧ o < lineOffset r + 40) ↔
    (o < 0x2000 ∧ o % 128 < 120 ∧ r = o / 1024 % 8 + o / 128 % 8 * 8 + o % 128 / 40 * 64) := by
  unfold lineOffset
  have hx : r % 8 < 8 := by omega
  have hy : r / 8 % 8 < 8 := by omega
  have hz : r / 64 % 8 < 3 := by omega
  have hr' : r = r / 64 % 8 * 64 + r / 8 % 8 * 8 + r % 8 := by omega
  generalize r % 8 = x at *
  generalize r / 8 % 8 = y at *
  generalize r / 64 % 8 = z at *
  subst hr'
  clear hr
  have : z = 0 ∨ z = 1 ∨ z = 2 := by omega
  constructor
  · rintro ⟨h1, h2⟩
    obtain ⟨k, rfl⟩ := Nat.exists_eq_add_of_le h1
    have hk : k < 40 := by omega
    rcases this with rfl | rfl | rfl <;> refine ⟨by omega, by omega, ?_⟩ <;> omega
  · rintro ⟨h1, h2, h3⟩
    have e1 : o / 1024 % 8 = x := by rcases this with rfl | rfl | rfl <;> omega
    have e2 : o / 128 % 8 = y := by rcases this with rfl | rfl | rfl <;> omega
    have e3 : o % 128 / 40 = z := by rcases this with rfl | rfl | rfl <;> omega
    have e4 : o / 1024 < 8 := by omega
    omega

/-- The scanline of an offset is the one whose forty bytes hold it: there is at most one (R49). -/
theorem offsetLine_eq_some (o r : Nat) :
    offsetLine o = some r ↔ r < 192 ∧ lineOffset r ≤ o ∧ o < lineOffset r + 40 := by
  have key : ∀ p : Nat → Bool, (∀ k, p k = true ↔ lineOffset k ≤ o ∧ o < lineOffset k + 40) →
      ((List.range 192).find? p = some r ↔ r < 192 ∧ lineOffset r ≤ o ∧ o < lineOffset r + 40) := by
    intro p hp
    constructor
    · intro h
      exact ⟨List.mem_range.1 (List.mem_of_find?_eq_some h), (hp r).1 (List.find?_some h)⟩
    · rintro ⟨hr, hl⟩
      cases h : (List.range 192).find? p with
      | none => exact absurd ((hp r).2 hl) (List.find?_eq_none.1 h r (List.mem_range.2 hr))
      | some k =>
        have hk := List.mem_range.1 (List.mem_of_find?_eq_some h)
        rw [((lineOffset_iff k o hk).1 ((hp k).1 (List.find?_some h))).2.2, ((lineOffset_iff r o hr).1 hl).2.2]
  exact key _ (fun k => by simp)

/-- The dirty-table entry of an address in a bank's window, by numbers (R22, R48, R49). -/
theorem dirtyIndex_eq_some (b : Bank) (a : Addr) (i : Nat) : dirtyIndex b a = some i ↔
    (bankLine b ≤ i ∧ i < bankLine b + 192) ∧
    ((bankBase b).toNat ≤ a.toNat ∧ a.toNat < (bankBase b).toNat + cfg.vbankSize) ∧
    (bankBase b).toNat + lineOffset (i - bankLine b) ≤ a.toNat ∧
      a.toNat < (bankBase b).toNat + lineOffset (i - bankLine b) + 40 := by
  unfold dirtyIndex
  split
  · rename_i hw
    rw [Option.map_eq_some_iff]
    constructor
    · rintro ⟨r, hr, rfl⟩
      have := (offsetLine_eq_some _ _).1 hr
      rw [Nat.add_sub_cancel_left]
      omega
    · rintro ⟨hi, _, hl⟩
      exact ⟨i - bankLine b, (offsetLine_eq_some _ _).2 (by omega), by omega⟩
  · rename_i hw
    simp [hw]

/-- A write to a window marks the scanline of its address, by numbers. -/
theorem dirtyIndex_iff_onScanline (i : Fin 384) (a : Addr) :
    dirtyIndex .bank0 a = some i.val ∨ dirtyIndex .bank1 a = some i.val ↔ OnScanline i a := by
  have hi := i.isLt
  rw [dirtyIndex_eq_some, dirtyIndex_eq_some]
  simp only [bankLine, bankBase, OnScanline]
  by_cases h : i.val < 192
  · simp only [if_pos h, Nat.mod_eq_of_lt h, Nat.sub_zero]
    omega
  · have e : i.val % 192 = i.val - 192 := by omega
    simp only [if_neg h, e]
    omega

end Sys2Proof.Machine
end

