-- ==== Sys2Proof/Tests/Slice0.lean ====
section
/-! SUPPORT. The model's own tests. Words are written out from the spec's encodings (30_encoding.md R72 to R78); the
one-step vectors and their ids (V1.1 ...) are those of 95_test_vectors.md, whose expected values the spec derives from
its rules; the witnesses show, for each statement with hypotheses, a concrete state and operands that meet them. -/

namespace Sys2Proof.Tests.Slice0

open Sys2Proof Sys2Proof.Machine

/-! ### The configuration -/

/-- `OPMAP` meets what R73, R77 and R79 ask of it, and the other values what R15, R47 to R49, R53 and R93 ask. -/
theorem test_parameters_acceptable : cfg.Acceptable := ⟨by decide +kernel, by decide⟩

/-! ### WellFormed: for each check an ill-formed instruction, refused -/

/-- Operand forms the lists of R75 do not give. -/
theorem test_illformed_documented :
    ∀ i ∈ [Instr.lda (.mem (.zpy 0x10#8)), .ldx (.mem (.zpx 0x10#8)), .ldy (.mem (.zpy 0x10#8)),
      .sta (.abxp 0x1234#16), .stx (.zpx 0x10#8), .sty (.zpy 0x10#8), .and (.mem (.abx 0x1234#16)),
      .ora (.mem (.izy 0x10#8)), .eor (.mem (.ind 0x1234#16)), .adc (.mem (.aby 0x1234#16)),
      .sbc (.mem (.zpy 0x10#8)), .cmp (.mem (.abx 0x1234#16)), .bit (.zpx 0x10#8),
      .cpx (.mem (.zpx 0x10#8)), .cpy (.mem (.abxp 0x1234#16)), .inc (.abxp 0x1234#16), .dec (.izx 0x10#8),
      .asl (.aby 0x1234#16), .lsr (.zpy 0x10#8), .rol (.izy 0x10#8), .ror (.ind 0x1234#16), .jmp (.abx 0x1234#16)],
      i.wellFormed = false := by decide +kernel

/-- Forms and opcode bytes R76 to R78 do not give. -/
theorem test_illformed_others :
    ∀ i ∈ [Instr.hlt 0x00#8, .unimpl 0x02#8, .anc 0x4B#8 0x01#8, .slo (.izyp 0x10#8), .rla (.abxp 0x1234#16),
      .sre (.zpy 0x10#8), .rra (.ind 0x1234#16), .dcp (.abyp 0x1234#16), .isc (.izyp 0x10#8)],
      i.wellFormed = false := by decide +kernel

/-! ### Decoding: every constructor from a word of the spec -/

/-- Do the bytes decode to the instruction, with nothing left? -/
def reads (p : List Byte × Instr) : Bool := decide (decode p.1 = .ok p.2 [])

theorem test_decode_loads_stores_transfers :
    ∀ p ∈ [([0xA9#8, 0x10#8], Instr.lda (.imm 0x10#8)), ([0xB5#8, 0xFE#8], .lda (.mem (.zpx 0xFE#8))),
      ([0xA1#8, 0xFB#8], .lda (.mem (.izx 0xFB#8))), ([0xB1#8, 0x20#8], .lda (.mem (.izyp 0x20#8))),
      ([0xB9#8, 0xF8#8, 0x12#8], .lda (.mem (.abyp 0x12F8#16))), ([0xB6#8, 0xF8#8], .ldx (.mem (.zpy 0xF8#8))),
      ([0xBC#8, 0xFF#8, 0x12#8], .ldy (.mem (.abxp 0x12FF#16))), ([0x9D#8, 0xFE#8, 0x12#8], .sta (.abx 0x12FE#16)),
      ([0x91#8, 0x20#8], .sta (.izy 0x20#8)), ([0x96#8, 0xF8#8], .stx (.zpy 0xF8#8)),
      ([0x8C#8, 0x34#8, 0x12#8], .sty (.abs 0x1234#16)), ([0xAA#8], .tax), ([0xA8#8], .tay), ([0x8A#8], .txa),
      ([0x98#8], .tya), ([0xBA#8], .tsx), ([0x9A#8], .txs)], reads p = true := by decide +kernel

theorem test_decode_stack_logic_arith :
    ∀ p ∈ [([0x48#8], Instr.pha), ([0x68#8], .pla), ([0x08#8], .php), ([0x28#8], .plp),
      ([0x29#8, 0x0F#8], .and (.imm 0x0F#8)), ([0x09#8, 0x80#8], .ora (.imm 0x80#8)),
      ([0x49#8, 0xFF#8], .eor (.imm 0xFF#8)), ([0x24#8, 0x10#8], .bit (.zp 0x10#8)),
      ([0x2C#8, 0x34#8, 0x12#8], .bit (.abs 0x1234#16)), ([0x69#8, 0x10#8], .adc (.imm 0x10#8)),
      ([0xE9#8, 0xF0#8], .sbc (.imm 0xF0#8)), ([0xC9#8, 0x42#8], .cmp (.imm 0x42#8)),
      ([0xE4#8, 0x10#8], .cpx (.mem (.zp 0x10#8))), ([0xCC#8, 0x34#8, 0x12#8], .cpy (.mem (.abs 0x1234#16)))],
      reads p = true := by decide +kernel

theorem test_decode_incdec_shift :
    ∀ p ∈ [([0xFE#8, 0xFE#8, 0x12#8], Instr.inc (.abx 0x12FE#16)), ([0xD6#8, 0x10#8], .dec (.zpx 0x10#8)),
      ([0xE8#8], .inx), ([0xC8#8], .iny), ([0xCA#8], .dex), ([0x88#8], .dey), ([0x06#8, 0x10#8], .asl (.zp 0x10#8)),
      ([0x0A#8], .aslA), ([0x5E#8, 0xFE#8, 0x12#8], .lsr (.abx 0x12FE#16)), ([0x4A#8], .lsrA),
      ([0x26#8, 0x10#8], .rol (.zp 0x10#8)), ([0x2A#8], .rolA), ([0x66#8, 0x10#8], .ror (.zp 0x10#8)),
      ([0x6A#8], .rorA)], reads p = true := by decide +kernel

theorem test_decode_control_system :
    ∀ p ∈ [([0x4C#8, 0x00#8, 0x07#8], Instr.jmp (.abs 0x0700#16)), ([0x6C#8, 0x80#8, 0x02#8], .jmp (.ind 0x0280#16)),
      ([0x20#8, 0x00#8, 0x07#8], .jsr 0x0700#16), ([0x60#8], .rts), ([0x10#8, 0x05#8], .bpl 0x05#8),
      ([0x30#8, 0xFE#8], .bmi 0xFE#8), ([0x50#8, 0x7F#8], .bvc 0x7F#8), ([0x70#8, 0x80#8], .bvs 0x80#8),
      ([0x90#8, 0x00#8], .bcc 0x00#8), ([0xB0#8, 0x02#8], .bcs 0x02#8), ([0xD0#8, 0xFC#8], .bne 0xFC#8),
      ([0xF0#8, 0x10#8], .beq 0x10#8), ([0x18#8], .clc), ([0x38#8], .sec), ([0x58#8], .cli), ([0x78#8], .sei),
      ([0xD8#8], .cld), ([0xF8#8], .sed), ([0xB8#8], .clv), ([0xEA#8], .nop), ([0x00#8], .brk), ([0x40#8], .rti),
      ([0x92#8], .hlt 0x92#8), ([0x80#8], .unimpl 0x80#8)], reads p = true := by decide +kernel

theorem test_decode_undocumented :
    ∀ p ∈ [([0x07#8, 0x10#8], Instr.slo (.zp 0x10#8)), ([0x33#8, 0x20#8], .rla (.izy 0x20#8)),
      ([0x5F#8, 0x34#8, 0x12#8], .sre (.abx 0x1234#16)), ([0x7B#8, 0x34#8, 0x12#8], .rra (.aby 0x1234#16)),
      ([0xC3#8, 0x20#8], .dcp (.izx 0x20#8)), ([0xEF#8, 0x34#8, 0x12#8], .isc (.abs 0x1234#16)),
      ([0x0B#8, 0x80#8], .anc 0x0B#8 0x80#8), ([0x2B#8, 0x0F#8], .anc 0x2B#8 0x0F#8),
      ([0x4B#8, 0x03#8], .alr 0x03#8), ([0x6B#8, 0xFF#8], .arr 0xFF#8), ([0xCB#8, 0x01#8], .sbx 0x01#8)],
      reads p = true := by decide +kernel

/-- A list that ends inside an instruction is rejected by name (R70). -/
theorem test_decode_truncated :
    decode [] = .error .truncated ∧ decode [0xA9#8] = .error .truncated ∧
    decode [0xAD#8, 0x34#8] = .error .truncated := by decide +kernel

/-- The table's numbering: the first byte in bits 7..0; operand bytes without bits are zero. -/
theorem test_decode_table_word :
    decodeTableWord 24 0x1234AD = some (.lda (.mem (.abs 0x1234#16))) ∧
    decodeTableWord 8 0xA9 = some (.lda (.imm 0x00#8)) ∧ decodeTableWord 8 0xEA = some .nop := by decide +kernel

/-- A placed instruction runs as the next step, from reset and where PC stands on the `SW_RDBANK` switch. -/
theorem test_placed_instruction_runs :
    nextEvent (State.reset.withFetchWord 24 0x1234AD) = .instr (.lda (.mem (.abs 0x1234#16))) ∧
    nextEvent ({ State.reset with pc := 0xC01B#16 }.withFetchWord 16 0x55A9) = .instr (.lda (.imm 0x55#8)) := by
  decide +kernel

/-! ### One step: the vectors of the spec -/

/-- The start of a vector: what differs from the default start of 95_test_vectors.md. Flags are six binary digits in the
order N V D I Z C. -/
structure Start where
  bytes : List Nat
  org : Nat := 0x0600
  a : Nat := 0
  x : Nat := 0
  y : Nat := 0
  sp : Nat := 0xFF
  flags : Nat := 0
  cells : List (Nat × Nat) := []
  bank1 : Bool := false

/-- The end of a vector: registers, flags, the cost, the cells listed and the bank. -/
structure End where
  a : Nat := 0
  x : Nat := 0
  y : Nat := 0
  sp : Nat := 0xFF
  pc : Nat
  flags : Nat := 0
  cost : Nat
  cells : List (Nat × Nat) := []
  bank1 : Bool := false

/-- Flags from six binary digits. -/
def flagsOf (w : Nat) : Flags :=
  ⟨w.testBit 5, w.testBit 4, w.testBit 3, w.testBit 2, w.testBit 1, w.testBit 0⟩

/-- The state a vector starts from. -/
def Start.state (v : Start) : State :=
  { State.reset with
    a := BitVec.ofNat 8 v.a
    x := BitVec.ofNat 8 v.x
    y := BitVec.ofNat 8 v.y
    sp := BitVec.ofNat 8 v.sp
    pc := BitVec.ofNat 16 v.org
    flags := flagsOf v.flags
    mem := v.cells.foldl (fun m c => Memory.set m c.1 (BitVec.ofNat 8 c.2))
      (Memory.load [] v.org (v.bytes.map (BitVec.ofNat 8)))
    bankSel := if v.bank1 then .bank1 else .bank0
    dirty := Vector.replicate 384 false }

/-- Does one step from the start reach the end? -/
def stepsTo (p : Start × End) : Bool :=
  match step p.1.state with
  | .next t =>
    t.a.toNat == p.2.a && t.x.toNat == p.2.x && t.y.toNat == p.2.y && t.sp.toNat == p.2.sp &&
    t.pc.toNat == p.2.pc && decide (t.flags = flagsOf p.2.flags) && t.cycles == p.2.cost &&
    p.2.cells.all (fun c => (Memory.get t.mem c.1).toNat == c.2) &&
    decide (t.bankSel = if p.2.bank1 then .bank1 else .bank0)
  | .fault _ => false
  | .refused _ => false

/-- V1.1, V1.5, V1.6, V1.9, V1.13, V1.14, V1.16, V1.17, V1.19, V1.46: loads and addressing. -/
theorem test_vectors_loads :
    ∀ p ∈ [(({ bytes := [0xA9, 0x00], a := 0x55 } : Start), ({ pc := 0x602, flags := 0b000010, cost := 2 } : End)),
      ({ bytes := [0xB5, 0xFE], x := 4, cells := [(0x02, 0x99), (0x102, 0x11)] },
        { a := 0x99, x := 4, pc := 0x602, flags := 0b100000, cost := 4 }),
      ({ bytes := [0xB6, 0xF8], y := 0x10, cells := [(0x08, 0x33), (0x108, 0x11)] },
        { x := 0x33, y := 0x10, pc := 0x602, cost := 4 }),
      ({ bytes := [0xBD, 0xFE, 0x12], x := 4, cells := [(0x1302, 1)] }, { a := 1, x := 4, pc := 0x603, cost := 5 }),
      ({ bytes := [0xBC, 0xFF, 0x12] }, { pc := 0x603, flags := 0b000010, cost := 4 }),
      ({ bytes := [0xA1, 0xFB], x := 4,
         cells := [(0xFF, 0x34), (0x00, 0x12), (0x100, 0x99), (0x1234, 0xAB), (0x9934, 0xCD)] },
        { a := 0xAB, x := 4, pc := 0x602, flags := 0b100000, cost := 6 }),
      ({ bytes := [0xB1, 0x20], y := 0x10, cells := [(0x20, 0xF8), (0x21, 0x12), (0x1308, 0x67)] },
        { a := 0x67, y := 0x10, pc := 0x602, cost := 6 }),
      ({ bytes := [0xB1, 0xFF], y := 1, cells := [(0xFF, 0), (0, 0x30), (0x100, 0x40), (0x3001, 0x5A), (0x4001, 0xA5)] },
        { a := 0x5A, y := 1, pc := 0x602, cost := 5 }),
      ({ bytes := [0xAD, 0x1C, 0xC0], cells := [(0xC01C, 0x55)], bank1 := true },
        { a := 0x80, pc := 0x603, flags := 0b100000, cost := 4, bank1 := true }),
      ({ bytes := [0xAD], org := 0xFFFF, cells := [(0, 0x34), (1, 0x12), (0x1234, 0x9C)] },
        { a := 0x9C, pc := 2, flags := 0b100000, cost := 4 })], stepsTo p = true := by decide +kernel

/-- V1.21, V1.22, V1.31, V1.33, V1.35, V1.36: stores, and the switches; V1.37 to V1.43: transfers. -/
theorem test_vectors_stores_transfers :
    ∀ p ∈ [(({ bytes := [0x9D, 0xFE, 0x12], a := 0xAA, x := 4 } : Start),
        ({ a := 0xAA, x := 4, pc := 0x603, cost := 5, cells := [(0x1302, 0xAA)] } : End)),
      ({ bytes := [0x91, 0x20], a := 0xAA, y := 0x10, cells := [(0x20, 0xF8), (0x21, 0x12)] },
        { a := 0xAA, y := 0x10, pc := 0x602, cost := 6, cells := [(0x1308, 0xAA)] }),
      ({ bytes := [0x8D, 0x55, 0xC0], a := 0x12, cells := [(0xC055, 0x77)] },
        { a := 0x12, pc := 0x603, cost := 4, cells := [(0xC055, 0x77)], bank1 := true }),
      ({ bytes := [0x8D, 0x1C, 0xC0], a := 0x12 }, { a := 0x12, pc := 0x603, cost := 4, cells := [(0xC01C, 0x12)] }),
      ({ bytes := [0x96, 0xF8], x := 0x5A, y := 0x10 },
        { x := 0x5A, y := 0x10, pc := 0x602, cost := 4, cells := [(8, 0x5A)] }),
      ({ bytes := [0x8C, 0x34, 0x12], y := 0xA5 }, { y := 0xA5, pc := 0x603, cost := 4, cells := [(0x1234, 0xA5)] }),
      ({ bytes := [0xAA], a := 0x80 }, { a := 0x80, x := 0x80, pc := 0x601, flags := 0b100000, cost := 2 }),
      ({ bytes := [0xA8], y := 0x11 }, { pc := 0x601, flags := 0b000010, cost := 2 }),
      ({ bytes := [0x8A], x := 0x7F }, { a := 0x7F, x := 0x7F, pc := 0x601, cost := 2 }),
      ({ bytes := [0x98], y := 0xFF }, { a := 0xFF, y := 0xFF, pc := 0x601, flags := 0b100000, cost := 2 }),
      ({ bytes := [0xBA] }, { x := 0xFF, pc := 0x601, flags := 0b100000, cost := 2 }),
      ({ bytes := [0x9A], flags := 0b100000 }, { sp := 0, pc := 0x601, flags := 0b100000, cost := 2 })],
      stepsTo p = true := by decide +kernel

/-- V1.24 to V1.30: which scanline a store marks. -/
theorem test_store_marks_scanline :
    ∀ p ∈ [(0x2000#16, some 0), (0x2400#16, some 1), (0x3FF7#16, some 191), (0x2078#16, none), (0x4000#16, some 192),
      (0x5FF7#16, some 383), (0x6000#16, none)],
      (memWrite p.1 0x01#8 ({ bytes := [] } : Start).state).dirty.toList =
        (match p.2 with
        | some i => List.replicate i false ++ true :: List.replicate (383 - i) false
        | none => List.replicate 384 false) := by decide +kernel

/-- V2.2, V2.4, V2.7, V2.9, V2.11: pushes and pulls. -/
theorem test_vectors_stack :
    ∀ p ∈ [(({ bytes := [0x48], a := 0x42, sp := 0 } : Start),
        ({ a := 0x42, pc := 0x601, cost := 3, cells := [(0x100, 0x42)] } : End)),
      ({ bytes := [0x68], a := 0x11 }, { sp := 0, pc := 0x601, flags := 0b000010, cost := 4 }),
      ({ bytes := [0x08], flags := 0b100001 },
        { sp := 0xFE, pc := 0x601, flags := 0b100001, cost := 3, cells := [(0x1FF, 0xB1)] }),
      ({ bytes := [0x28], sp := 0xFE, cells := [(0x1FF, 0xFF)] }, { pc := 0x601, flags := 0b111111, cost := 4 }),
      ({ bytes := [0x28], sp := 0xFE, cells := [(0x1FF, 0x30)] }, { pc := 0x601, cost := 4 })],
      stepsTo p = true := by decide +kernel

/-- V3.1, V3.3, V3.6, V3.7, V3.8, V3.11, V3.22, V3.26, V3.35, V3.39, V3.41, V3.44, V3.46. -/
theorem test_vectors_logic_arith :
    ∀ p ∈ [(({ bytes := [0x29, 0x0F], a := 0xF0 } : Start), ({ pc := 0x602, flags := 0b000010, cost := 2 } : End)),
      ({ bytes := [0x09, 0x80], a := 1 }, { a := 0x81, pc := 0x602, flags := 0b100000, cost := 2 }),
      ({ bytes := [0x49, 0xFF], a := 0x55 }, { a := 0xAA, pc := 0x602, flags := 0b100000, cost := 2 }),
      ({ bytes := [0x24, 0x10], a := 1, cells := [(0x10, 0xC0)] }, { a := 1, pc := 0x602, flags := 0b110010, cost := 3 }),
      ({ bytes := [0x24, 0x10], a := 0xFF, flags := 0b110000, cells := [(0x10, 1)] },
        { a := 0xFF, pc := 0x602, cost := 3 }),
      ({ bytes := [0x69, 0x50], a := 0x50 }, { a := 0xA0, pc := 0x602, flags := 0b110000, cost := 2 }),
      ({ bytes := [0x69, 0x01], a := 9, flags := 0b001000 }, { a := 0x0A, pc := 0x602, flags := 0b001000, cost := 2 }),
      ({ bytes := [0xE9, 0xB0], a := 0x50, flags := 1 }, { a := 0xA0, pc := 0x602, flags := 0b110000, cost := 2 }),
      ({ bytes := [0xE9, 0x01], a := 0x80, flags := 1 }, { a := 0x7F, pc := 0x602, flags := 0b010001, cost := 2 }),
      ({ bytes := [0xC9, 0x43], a := 0x42, flags := 1 }, { a := 0x42, pc := 0x602, flags := 0b100000, cost := 2 }),
      ({ bytes := [0xC9, 0x00], a := 0x80, flags := 0b010000 }, { a := 0x80, pc := 0x602, flags := 0b110001, cost := 2 }),
      ({ bytes := [0xE0, 0x10], x := 0x10 }, { x := 0x10, pc := 0x602, flags := 0b000011, cost := 2 }),
      ({ bytes := [0xC0, 0x7F], y := 0x80 }, { y := 0x80, pc := 0x602, flags := 0b000001, cost := 2 })],
      stepsTo p = true := by decide +kernel

/-- V4.1, V4.3, V4.5, V4.6, V4.8, V4.9, V4.11, V4.12, V4.14, V4.15, V4.16, V4.17, V4.18, V4.20, V4.21, V4.24, V4.25. -/
theorem test_vectors_incdec_shift :
    ∀ p ∈ [(({ bytes := [0xE6, 0x10], flags := 0b010001, cells := [(0x10, 0xFF)] } : Start),
        ({ pc := 0x602, flags := 0b010011, cost := 5, cells := [(0x10, 0)] } : End)),
      ({ bytes := [0xFE, 0xFE, 0x12], x := 4 }, { x := 4, pc := 0x603, cost := 7, cells := [(0x1302, 1)] }),
      ({ bytes := [0xD6, 0x10], x := 0xF0, cells := [(0, 1)] },
        { x := 0xF0, pc := 0x602, flags := 0b000010, cost := 6, cells := [(0, 0)] }),
      ({ bytes := [0xE8], x := 0xFF, flags := 1 }, { pc := 0x601, flags := 0b000011, cost := 2 }),
      ({ bytes := [0xC8], y := 0xFF }, { pc := 0x601, flags := 0b000010, cost := 2 }),
      ({ bytes := [0xCA] }, { x := 0xFF, pc := 0x601, flags := 0b100000, cost := 2 }),
      ({ bytes := [0x88] }, { y := 0xFF, pc := 0x601, flags := 0b100000, cost := 2 }),
      ({ bytes := [0x06, 0x10], cells := [(0x10, 0x81)] }, { pc := 0x602, flags := 1, cost := 5, cells := [(0x10, 2)] }),
      ({ bytes := [0x0A], a := 0x40, flags := 1 }, { a := 0x80, pc := 0x601, flags := 0b100000, cost := 2 }),
      ({ bytes := [0x46, 0x10], flags := 0b100000, cells := [(0x10, 1)] },
        { pc := 0x602, flags := 0b000011, cost := 5, cells := [(0x10, 0)] }),
      ({ bytes := [0x4A], a := 0x80 }, { a := 0x40, pc := 0x601, cost := 2 }),
      ({ bytes := [0x26, 0x10], flags := 1, cells := [(0x10, 0x80)] },
        { pc := 0x602, flags := 1, cost := 5, cells := [(0x10, 1)] }),
      ({ bytes := [0x2A], a := 0x40 }, { a := 0x80, pc := 0x601, flags := 0b100000, cost := 2 }),
      ({ bytes := [0x66, 0x10], cells := [(0x10, 1)] },
        { pc := 0x602, flags := 0b000011, cost := 5, cells := [(0x10, 0)] }),
      ({ bytes := [0x6A], a := 2, flags := 1 }, { a := 0x81, pc := 0x601, flags := 0b100000, cost := 2 }),
      ({ bytes := [0xEE, 0x55, 0xC0], cells := [(0xC055, 0x7F)] },
        { pc := 0x603, flags := 0b100000, cost := 6, cells := [(0xC055, 0x7F)], bank1 := true }),
      ({ bytes := [0xEE, 0x1C, 0xC0], cells := [(0xC01C, 0x11)], bank1 := true },
        { pc := 0x603, flags := 0b100000, cost := 6, cells := [(0xC01C, 0x81)], bank1 := true })],
      stepsTo p = true := by decide +kernel

/-- V5.1, V5.3, V5.6, V5.8, V5.9, V5.11, V5.12, V5.13, V5.14, V5.15, V5.17, V5.18, V5.20. -/
theorem test_vectors_control :
    ∀ p ∈ [(({ bytes := [0x4C, 0x00, 0x07] } : Start), ({ pc := 0x700, cost := 3 } : End)),
      ({ bytes := [0x6C, 0xFF, 0x02], cells := [(0x2FF, 0x34), (0x200, 0x12), (0x300, 0x99)] }, { pc := 0x1234, cost := 5 }),
      ({ bytes := [0x60], sp := 0xFD, cells := [(0x1FE, 0xFF), (0x1FF, 0xFF)] }, { pc := 0, cost := 6 }),
      ({ bytes := [0x20, 0x00, 0x07], sp := 0 },
        { sp := 0xFE, pc := 0x700, cost := 6, cells := [(0x100, 6), (0x1FF, 2)] }),
      ({ bytes := [0x10, 0x05] }, { pc := 0x607, cost := 3 }),
      ({ bytes := [0x30, 0xFE], flags := 0b100000 }, { pc := 0x600, flags := 0b100000, cost := 3 }),
      ({ bytes := [0x50, 0x7F] }, { pc := 0x681, cost := 3 }),
      ({ bytes := [0x70, 0x80], flags := 0b010000 }, { pc := 0x582, flags := 0b010000, cost := 4 }),
      ({ bytes := [0x90, 0x00] }, { pc := 0x602, cost := 3 }),
      ({ bytes := [0xB0, 0x02], org := 0x6FC, flags := 1 }, { pc := 0x700, flags := 1, cost := 4 }),
      ({ bytes := [0xF0, 0x10], flags := 0b000010 }, { pc := 0x612, flags := 0b000010, cost := 3 }),
      ({ bytes := [0xF0, 0x10] }, { pc := 0x602, cost := 2 }),
      ({ bytes := [0xD0, 0xFD], org := 0x700 }, { pc := 0x6FF, cost := 4 })], stepsTo p = true := by decide +kernel

/-- V6.1 to V6.8, V6.9, V6.11, V6.12, V6.14, V6.16. -/
theorem test_vectors_system :
    ∀ p ∈ [(({ bytes := [0x18], flags := 0b111111 } : Start), ({ pc := 0x601, flags := 0b111110, cost := 2 } : End)),
      ({ bytes := [0x38] }, { pc := 0x601, flags := 1, cost := 2 }),
      ({ bytes := [0x58], flags := 0b111111 }, { pc := 0x601, flags := 0b111011, cost := 2 }),
      ({ bytes := [0x78] }, { pc := 0x601, flags := 0b000100, cost := 2 }),
      ({ bytes := [0xD8], flags := 0b111111 }, { pc := 0x601, flags := 0b110111, cost := 2 }),
      ({ bytes := [0xF8] }, { pc := 0x601, flags := 0b001000, cost := 2 }),
      ({ bytes := [0xB8], flags := 0b111111 }, { pc := 0x601, flags := 0b101111, cost := 2 }),
      ({ bytes := [0xEA], flags := 0b100010 }, { pc := 0x601, flags := 0b100010, cost := 2 }),
      ({ bytes := [0x00], org := 0, cells := [(0xFFFF, 4)] },
        { sp := 0xFC, pc := 0x400, flags := 0b000100, cost := 7, cells := [(0x1FF, 0), (0x1FE, 2), (0x1FD, 0x30)] }),
      ({ bytes := [0x00], sp := 1, flags := 0b001000, cells := [(0xFFFF, 4)] },
        { sp := 0xFE, pc := 0x400, flags := 0b001100, cost := 7, cells := [(0x101, 6), (0x100, 2), (0x1FF, 0x38)] }),
      ({ bytes := [0x40], org := 0x400, sp := 0xFC, cells := [(0x1FD, 0xCF), (0x1FE, 0x34), (0x1FF, 0x12)] },
        { pc := 0x1234, flags := 0b111111, cost := 6 }),
      ({ bytes := [0x02] }, { pc := 0x600, cost := 2 })], stepsTo p = true := by decide +kernel

/-- V7.1, V7.3, V7.4, V7.6, V7.8, V7.9, V7.10, V7.11, V7.12, V7.14, V7.15, V7.18, V7.19, V7.20, V7.23, V7.24. -/
theorem test_vectors_undocumented :
    ∀ p ∈ [(({ bytes := [0x07, 0x10], a := 1, cells := [(0x10, 0x81)] } : Start),
        ({ a := 3, pc := 0x602, flags := 1, cost := 5, cells := [(0x10, 2)] } : End)),
      ({ bytes := [0x13, 0x20], a := 0x80, y := 0x10, cells := [(0x20, 0xF8), (0x21, 0x12), (0x1308, 1)] },
        { a := 0x82, y := 0x10, pc := 0x602, flags := 0b100000, cost := 8, cells := [(0x1308, 2)] }),
      ({ bytes := [0x27, 0x10], a := 0xFF, flags := 1, cells := [(0x10, 0x80)] },
        { a := 1, pc := 0x602, flags := 1, cost := 5, cells := [(0x10, 1)] }),
      ({ bytes := [0x47, 0x10], cells := [(0x10, 3)] },
        { a := 1, pc := 0x602, flags := 1, cost := 5, cells := [(0x10, 1)] }),
      ({ bytes := [0x67, 0x10], a := 0x10, flags := 1, cells := [(0x10, 2)] },
        { a := 0x91, pc := 0x602, flags := 0b100000, cost := 5, cells := [(0x10, 0x81)] }),
      ({ bytes := [0x67, 0x10], a := 0x7F, cells := [(0x10, 1)] },
        { a := 0x80, pc := 0x602, flags := 0b110000, cost := 5, cells := [(0x10, 0)] }),
      ({ bytes := [0xC7, 0x10], cells := [(0x10, 1)] },
        { pc := 0x602, flags := 0b000011, cost := 5, cells := [(0x10, 0)] }),
      ({ bytes := [0xC7, 0x10], a := 0x10, flags := 0b010000 },
        { a := 0x10, pc := 0x602, flags := 0b010000, cost := 5, cells := [(0x10, 0xFF)] }),
      ({ bytes := [0xE7, 0x10], a := 0x20, flags := 1, cells := [(0x10, 0x0F)] },
        { a := 0x10, pc := 0x602, flags := 1, cost := 5, cells := [(0x10, 0x10)] }),
      ({ bytes := [0xE7, 0x10], a := 0x80 },
        { a := 0x7E, pc := 0x602, flags := 0b010001, cost := 5, cells := [(0x10, 1)] }),
      ({ bytes := [0x0B, 0x80], a := 0xF0 }, { a := 0x80, pc := 0x602, flags := 0b100001, cost := 2 }),
      ({ bytes := [0x4B, 0xFE], a := 1, flags := 0b100001 }, { pc := 0x602, flags := 0b000010, cost := 2 }),
      ({ bytes := [0x6B, 0xFF], a := 0xFF, flags := 1 }, { a := 0xFF, pc := 0x602, flags := 0b100001, cost := 2 }),
      ({ bytes := [0x6B, 0xFF], a := 0x80 }, { a := 0x40, pc := 0x602, flags := 0b010001, cost := 2 }),
      ({ bytes := [0xCB, 0x01], a := 0xFF, x := 0x0F }, { a := 0xFF, x := 0x0E, pc := 0x602, flags := 1, cost := 2 }),
      ({ bytes := [0xCB, 0x02], a := 0x0F, x := 1, flags := 0b010001 },
        { a := 0x0F, x := 0xFF, pc := 0x602, flags := 0b110000, cost := 2 })], stepsTo p = true := by decide +kernel

/-- V8.1 (NMI), V8.2 (IRQ), V8.3 (IRQ masked), V8.5 (NMI with I set). -/
theorem test_vectors_interrupts :
    ∀ p ∈ [(true, false, 0, 0x0900, 0b000100, 0x0612, 0x20, 7), (false, true, 1, 0x0400, 0b000101, 0x0612, 0x21, 7),
      (false, true, 0b000100, 0x0613, 0b000100, 0, 0, 2), (true, false, 0b000100, 0x0900, 0b000100, 0x0612, 0x24, 7)],
      (match step { ({ bytes := [0xEA], org := 0x612, flags := p.2.2.1, cells := [(0xFFFB, 9), (0xFFFF, 4)] } : Start).state
          with nmiPending := p.1, irqLine := p.2.1 } with
      | .next t => t.pc.toNat == p.2.2.2.1 && decide (t.flags = flagsOf p.2.2.2.2.1) && !t.nmiPending &&
          t.irqLine == p.2.1 && Memory.get t.mem 0x1FF ++ Memory.get t.mem 0x1FE == BitVec.ofNat 16 p.2.2.2.2.2.1 &&
          (Memory.get t.mem 0x1FD).toNat == p.2.2.2.2.2.2.1 && t.cycles == p.2.2.2.2.2.2.2
      | .fault _ => false
      | .refused _ => false) = true := by decide +kernel

/-- A state with some bytes at 0x0600, where PC stands. -/
def small (bytes : List Nat) : State := ({ bytes := bytes } : Start).state

/-- V6.19 and V11.4: the byte 80 latches the fault with PC one past it and nothing charged, and the status names it; the
step after that stops. -/
theorem test_unimpl_latches :
    (match step (small [0x80, 0x10]) with
    | .next t => t.fault && t.pc == 0x0601#16 && t.cycles == 0 && faultStatus t == some 0x80#8 &&
        decide (nextEvent t = .latched 0x80#8)
    | .fault _ => false
    | .refused _ => false) = true := by decide +kernel

/-! ### Offsets, video, images -/

/-- E10 of 95_test_vectors.md: the interleave and its inverse. -/
theorem test_offsets :
    [0, 1, 7, 8, 63, 64, 100, 128, 191].map lineOffset = [0, 0x400, 0x1C00, 0x80, 0x1F80, 0x28, 0x1228, 0x50, 0x1FD0] ∧
    [0, 0x27, 0x28, 0x77, 0x78, 0x7F, 0x80, 0x1234, 0x1FF7, 0x1FF8].map offsetLine =
      [some 0, some 0, some 64, some 128, none, none, some 8, some 100, some 191, none] := by decide +kernel

/-- V10.1, V10.3, V10.5, V10.6: one byte and its fourteen pixels; bit 7 selects nothing. -/
theorem test_byte_pixels :
    bytePixels 0x7F#8 = List.replicate 14 cfg.pixelWhite ∧ bytePixels 0x80#8 = List.replicate 14 cfg.pixelBlack ∧
    bytePixels 0x01#8 = List.replicate 2 cfg.pixelWhite ++ List.replicate 12 cfg.pixelBlack ∧
    bytePixels 0x40#8 = List.replicate 12 cfg.pixelBlack ++ List.replicate 2 cfg.pixelWhite := by decide +kernel

/-- E7 and R56: the image of the source; a payload that ends at 0xFFFF; one byte short, one too many, one past 0xFFFF,
and an image without a header are refused. -/
theorem test_load_program :
    (match loadProgram [0x00#8, 0x03#8, 0x02#8, 0x00#8, 0xEA#8, 0xEA#8] State.reset with
    | .next t => t.pc == 0x0300#16 && decide (t.mem = [(0x300, 0xEA#8), (0x301, 0xEA#8)])
    | .fault _ => false
    | .refused _ => false) = true ∧
    (match loadProgram [0xFE#8, 0xFF#8, 0x02#8, 0x00#8, 0xEA#8, 0xEA#8] State.reset with
    | .next t => t.pc == 0xFFFE#16
    | .fault _ => false
    | .refused _ => false) = true ∧
    (∀ bytes ∈ [[0x00#8, 0x03#8, 0x02#8, 0x00#8, 0xEA#8], [0x00#8, 0x03#8, 0x02#8, 0x00#8, 0xEA#8, 0xEA#8, 0xEA#8],
        [0xFF#8, 0xFF#8, 0x02#8, 0x00#8, 0xEA#8, 0xEA#8], [0x00#8, 0x03#8, 0x00#8]],
      (match loadProgram bytes State.reset with
      | .refused .programImageRefused => true
      | _ => false) = true) := by decide +kernel

/-- V9.4 and V9.5: a quantum whose first step faults, and a machine that does not run. -/
theorem test_ticks :
    (let t := tick { small [0xA7, 0x10] with running := true }
     t.fault && t.faultByte == 0xA7#8 && !t.frameReady && t.cycles == 0) = true ∧
    (tick (small [0xEA])).pc = 0x0600#16 := by decide +kernel

/-! ### Witnesses: each statement's hypotheses are met -/

/-- A result that is a next state with a property, from a check that evaluates. -/
theorem next_of_check (r : Result) (p : State → Bool)
    (h : (match r with
      | .next t => p t
      | .fault _ => false
      | .refused _ => false) = true) : ∃ t, r = .next t ∧ p t = true := by
  cases r with
  | next t => exact ⟨t, rfl, h⟩
  | fault _ => exact absurd h Bool.false_ne_true
  | refused _ => exact absurd h Bool.false_ne_true

theorem witness_DecodeEncodeRoundTrip : (Instr.lda (.mem (.abxp 0xFFFF#16))).wellFormed = true := by decide

theorem witness_StepRunsDecodedInstruction :
    Undisturbed (small [0xA9, 0x10]) ∧ Undisturbed { small [0xA9, 0x10] with irqLine := true, flags := flagsOf 4 } ∧
    decode (fetchWindow (small [0xA9, 0x10])) = .ok (.lda (.imm 0x10#8)) [0x00#8] := by decide +kernel

/-- Three bytes that wrap past 0xFFFF. -/
theorem witness_StepRunsEncodedInstruction :
    let s := ({ bytes := [0xAD], org := 0xFFFF, cells := [(0, 0x34), (1, 0x12)] } : Start).state
    let ws : List Byte := [0xAD#8, 0x34#8, 0x12#8]
    Undisturbed s ∧ (Instr.lda (.mem (.abs 0x1234#16))).wellFormed = true ∧
    encode (.lda (.mem (.abs 0x1234#16))) = some ws ∧
    ∀ k : Fin ws.length, memRead s (s.pc + BitVec.ofNat 16 k.val) = ws[k] := by decide +kernel

theorem witness_UnfaultedStepCompletes :
    State.reset.fault = false ∧ (raiseFatal 0x80#8 State.reset).fault = true := ⟨rfl, rfl⟩

/-- A fetched instruction that crosses a page, and the two service sequences. -/
theorem witness_StepChargesRegistryEntry :
    Undisturbed (small [0xBD, 0xFE, 0x12]) ∧
    decode (fetchWindow (small [0xBD, 0xFE, 0x12])) = .ok (.lda (.mem (.abxp 0x12FE#16))) [] ∧
    (Instr.lda (.mem (.abxp 0x12FE#16))).op ≠ .unimpl ∧
    ({ small [] with nmiPending := true } : State).nmiPending = true ∧
    ({ small [] with irqLine := true } : State).irqLine = true ∧ (small []).flags.i = false ∧
    (small []).fault = false ∧ (small []).nmiPending = false := by decide +kernel

/-- A step that completes and one that latches the fault; StepKeepsMemoryCanonical, SelectBytesAreNeverStored and
StepLeavesHostSideAlone need no more. -/
theorem witness_StepCostBounds :
    (∃ t, step (small [0xEA]) = .next t ∧ (!t.fault) = true) ∧ ∃ t, step (small [0x80]) = .next t ∧ t.fault = true :=
  ⟨next_of_check _ _ (by decide +kernel), next_of_check _ _ (by decide +kernel)⟩

/-- Z at the zero page's end, both modes of the second clause, both of the third, an index of 0, and the first and the
last of the nine penalized readers. -/
theorem witness_EffectiveAddresses_PageCrossing :
    0xFF = (0xFB#8 : Byte).toNat % 256 + ({ small [] with x := 4 } : State).x.toNat ∧
    MemOperand.izy 0x20#8 ∈ [MemOperand.izy 0x20#8, .izyp 0x20#8] ∧ (small []).x = 0 ∧ (small []).y = 0 ∧
    (MemOperand.abx 0x12FE#16).mode ∉ [Mode.abxp, .abyp, .izyp] ∧
    (∀ i ∈ [Instr.lda (.mem (.abxp 0x12FE#16)), .cmp (.mem (.abxp 0x12FE#16))],
      i ∈ [Instr.lda (.mem (.abxp 0x12FE#16)), .ldx (.mem (.abxp 0x12FE#16)), .ldy (.mem (.abxp 0x12FE#16)),
        .and (.mem (.abxp 0x12FE#16)), .ora (.mem (.abxp 0x12FE#16)), .eor (.mem (.abxp 0x12FE#16)),
        .adc (.mem (.abxp 0x12FE#16)), .sbc (.mem (.abxp 0x12FE#16)), .cmp (.mem (.abxp 0x12FE#16))]) := by
  decide +kernel

/-- The forms the statements on stores, read-modify-writes, undocumented operations and jumps quantify over. -/
theorem witness_StoresWriteOneByte_and_other_forms :
    (MemOperand.zpy 0x10#8).mode ∈ Mode.zpy :: staModes ∧ (MemOperand.izy 0x10#8).mode ∈ Mode.zpy :: staModes ∧
    (MemOperand.abx 0x12FE#16).mode ∈ rmwModes ∧ (MemOperand.izy 0x20#8).mode ∈ undocModes ∧
    (MemOperand.abs 0x0700#16).mode ∈ [Mode.abs, .ind] ∧ (MemOperand.ind 0x02FF#16).mode ∈ [Mode.abs, .ind] := by
  decide

/-- Both disjuncts of AddWithCarry and the three of ComparesSetCarryZeroNegative. -/
theorem witness_AddWithCarry_Compares :
    (Instr.adc (.imm 0x50#8) = .adc (.imm 0x50#8) ∧ 0x50#8 = operandValue (.imm 0x50#8) (small [])) ∧
    (Instr.sbc (.imm 0x50#8) = .sbc (.imm 0x50#8) ∧ 0xAF#8 = operandValue (.imm 0x50#8) (small []) ^^^ 0xFF#8) ∧
    (Instr.cmp (.imm 0x42#8) = .cmp (.imm 0x42#8) ∧ 0x00#8 = (small []).a) ∧
    (Instr.cpx (.imm 0x42#8) = .cpx (.imm 0x42#8) ∧ 0x00#8 = (small []).x) ∧
    (Instr.cpy (.imm 0x42#8) = .cpy (.imm 0x42#8) ∧ 0x00#8 = (small []).y) := by decide +kernel

theorem witness_DecimalFlagIsInert :
    Instr.adc (.imm 0x01#8) ∉ [Instr.php, .brk, .cld, .sed, .plp, .rti] ∧
    ∃ t, exec (.adc (.imm 0x01#8)) (small []) = .next t :=
  ⟨by decide, _, rfl⟩

/-- The read value the statements on memory modifications name, with both values of its low and high bits. -/
theorem witness_IncDec_Shifts_ShiftThenLogic :
    0x81#8 = memRead ({ bytes := [], cells := [(0x10, 0x81)] } : Start).state (effAddr (.zp 0x10#8) (small [])) ∧
    129 = (memRead ({ bytes := [], cells := [(0x10, 0x81)] } : Start).state (effAddr (.zp 0x10#8) (small []))).toNat ∧
    (Instr.ror (.zp 0x10#8), BitVec.ofNat 8 (129 / 2 + 128 * 0), decide (129 % 2 = 1)) ∈
      [(Instr.asl (.zp 0x10#8), BitVec.ofNat 8 (2 * 129), decide (128 ≤ 129)),
        (.ror (.zp 0x10#8), BitVec.ofNat 8 (129 / 2 + 128 * 0), decide (129 % 2 = 1))] := by decide +kernel

/-- A call; the state it leaves has its SP and its two bytes. -/
theorem witness_ReturnLandsAfterCall : ∃ t, exec (.jsr 0x0700#16) (small []) = .next t ∧ t.sp = t.sp ∧
    cell t (stackAddr (small []).sp) = cell t (stackAddr (small []).sp) := ⟨_, rfl, rfl, rfl⟩

/-- A branch taken and one not; 127 goes forward, 128 back. -/
theorem witness_BranchesMovePC :
    (Instr.bpl 0x7F#8, !(small []).flags.n) ∈ [(Instr.bpl 0x7F#8, true)] ∧ (0x7F#8 : Byte).toNat ≤ 127 ∧
    (Instr.bmi 0x80#8, (small []).flags.n) ∈ [(Instr.bmi 0x80#8, false)] ∧ 127 < (0x80#8 : Byte).toNat := by
  decide +kernel

theorem witness_HardwareInterruptsEnter :
    let s := { small [] with nmiPending := true }
    let u := { small [] with irqLine := true }
    (s.fault = false ∧ s.nmiPending = true) ∧
    (u.fault = false ∧ u.nmiPending = false ∧ u.irqLine = true ∧ u.flags.i = false) := by decide +kernel

/-- An entry, and the state it leaves returned to. -/
theorem witness_ReturnRestoresInterruptedState :
    let t := enterInterrupt cfg.vecNmi false 0#16 (small [])
    Entered cfg.vecNmi false 0x0600#16 (small []) t ∧ t.sp = t.sp ∧
      ∀ a ∈ entryCells (small []).sp, cell t a = cell t a := by
  refine ⟨⟨by decide +kernel, by decide +kernel, by decide +kernel, rfl, rfl, by decide +kernel,
    ⟨fun r hr => ?_, fun f hf => ?_, fun a ha => ?_, ⟨rfl, rfl, rfl, rfl, rfl⟩, rfl, rfl, nofun, nofun⟩, rfl, rfl⟩,
    rfl, fun _ _ => rfl⟩
  · cases r <;> first | rfl | exact absurd (by decide) hr
  · cases f <;> first | rfl | exact absurd (by decide) hf
  · simp only [entryCells, List.mem_cons, List.not_mem_nil, or_false, not_or] at ha
    obtain ⟨mem, h, e⟩ := enterInterrupt_writes cfg.vecNmi false 0#16 (small [])
    rw [e]
    exact (h a).trans (by
      rw [show (small []).sp - 1 - 1 = (small []).sp - 2 by decide +kernel, if_neg ha.2.2, if_neg ha.2.1, if_neg ha.1])

/-- A machine on a halt byte. -/
theorem witness_HaltSpins : Halted (small [0x02]) := ⟨by decide +kernel, by decide +kernel⟩

theorem witness_UnimplementedByteLatchesFault :
    Undisturbed (small [0xFC]) ∧ memRead (small [0xFC]) (small [0xFC]).pc ∈ unimplCodes := by decide +kernel

/-- For each of RRA, ISC, DCP the byte written, from the byte 0x02 with C set. -/
theorem witness_ModifyThenArithmetic :
    let s := ({ bytes := [], flags := 1, cells := [(0x10, 2)] } : Start).state
    let v := memRead s (effAddr (.zp 0x10#8) s)
    (MemOperand.zp 0x10#8).mode ∈ undocModes ∧ (0x81#8 : Byte).toNat = v.toNat / 2 + 128 * s.flags.c.toNat ∧
    (0x03#8 : Byte).toNat = (v.toNat + 1) % 256 ∧ (0x01#8 : Byte).toNat = (v.toNat + 255) % 256 := by decide +kernel

/-- The clauses of a write: the two select addresses, and their neighbours and `SW_RDBANK`, which are ordinary. -/
theorem witness_WritesStoreOrSwitch :
    (memWrite 0xC054#16 0x12#8 { small [] with bankSel := .bank1 }).bankSel = .bank0 ∧
    (memWrite 0xC055#16 0x12#8 (small [])).bankSel = .bank1 ∧
    (¬ IsSelect 0xC053#16 ∧ cell (memWrite 0xC053#16 0x12#8 (small [])) 0xC053#16 = 0x12#8) ∧
    (¬ IsSelect 0xC056#16 ∧ cell (memWrite 0xC056#16 0x12#8 (small [])) 0xC056#16 = 0x12#8) ∧
    (¬ IsSelect 0xC01C#16 ∧ cell (memWrite 0xC01C#16 0x12#8 (small [])) 0xC01C#16 = 0x12#8) ∧
    (IsSelect 0xC054#16 ∧ cell (memWrite 0xC054#16 0x12#8 (small [])) 0xC054#16 = 0x00#8) ∧
    (IsSelect 0xC055#16 ∧ cell (memWrite 0xC055#16 0x12#8 (small [])) 0xC055#16 = 0x00#8) := by decide +kernel

/-- The marked scanline at its edges (R49): the first and last byte of bank 0's scanline 0 and the byte after it, which
is of scanline 64; a hole; and the last byte of bank 1's scanline 191 and the hole after it. -/
theorem test_scanline_edges :
    OnScanline 0 0x2000#16 ∧ OnScanline 0 0x2027#16 ∧ ¬ OnScanline 0 0x2028#16 ∧ OnScanline 64 0x2028#16 ∧
    ¬ OnScanline 128 0x2078#16 ∧ OnScanline 383 0x5FF7#16 ∧ ¬ OnScanline 383 0x5FF8#16 ∧
    ¬ OnScanline 0 0x4000#16 ∧ OnScanline 192 0x4000#16 := by decide +kernel

/-- Reads of the switches after writes to them (R46, R47). -/
theorem witness_ReadAfterWrite :
    memRead (memWrite 0xC055#16 0x12#8 (small [])) 0xC01C#16 = 0x80#8 ∧
    memRead (memWrite 0xC054#16 0x12#8 { small [] with bankSel := .bank1 }) 0xC01C#16 = 0x00#8 ∧
    memRead (memWrite 0xC01C#16 0x12#8 (small [])) 0xC01C#16 = 0x00#8 ∧
    memRead (memWrite 0xC055#16 0x12#8 (small [])) 0xC055#16 = 0x00#8 := by decide +kernel

theorem witness_CanonicalMemoriesAreEqual :
    Memory.wf [(0, 0x01#8), (65535, 0xFF#8)] ∧
    ∀ a : Nat, Memory.get [(0, 0x01#8), (65535, 0xFF#8)] a = Memory.get [(0, 0x01#8), (65535, 0xFF#8)] a :=
  ⟨by decide, fun _ => rfl⟩

theorem witness_StepKeepsMemoryCanonical :
    Invariant (small [0x8D, 0x00, 0x20]) ∧ ∃ t, step (small [0x8D, 0x00, 0x20]) = .next t ∧ (!t.fault) = true :=
  ⟨by unfold Invariant; decide +kernel, next_of_check _ _ (by decide +kernel)⟩

theorem witness_HostOperationsKeepMemoryCanonical :
    Invariant State.reset ∧ ∃ t, hostOp (.loadProgram [0x00#8, 0x03#8, 0x00#8, 0x00#8]) State.reset = .next t :=
  ⟨by unfold Invariant; decide +kernel, _, rfl⟩

/-- Stores to a select address and to video memory, as steps. -/
theorem witness_SelectBytes_HostSide :
    (∃ t, step (small [0x8D, 0x54, 0xC0]) = .next t ∧ (!t.fault) = true) ∧
    (small [0x8D, 0x00, 0x20]).dirty[0] = false ∧ State.reset.dirty[383] = true :=
  ⟨next_of_check _ _ (by decide +kernel), by decide +kernel, by decide +kernel⟩

theorem witness_UnobservableStateHasNoInfluence :
    SameVisible (small [0xEA]) { small [0xEA] with cycles := 100, running := true } ∧
    ∃ t, step (small [0xEA]) = .next t ∧ (!t.fault) = true :=
  ⟨⟨rfl, rfl, rfl, rfl, rfl, rfl, rfl, rfl, rfl, rfl, rfl, rfl⟩, next_of_check _ _ (by decide +kernel)⟩

/-- Both banks' bases, and a sample at each end of a byte. -/
theorem witness_PixelPlacement :
    0x2000 = (if State.reset.bankSel = .bank0 then cfg.vbank0Base else cfg.vbank1Base).toNat ∧
    0x4000 = (if ({ small [] with bankSel := .bank1 } : State).bankSel = .bank0 then cfg.vbank0Base
      else cfg.vbank1Base).toNat ∧
    lut 0x01#8 0 = cfg.pixelWhite ∧ lut 0x40#8 6 = cfg.pixelWhite ∧ lut 0x3F#8 6 = cfg.pixelBlack := by decide +kernel

/-- Two memories that differ in bit 7 of the first displayed byte. -/
theorem witness_OnlyDisplayedBitsMatter :
    let s := { State.reset with mem := [(0x2000, 0x81#8)] }
    let s' := { State.reset with mem := [(0x2000, 0x01#8)] }
    s.bankSel = s'.bankSel ∧ ∀ r < 192, ∀ k < 40, Memory.get s.mem (videoIndex s.bankSel r k) &&& 0x7F#8 =
      Memory.get s'.mem (videoIndex s.bankSel r k) &&& 0x7F#8 := by
  refine ⟨rfl, fun r _ k _ => ?_⟩
  generalize videoIndex _ r k = a
  simp only [Memory.get]
  split <;> rfl

theorem witness_TickRunsOneQuantum :
    (small []).running = false ∧ ({ small [] with running := true } : State).running = true ∧
    (small []).fault = false := by decide +kernel

/-- An accepted image and a refused one. -/
theorem witness_LoadProgramCopiesPayload :
    ([0xEA#8, 0xEA#8] : List Byte).length = (0x02#8 : Byte).toNat + 256 * (0x00#8 : Byte).toNat ∧
    (0xFE#8 : Byte).toNat + 256 * (0xFF#8 : Byte).toNat + 2 ≤ 65536 ∧
    ¬ ∃ (b0 b1 b2 b3 : Byte) (payload : List Byte), ([] : List Byte) = b0 :: b1 :: b2 :: b3 :: payload ∧
      payload.length = b2.toNat + 256 * b3.toNat ∧ b0.toNat + 256 * b1.toNat + payload.length ≤ 65536 :=
  ⟨rfl, by decide, fun ⟨_, _, _, _, _, h, _⟩ => by cases h⟩

/-- The last byte at 0xFFFF wherever `BIOS_BASE` lies, and an image no base can take. -/
theorem witness_LoadBiosCopiesImage :
    (∃ bytes : List Byte, bytes ≠ [] ∧ Config.biosBase.toNat + bytes.length ≤ 65536) ∧
    ∃ bytes : List Byte, 65536 < Config.biosBase.toNat + bytes.length :=
  ⟨⟨[0x00#8], by decide, Config.biosBase.isLt⟩, List.replicate 65537 0x00#8, by rw [List.length_replicate]; omega⟩

end Sys2Proof.Tests.Slice0
end

/-! SUPPORT. The statements of 10_state.md: what no step changes, the canonical memory, the status byte. -/

namespace Sys2Proof.Machine

/-! ### What a step does to the host's side and to the dirty table -/

/-- A write never clears a dirty flag (R22, R48). -/
theorem memWrite_keeps_marks (a : Addr) (v : Byte) (s : State) (i : Fin 384) (hi : s.dirty[i] = true) :
    (memWrite a v s).dirty[i] = true := by
  rcases memWrite_cases a v s with ⟨-, e⟩ | ⟨-, e⟩ | ⟨-, e⟩ <;> rw [e]
  · exact hi
  · exact hi
  · rw [getElem_markDirty, Bool.or_eq_true]
    exact .inl hi

theorem Touched.trans {s t u : State} (hst : Touched s t) (htu : Touched t u) : Touched s u := by
  induction htu with
  | refl => exact hst
  | write t a v _ ih => exact .write _ _ a v ih
  | regs t u _ same ih => exact .regs _ _ _ ih same

theorem SameHostSide.trans {s t u : State} (hst : SameHostSide s t) (htu : SameHostSide t u) : SameHostSide s u :=
  ⟨htu.fb.trans hst.fb, htu.frameReady.trans hst.frameReady, htu.running.trans hst.running,
    htu.nmiPending.trans hst.nmiPending, htu.irqLine.trans hst.irqLine⟩

theorem memWrite_sameHostSide (a : Addr) (v : Byte) (s : State) : SameHostSide s (memWrite a v s) :=
  ⟨memWrite_fb a v s, memWrite_frameReady a v s, memWrite_running a v s, memWrite_nmiPending a v s,
    memWrite_irqLine a v s⟩

theorem Touched.sameHostSide {s t : State} (h : Touched s t) : SameHostSide s t := by
  induction h with
  | refl => exact ⟨rfl, rfl, rfl, rfl, rfl⟩
  | write t a v _ ih => exact ih.trans (memWrite_sameHostSide a v t)
  | regs t u _ same ih => exact ih.trans same.host

theorem Touched.keeps_marks {s t : State} (h : Touched s t) (i : Fin 384) (hi : s.dirty[i] = true) :
    t.dirty[i] = true := by
  induction h with
  | refl => exact hi
  | write t a v _ ih => exact memWrite_keeps_marks a v t i ih
  | regs t u _ same ih => rw [same.dirty]; exact ih

/-- Every step, service sequences included, touches memory through `memWrite` only. It starts from the state without a
pending NMI: the NMI service consumes the request, and no other step runs while one is pending (R325). -/
theorem step_touches {s t : State} (h : step s = .next t) : Touched { s with nmiPending := false } t := by
  have unpended (hn : s.nmiPending = false) : { s with nmiPending := false } = s := by rw [← hn]
  obtain ⟨-, ⟨-, h⟩ | ⟨hn, -, -, h⟩ | ⟨hn, -, i, -, -, h⟩⟩ := step_cases h
  · rw [serviceNmi_eq] at h
    obtain ⟨⟩ := h
    exact (Touched.entry (.refl _)).charged
  · rw [serviceIrq_eq] at h
    obtain ⟨⟩ := h
    rw [unpended hn]
    exact (Touched.entry (.refl s)).charged
  · rw [unpended hn]
    have fetched : Touched s (afterFetch i s) := .own ⟨rfl, rfl, rfl, rfl, rfl, rfl, rfl, rfl⟩
    exact fetched.trans (exec_touches i _ t h)

/-- Settles O50: a step is made of writes through `memWrite` and register updates (`step_touches`), and neither kind
reaches the host's side or clears a dirty flag. -/
theorem stepLeavesHostSideAlone : Obligations.StepLeavesHostSideAlone := by
  intro s t h
  have touched := step_touches h
  obtain ⟨hfb, hready, hrunning, hnmi, hirq⟩ := touched.sameHostSide
  exact ⟨hfb, hready, hrunning, hirq, hnmi, fun i hi => touched.keeps_marks i hi⟩

/-! ### A canonical memory is determined by its reads -/

theorem Memory.get_of_mem {m : Memory} (h : m.Pairwise (fun p q => p.1 < q.1)) {p : Host.Cell} (hp : p ∈ m) :
    Memory.get m p.1 = p.2 := by
  induction m with
  | nil => simp at hp
  | cons q rest ih =>
    obtain ⟨below, sorted⟩ := List.pairwise_cons.1 h
    rcases List.mem_cons.1 hp with rfl | hp
    · simp [Memory.get]
    · rw [Memory.get, if_neg (below p hp).ne]
      exact ih sorted hp

theorem Memory.mem_of_get_ne_zero {m : Memory} {a : Nat} (h : Memory.get m a ≠ 0) : (a, Memory.get m a) ∈ m := by
  induction m with
  | nil => exact absurd rfl h
  | cons q rest ih =>
    obtain ⟨k, b⟩ := q
    by_cases hk : k = a
    · simp [Memory.get, hk]
    · rw [Memory.get, if_neg hk] at h ⊢
      exact List.mem_cons_of_mem _ (ih h)

/-- The entries of a canonical memory are exactly its reads other than 0x00. -/
theorem Memory.mem_iff_get {m : Memory} (h : Memory.wf m) (p : Host.Cell) :
    p ∈ m ↔ p.2 ≠ 0 ∧ Memory.get m p.1 = p.2 := by
  obtain ⟨sorted, inside⟩ := h
  refine ⟨fun hp => ⟨(inside p hp).2, Memory.get_of_mem sorted hp⟩, fun ⟨hne, hget⟩ => ?_⟩
  have := Memory.mem_of_get_ne_zero (hget ▸ hne)
  rwa [hget] at this

/-- Settles O45: canonical memories that read alike have the same entries, and rising lists with the same entries are
equal. -/
theorem canonicalMemoriesAreEqual : Obligations.CanonicalMemoriesAreEqual := by
  intro m n hm hn hget
  have sameEntries (p : Host.Cell) : p ∈ m ↔ p ∈ n := by
    rw [Memory.mem_iff_get hm, Memory.mem_iff_get hn, hget]
  exact List.Pairwise.eq_of_mem_iff (r := Prod.fst ⁻¹'o (· < ·)) hm.1 hn.1 sameEntries

/-! ### The status byte, bit by bit -/

theorem getElem_flagBit (f : Bool) (k : Nat) (hk : k < 8) : (flagBit f)[k] = (decide (k = 0) && f) := by
  cases f <;> simp [flagBit, BitVec.getElem_one]

/-- The bits of the packed status byte (R15). -/
theorem getElem_packP (b : Bool) (f : Flags) :
    (packP b f)[7] = f.n ∧ (packP b f)[6] = f.v ∧ (packP b f)[5] = true ∧ (packP b f)[4] = b ∧
    (packP b f)[3] = f.d ∧ (packP b f)[2] = f.i ∧ (packP b f)[1] = f.z ∧ (packP b f)[0] = f.c := by
  simp [packP, cfg, getElem_flagBit]

/-- The positions `UnpackP` reads (R16). -/
theorem unpackP_eq (v : Byte) : unpackP v = ⟨v[7], v[6], v[3], v[2], v[1], v[0]⟩ := rfl

theorem unpackP_packP (b : Bool) (f : Flags) : unpackP (packP b f) = f := by
  simp [unpackP_eq, getElem_packP b f]

theorem packP_unpackP (b : Bool) (v : Byte) :
    packP b (unpackP v) = (v &&& 0xCF#8) ||| 0x20#8 ||| (if b then 0x10#8 else 0#8) := by
  have bits := getElem_packP b (unpackP v)
  rw [unpackP_eq] at bits ⊢
  apply BitVec.eq_of_getElem_eq
  intro k hk
  interval_cases k <;> cases b <;> simp [bits]

/-- Settles O12: each bit of the packed byte is known (`getElem_packP`), so both round trips are checked bit by bit. -/
theorem statusByteIsLossless : Obligations.StatusByteIsLossless :=
  ⟨unpackP_packP, packP_unpackP, unpackP_eq⟩

/-! ### The reset machine -/

/-- Settles O47: the reset memory is the empty list. -/
theorem resetIsCanonical : Obligations.ResetIsCanonical := Memory.wf_nil

end Sys2Proof.Machine

/-! SUPPORT. The statements of 20_memory.md: what every step keeps of memory, a write and a read after it, the
interleave maps, the image copies. -/

namespace Sys2Proof.Machine

/-! ### What every step keeps of memory -/

/-- A property of memory that every `memWrite` keeps is kept by whatever is made of writes and register updates. -/
theorem Touched.keeps_mem {P : Memory → Prop} (write : ∀ (t : State) a v, P t.mem → P (memWrite a v t).mem)
    {s t : State} (h : Touched s t) (hs : P s.mem) : P t.mem := by
  induction h with
  | refl => exact hs
  | write t a v _ ih => exact write t a v ih
  | regs t u _ same ih => rw [same.mem]; exact ih

/-- A property of memory that every `memWrite` keeps is kept by every step, service sequences included. -/
theorem step_keeps_mem {P : Memory → Prop} (write : ∀ (t : State) a v, P t.mem → P (memWrite a v t).mem)
    {s t : State} (h : step s = .next t) (hs : P s.mem) : P t.mem :=
  (step_touches h).keeps_mem write hs

/-- Settles O46: every write keeps the canonical form, so every step does. -/
theorem stepKeepsMemoryCanonical : Obligations.StepKeepsMemoryCanonical :=
  fun _ _ hs h => step_keeps_mem (P := Memory.wf) (fun _ a v wf => wf_memWrite wf a v) h hs

/-- No step changes the byte stored at a select address (R47). -/
theorem step_keeps_select {s t : State} (h : step s = .next t) {b : Addr} (hb : IsSelect b) : cell t b = cell s b :=
  step_keeps_mem (P := fun m => Memory.get m b.toNat = cell s b)
    (fun u a v hu => (cell_memWrite_select hb a v u).trans hu) h rfl

/-- Settles O49: no write stores at a select address, so no step does. -/
theorem selectBytesAreNeverStored : Obligations.SelectBytesAreNeverStored :=
  fun _ _ h => ⟨step_keeps_select h (.inl rfl), step_keeps_select h (.inr rfl)⟩

/-! ### A write -/

/-- The dirty table after a write that stores: the scanline of the address is marked, no other (R48). -/
theorem getElem_dirty_memWrite {a : Addr} (ha : ¬ IsSelect a) (v : Byte) (s : State) (i : Fin 384) :
    (memWrite a v s).dirty[i] = (s.dirty[i] || decide (OnScanline i a)) := by
  rw [memWrite_ordinary ha, getElem_markDirty]
  simp only [dirtyIndex_iff_onScanline]

theorem wrote_memWrite (a : Addr) (v : Byte) (s : State) : Wrote a v s (memWrite a v s) where
  select0 := by rintro rfl; rw [memWrite_select0]
  select1 := by rintro rfl; rw [memWrite_select1]
  keepBank ha := memWrite_bankSel_ordinary ha v s
  selectStoresNothing ha := ⟨cell_memWrite_select ha a v s, memWrite_dirty_select ha v s⟩
  stored ha := by rw [cell_memWrite, if_pos ⟨rfl, ha⟩]
  marks ha := getElem_dirty_memWrite ha v s

theorem frame_memWrite (a : Addr) (v : Byte) (s : State) : Frame [] [] [a] s (memWrite a v s) where
  reg r _ := by cases r <;> simp [regOf]
  flag f _ := by simp only [flagOf, memWrite_flags]
  mem b hb := by rw [cell_memWrite, if_neg (fun h => hb (List.mem_singleton.2 h.1))]
  host := memWrite_sameHostSide a v s
  fault := memWrite_fault a v s
  faultByte := memWrite_faultByte a v s
  bank h := absurd h (List.cons_ne_nil _ _)
  dirty h := absurd h (List.cons_ne_nil _ _)

/-- Settles O43: the write primitive switches the bank or stores (`wrote_memWrite`), within its frame. -/
theorem writesStoreOrSwitch : Obligations.WritesStoreOrSwitch := fun a v s =>
  ⟨wrote_memWrite a v s, frame_memWrite a v s, memWrite_pc a v s, memWrite_cycles a v s⟩

/-! ### A read, and a read after a write -/

theorem memRead_ordinary {b : Addr} (hb : b ≠ cfg.swRdBank) (s : State) : memRead s b = cell s b := if_neg hb

theorem memRead_rdBank (s : State) : memRead s cfg.swRdBank = bankStatus s.bankSel := if_pos rfl

theorem bankStatus_eq (b : Bank) : bankStatus b = if b = .bank0 then 0x00#8 else cfg.bank1ReadValue := by
  cases b <;> rfl

/-- The bank status read after a write is that of the bank the write leaves selected (R46, R47). -/
theorem memRead_rdBank_memWrite (a : Addr) (v : Byte) (s : State) :
    memRead (memWrite a v s) cfg.swRdBank =
      if a = cfg.swBank0 then 0x00#8 else if a = cfg.swBank1 then cfg.bank1ReadValue else memRead s cfg.swRdBank := by
  simp only [memRead_rdBank]
  split_ifs with h0 h1
  · rw [(wrote_memWrite a v s).select0 h0]; rfl
  · rw [(wrote_memWrite a v s).select1 h1]; rfl
  · rw [(wrote_memWrite a v s).keepBank (fun h => h.elim h0 h1)]

/-- Settles O44: what a read gives by address, and what a write does to the stored bytes and to the bank. -/
theorem readAfterWrite : Obligations.ReadAfterWrite := fun a b v s =>
  ⟨fun hb => memRead_ordinary hb s,
    (memRead_rdBank s).trans (bankStatus_eq s.bankSel),
    fun hb => by rw [memRead_ordinary hb, memRead_ordinary hb, cell_memWrite],
    memRead_rdBank_memWrite a v s⟩

/-! ### The interleave maps (R49) -/

/-- The interleave formula with the shifts and masks of R49. -/
theorem lineOffset_eq_masks (r : Nat) :
    lineOffset r = (r &&& 7) * 0x400 + ((r >>> 3) &&& 7) * 0x80 + ((r >>> 6) &&& 7) * 0x28 := by
  have mask (n : Nat) : n &&& 7 = n % 8 := Nat.and_two_pow_sub_one_eq_mod n 3
  simp only [lineOffset, mask, Nat.shiftRight_eq_div_pow]

/-- The forty bytes of a scanline lie in its window. -/
theorem lineOffset_add_40_le {r : Nat} (hr : r < 192) : lineOffset r + 40 ≤ 0x2000 := by
  have low : r % 8 ≤ 7 := by omega
  have middle : r / 8 % 8 ≤ 7 := by omega
  have high : r / 64 % 8 ≤ 2 := by omega
  unfold lineOffset
  omega

theorem offsetLine_lineOffset_add {r k : Nat} (hr : r < 192) (hk : k < 40) : offsetLine (lineOffset r + k) = some r :=
  (offsetLine_eq_some _ r).2 ⟨hr, Nat.le_add_right _ _, Nat.add_lt_add_left hk _⟩

/-- The inverse formula: the eight bytes from 120 of each 128 are a hole, any other offset is on one scanline. -/
theorem offsetLine_eq {o : Nat} (ho : o < 0x2000) : offsetLine o =
    if 120 ≤ o % 128 then none else some (o / 1024 % 8 + o / 128 % 8 * 8 + o % 128 / 40 * 64) := by
  have onLine (r : Nat) : offsetLine o = some r ↔
      r < 192 ∧ o % 128 < 120 ∧ r = o / 1024 % 8 + o / 128 % 8 * 8 + o % 128 / 40 * 64 := by
    rw [offsetLine_eq_some]
    exact and_congr_right fun hr => (lineOffset_iff r o hr).trans (and_iff_right ho)
  split_ifs with hole
  · exact Option.eq_none_iff_forall_ne_some.2 fun r hr => by
      obtain ⟨-, h, -⟩ := (onLine r).1 hr
      omega
  · exact (onLine _).2 ⟨by omega, by omega, rfl⟩

/-- Settles O52: the formula, its bound, and both directions of the inverse (`lineOffset_iff`). -/
theorem offsetMapsAreInverse : Obligations.OffsetMapsAreInverse :=
  ⟨fun r hr => ⟨lineOffset_eq_masks r, lineOffset_add_40_le hr⟩, fun _ hr _ hk => offsetLine_lineOffset_add hr hk,
    fun _ ho => offsetLine_eq ho⟩

/-! ### Image copies (R55, R56) -/

/-- Bytes outside an image copy stay. -/
theorem Memory.get_load_outside (m : Memory) (base : Nat) (bytes : List Byte) (a : Nat)
    (h : a < base ∨ base + bytes.length ≤ a) : Memory.get (Memory.load m base bytes) a = Memory.get m a :=
  h.elim (Memory.get_load_below m base bytes a) (Memory.get_load_above m base bytes a)

theorem word_toNat_low_first (low high : Byte) : (word high low).toNat = low.toNat + 256 * high.toNat := by
  rw [word_toNat]
  omega

/-- `load_program` on a header and a payload: the copy, or the refusal where the lengths differ or 0xFFFF is passed. -/
theorem loadProgram_header (b0 b1 b2 b3 : Byte) (payload : List Byte) (s : State) :
    loadProgram (b0 :: b1 :: b2 :: b3 :: payload) s =
      if payload.length = b2.toNat + 256 * b3.toNat ∧ b0.toNat + 256 * b1.toNat + payload.length ≤ 65536 then
        .next { s with mem := Memory.load s.mem (b0.toNat + 256 * b1.toNat) payload, pc := word b1 b0 }
      else .refused .programImageRefused := by
  simp only [loadProgram, word_toNat_low_first]
  refine if_congr (and_congr_right fun hlen => ?_) rfl rfl
  rw [hlen]

/-- Settles O58: an image with a header is copied or refused by its lengths; a shorter one is refused. -/
theorem loadProgramCopiesPayload : Obligations.LoadProgramCopiesPayload := by
  refine fun bytes s => ⟨?_, fun noImage => ?_⟩
  · rintro b0 b1 b2 b3 payload rfl hlen hfit
    exact ⟨_, (loadProgram_header b0 b1 b2 b3 payload s).trans (if_pos ⟨hlen, hfit⟩), word_toNat_low_first b0 b1,
      fun k => Memory.get_load_inside _ _ _ k.val k.isLt, Memory.get_load_outside _ _ _, rfl⟩
  · show loadProgram bytes s = _
    match bytes with
    | b0 :: b1 :: b2 :: b3 :: payload =>
      rw [loadProgram_header, if_neg fun h => noImage ⟨b0, b1, b2, b3, payload, rfl, h⟩]
    | [] | [_] | [_, _] | [_, _, _] => rfl

/-- Settles O59: an image that fits is copied, and one that does not is refused, whatever `BIOS_BASE` is. -/
theorem loadBiosCopiesImage : Obligations.LoadBiosCopiesImage := by
  refine fun bytes s => ⟨fun fits => ?_, fun passes => if_neg (Nat.not_le.2 passes)⟩
  exact ⟨_, if_pos fits, fun k => Memory.get_load_inside _ _ _ k.val k.isLt, Memory.get_load_outside _ _ _, rfl⟩

end Sys2Proof.Machine

/-! SUPPORT. The statements of 30_encoding.md: decoding and encoding are inverse to each other, words of the spec, the
base costs of the registry. -/

namespace Sys2Proof.Laws

/-! ### Decoding undoes encoding (R70, R72, R81) -/

theorem operandCount_le (mode : Mode) : mode.operandCount ≤ 2 := by cases mode <;> decide

/-- A list of at most two bytes, rebuilt from the two operand bytes the decoder reads from it. -/
theorem take_getD_pair {l : List Byte} (h : l.length ≤ 2) : [l.getD 0 0, l.getD 1 0].take l.length = l := by
  match l, h with
  | [], _ | [_], _ | [_, _], _ => rfl

/-- Decoding an opcode byte followed by as many operand bytes as its mode asks for: the instruction is assembled from
them, a missing operand byte being 0, and what follows is left. -/
theorem decode_cons_append {code : Byte} {operands : List Byte}
    (h : operands.length = (lookup code.toNat).mode.operandCount) (rest : List Byte) :
    decode (code :: (operands ++ rest)) =
      decodeWith (lookup code.toNat) code (operands.getD 0 0) (operands.getD 1 0) rest := by
  have short := h.trans_le (operandCount_le _)
  match operands, h, short with
  | [], h, _ | [_], h, _ | [_, _], h, _ => simp [decode, ← h]

/-- The encoding of a well-formed instruction: a byte whose registry entry is its operation in its mode, then its
operand bytes. -/
theorem encode_of_wellFormed {i : Instr} (hw : i.wellFormed = true) :
    ∃ code, encode i = some (code :: i.operandBytes) ∧ i.opcode = some code ∧
      (lookup code.toNat).op = i.op ∧ (lookup code.toNat).mode = i.mode := by
  obtain ⟨code, hcode, hop, hmode⟩ := registered_all i hw
  exact ⟨code, by rw [encode, hcode]; rfl, hcode, hop, hmode⟩

theorem encode_length {i : Instr} {ws : List Byte} (h : encode i = some ws) : ws.length = i.length := by
  obtain ⟨code, -, rfl⟩ := Option.map_eq_some_iff.1 h
  rw [List.length_cons, operandBytes_length, Instr.length, Nat.add_comm]

/-- The bytes of a well-formed instruction decode to it, whatever follows them. -/
theorem decode_encode {i : Instr} (hw : i.wellFormed = true) {ws : List Byte} (h : encode i = some ws)
    (rest : List Byte) : decode (ws ++ rest) = .ok i rest := by
  obtain ⟨code, hencode, hcode, hop, hmode⟩ := encode_of_wellFormed hw
  obtain rfl : ws = code :: i.operandBytes := Option.some.inj (h.symm.trans hencode)
  have hlen := operandBytes_length i
  have operands := take_getD_pair (hlen.trans_le (operandCount_le _))
  rw [hlen] at operands
  have assembled := ofParts_of i hw code hcode _ _ operands.symm
  rw [List.cons_append, decode_cons_append (by rw [hlen, hmode]), decodeWith, hop, hmode, assembled]

/-- Settles O1: a well-formed instruction has an encoding (`encode_of_wellFormed`), and decoding undoes it. -/
theorem decodeEncodeRoundTrip : Obligations.DecodeEncodeRoundTrip := fun _ hw =>
  have ⟨_, hencode, _⟩ := encode_of_wellFormed hw
  ⟨_, hencode, encode_length hencode, decode_encode hw hencode⟩

/-! ### Every three bytes begin with an encoding (R81) -/

/-- Every opcode byte assembles, with any operand bytes, to a well-formed instruction of that byte. -/
theorem ofParts_total (code b1 b2 : Byte) :
    ∃ i, Instr.ofParts (lookup code.toNat).op (lookup code.toNat).mode code b1 b2 = some i ∧
      i.wellFormed = true ∧ i.opcode = some code := by
  obtain ⟨i0, hparts0, hi0⟩ := (Option.any_eq_true _ _).1 (ofParts_sweep code)
  obtain ⟨hw0, hcode0⟩ := Bool.and_eq_true_iff.1 hi0
  obtain ⟨i, hparts, hw, hcode⟩ := ofParts_congr _ _ code b1 b2 i0 hparts0
  exact ⟨i, hparts, hw.trans hw0, hcode.trans (of_decide_eq_true hcode0)⟩

theorem exists_encode_eq_take (b0 b1 b2 : Byte) (rest : List Byte) :
    ∃ i, i.wellFormed = true ∧ encode i = some ((b0 :: b1 :: b2 :: rest).take i.length) := by
  obtain ⟨i, hparts, hw, hcode⟩ := ofParts_total b0 b1 b2
  obtain ⟨-, hmode, hbytes⟩ := ofParts_inv _ _ _ _ _ _ hparts
  refine ⟨i, hw, ?_⟩
  have operands : (b1 :: b2 :: rest).take i.mode.operandCount = i.operandBytes := by
    rw [hbytes, hmode]
    exact List.take_append_of_le_length (l₁ := [b1, b2]) (operandCount_le _)
  rw [encode, hcode, Instr.length, Nat.add_comm, List.take_succ_cons, operands]
  rfl

/-- Settles O2: three bytes begin with the encoding of a well-formed instruction, which decoding undoes
(`decode_encode`). -/
theorem decodeTotalAndInverse : Obligations.DecodeTotalAndInverse := fun b0 b1 b2 rest => by
  obtain ⟨i, hw, hencode⟩ := exists_encode_eq_take b0 b1 b2 rest
  have hdecode := decode_encode hw hencode ((b0 :: b1 :: b2 :: rest).drop i.length)
  rw [List.take_append_drop] at hdecode
  exact ⟨i, hdecode, hw, hencode⟩

/-! ### The registry's entries (R74 to R80) -/

/-- Settles O3: the decoder run on each of the nine words. -/
theorem decodesWordsOfTheSpec : Obligations.DecodesWordsOfTheSpec :=
  ⟨rfl, rfl, rfl, rfl, rfl, rfl, rfl, rfl, rfl⟩

/-- Settles O4: the registry is a finite table, and every group of R80 is a finite list of its entries. -/
theorem baseCostsFollowThePattern : Obligations.BaseCostsFollowThePattern := by
  unfold Obligations.BaseCostsFollowThePattern
  decide +kernel

end Sys2Proof.Laws

/-! SUPPORT. The statements of 40_engine_addressing.md: the step and its cost, the quantum, the addressing modes and
their penalties, the additions, the compares, the shifts. -/

namespace Sys2Proof.Machine

/-! ### What a step runs (R90, R91, R325) -/

theorem step_of_nmi {s : State} (hfault : s.fault = false) (hnmi : s.nmiPending = true) : step s = serviceNmi s := by
  simp [step, nextEvent, hfault, hnmi]

theorem step_of_irq {s : State} (hfault : s.fault = false) (hnmi : s.nmiPending = false) (hirq : s.irqLine = true)
    (hi : s.flags.i = false) : step s = serviceIrq s := by
  simp [step, nextEvent, hfault, hnmi, hirq, hi]

/-- An undisturbed step runs the instruction that the bytes at PC decode to. -/
theorem step_of_decode {s : State} (hs : Undisturbed s) {i : Instr} {rest : List Byte}
    (hd : decode (fetchWindow s) = .ok i rest) : step s = exec i (afterFetch i s) := by
  obtain ⟨hfault, hnmi, hirq⟩ := hs
  have masked : (s.irqLine && !s.flags.i) = false := by
    rcases hirq with h | h <;> simp [h]
  simp [step, nextEvent, hfault, hnmi, masked, hd]

/-- Settles O5: `step_of_decode`, with `afterFetch` written out. -/
theorem stepRunsDecodedInstruction : Obligations.StepRunsDecodedInstruction :=
  fun _ _ _ hs hd => step_of_decode hs hd

/-- Up to three bytes that the reads from PC on give are the first of the fetch window. -/
theorem fetchWindow_eq_append {s : State} {ws : List Byte} (short : ws.length ≤ 3)
    (reads : ∀ k : Fin ws.length, memRead s (s.pc + BitVec.ofNat 16 k.val) = ws[k]) :
    fetchWindow s = ws ++ (fetchWindow s).drop ws.length := by
  have taken : (fetchWindow s).take ws.length = ws := by
    refine List.ext_getElem (List.length_take_of_le short) fun k hk hk' => ?_
    rw [List.getElem_take]
    refine Eq.trans ?_ (reads ⟨k, hk'⟩)
    match k, hk'.trans_le short with
    | 0, _ => exact congrArg (memRead s) (BitVec.add_zero s.pc).symm
    | 1, _ | 2, _ => rfl
  conv_lhs => rw [← List.take_append_drop ws.length (fetchWindow s), taken]

/-- Settles O6: the window begins with the encoding (`fetchWindow_eq_append`), which decoding undoes. -/
theorem stepRunsEncodedInstruction : Obligations.StepRunsEncodedInstruction := by
  intro s i ws hs hw hencode reads
  have hlen := Laws.encode_length hencode
  have short : ws.length ≤ 3 := by
    have := Laws.operandCount_le i.mode
    rw [hlen, Instr.length]
    omega
  have hd := Laws.decode_encode hw hencode ((fetchWindow s).drop ws.length)
  rw [← fetchWindow_eq_append short reads] at hd
  rw [step_of_decode hs hd, hlen]
  rfl

/-! ### Every instruction, and every step of an unfaulted machine, completes -/

theorem exec_completes (i : Instr) (s : State) : ∃ t, exec i s = .next t := by
  cases i
  case bpl | bmi | bvc | bvs | bcc | bcs | bne | beq => exact ⟨_, branch_eq _ _ _ _⟩
  all_goals exact ⟨_, rfl⟩

theorem decode_fetchWindow (s : State) : ∃ i rest, decode (fetchWindow s) = .ok i rest := by
  obtain ⟨i, hd, -⟩ := Laws.decodeTotalAndInverse (memRead s s.pc) (memRead s (s.pc + 1)) (memRead s (s.pc + 2)) []
  exact ⟨i, _, hd⟩

/-- A machine that is not faulted takes a step: a service sequence, or the instruction its window decodes to. -/
theorem step_completes {s : State} (hfault : s.fault = false) : ∃ t, step s = .next t := by
  cases hnmi : s.nmiPending with
  | true => exact ⟨_, (step_of_nmi hfault hnmi).trans (serviceNmi_eq s)⟩
  | false =>
    by_cases taken : s.irqLine = true ∧ s.flags.i = false
    · exact ⟨_, (step_of_irq hfault hnmi taken.1 taken.2).trans (serviceIrq_eq s)⟩
    · have masked : s.irqLine = false ∨ s.flags.i = true := by
        simpa only [not_and_or, Bool.not_eq_true, Bool.not_eq_false] using taken
      obtain ⟨i, rest, hd⟩ := decode_fetchWindow s
      obtain ⟨t, ht⟩ := exec_completes i (afterFetch i s)
      exact ⟨t, (step_of_decode ⟨hfault, hnmi, masked⟩ hd).trans ht⟩

/-! ### What a step costs (R80, R92) -/

/-- A decoded instruction is of the operation and the mode that the registry gives its opcode byte. -/
theorem op_mode_of_decode {code : Byte} {tail : List Byte} {i : Instr} {rest : List Byte}
    (hd : decode (code :: tail) = .ok i rest) :
    i.op = (lookup code.toNat).op ∧ i.mode = (lookup code.toNat).mode := by
  have assembled {b1 b2 : Byte} {r : List Byte} (h : decodeWith (lookup code.toNat) code b1 b2 r = .ok i rest) :
      i.op = (lookup code.toNat).op ∧ i.mode = (lookup code.toNat).mode := by
    unfold decodeWith at h
    split at h
    · next hparts =>
      obtain ⟨⟩ := h
      obtain ⟨hop, hmode, -⟩ := Laws.ofParts_inv _ _ _ _ _ _ hparts
      exact ⟨hop, hmode⟩
    · nomatch h
  unfold decode at hd
  dsimp only at hd
  split at hd
  · exact assembled hd
  · exact assembled hd
  · exact assembled hd
  · nomatch hd

/-- The base cost of a fetched instruction is that of the registry's entry at its opcode byte. -/
theorem baseCycles_of_decode {s : State} {i : Instr} {rest : List Byte} (hd : decode (fetchWindow s) = .ok i rest) :
    baseCycles i.op i.mode = (lookup (memRead s s.pc).toNat).base := by
  obtain ⟨hop, hmode⟩ := op_mode_of_decode hd
  rw [hop, hmode]
  exact baseCycles_lookup _ (by omega)

theorem op_eq_unimpl_iff (i : Instr) : i.op = .unimpl ↔ ∃ c, i = .unimpl c := by
  cases i <;> simp [Instr.op]

/-- A step that runs an instruction other than UNIMPL adds the entry's base cost and the penalties to the clock, and
leaves the latch clear. -/
theorem step_charges_fetched {s t : State} (hs : Undisturbed s) {i : Instr} {rest : List Byte}
    (hd : decode (fetchWindow s) = .ok i rest) (hi : i.op ≠ .unimpl) (ht : step s = .next t) :
    t.fault = false ∧
      t.cycles = s.cycles + ((lookup (memRead s s.pc).toNat).base + extraCycles i (afterFetch i s)) := by
  rw [step_of_decode hs hd] at ht
  obtain ⟨hfault, hcycles⟩ :=
    exec_charges i (afterFetch i s) t ht fun c hc => hi ((op_eq_unimpl_iff i).2 ⟨c, hc⟩)
  rw [baseCycles_of_decode hd] at hcycles
  exact ⟨hfault.trans hs.1, hcycles⟩

/-- The NMI service sequence adds the base cost of its entry, and leaves the latch. -/
theorem serviceNmi_charges (s : State) :
    ∃ t, serviceNmi s = .next t ∧ t.fault = s.fault ∧ t.cycles = s.cycles + (lookup 256).base :=
  ⟨_, rfl, enterInterrupt_fault cfg.vecNmi _ _ _, congrArg (· + _) (enterInterrupt_cycles cfg.vecNmi _ _ _)⟩

/-- The IRQ service sequence adds the base cost of its entry, and leaves the latch. -/
theorem serviceIrq_charges (s : State) :
    ∃ t, serviceIrq s = .next t ∧ t.fault = s.fault ∧ t.cycles = s.cycles + (lookup 257).base :=
  ⟨_, rfl, enterInterrupt_fault cfg.vecIrq _ _ _, congrArg (· + _) (enterInterrupt_cycles cfg.vecIrq _ _ _)⟩

theorem opmap_getElem? {k : Nat} (hk : k < 258) : cfg.opmap[k]? = some (lookup k) := by
  have inside : k < cfg.opmap.length := hk.trans_eq (by decide +kernel)
  simp [lookup, List.getElem?_eq_getElem inside]

/-- Settles O60: the fetched instruction pays its byte's entry (`step_charges_fetched`), the service sequences theirs. -/
theorem stepChargesRegistryEntry : Obligations.StepChargesRegistryEntry := by
  refine ⟨fun k hk => opmap_getElem? hk, fun s => ⟨fun i rest hs hd hi => ?_, fun hfault hnmi => ?_,
    fun hfault hnmi hirq hmask => ?_⟩⟩
  · obtain ⟨t, ht⟩ := step_completes hs.1
    exact ⟨t, ht, (step_charges_fetched hs hd hi ht).2.trans (Nat.add_assoc _ _ _).symm⟩
  · obtain ⟨t, ht, -, hcycles⟩ := serviceNmi_charges s
    exact ⟨t, (step_of_nmi hfault hnmi).trans ht, hcycles⟩
  · obtain ⟨t, ht, -, hcycles⟩ := serviceIrq_charges s
    exact ⟨t, (step_of_irq hfault hnmi hirq hmask).trans ht, hcycles⟩

/-- Every opcode byte but those of UNIMPL costs 2 to 8 cycles, penalties included (R80). -/
theorem base_bounds : ∀ code : Byte, (lookup code.toNat).op ≠ .unimpl →
    2 ≤ (lookup code.toNat).base ∧ (lookup code.toNat).base + maxPenalty (lookup code.toNat).mode ≤ 8 := by
  decide +kernel

/-- UNIMPL sets the latch and adds no cycle (R231). -/
theorem exec_unimpl_next {c : Byte} {s t : State} (h : exec (.unimpl c) s = .next t) :
    t.fault = true ∧ t.cycles = s.cycles := by
  obtain ⟨⟩ := h
  exact ⟨rfl, rfl⟩

/-- A step either leaves the latch clear and costs 2 to 8 cycles, or latches the fault and costs none. -/
theorem step_cost {s t : State} (h : step s = .next t) :
    (t.fault = false ∧ s.cycles + 2 ≤ t.cycles ∧ t.cycles ≤ s.cycles + 8) ∨
      (t.fault = true ∧ t.cycles = s.cycles) := by
  obtain ⟨hfault, ⟨-, h⟩ | ⟨-, -, -, h⟩ | ⟨hnmi, hirq, i, rest, hd, hexec⟩⟩ := step_cases h
  · obtain ⟨t', ht, htfault, hcycles⟩ := serviceNmi_charges s
    obtain rfl : t' = t := Host.Outcome.next.inj (ht.symm.trans h)
    have cost : (lookup 256).base = 7 := rfl
    exact .inl ⟨htfault.trans hfault, by omega, by omega⟩
  · obtain ⟨t', ht, htfault, hcycles⟩ := serviceIrq_charges s
    obtain rfl : t' = t := Host.Outcome.next.inj (ht.symm.trans h)
    have cost : (lookup 257).base = 7 := rfl
    exact .inl ⟨htfault.trans hfault, by omega, by omega⟩
  · by_cases hi : i.op = .unimpl
    · obtain ⟨c, rfl⟩ := (op_eq_unimpl_iff i).1 hi
      obtain ⟨htfault, hcycles⟩ := exec_unimpl_next hexec
      exact .inr ⟨htfault, hcycles⟩
    · obtain ⟨htfault, hcycles⟩ := step_charges_fetched ⟨hfault, hnmi, hirq⟩ hd hi h
      obtain ⟨hop, hmode⟩ := op_mode_of_decode hd
      obtain ⟨low, high⟩ := base_bounds (memRead s s.pc) (hop ▸ hi)
      have extra := extraCycles_le i (afterFetch i s)
      rw [hmode] at extra
      exact .inl ⟨htfault, by omega, by omega⟩

/-- Settles O9: the two cases of `step_cost`. -/
theorem stepCostBounds : Obligations.StepCostBounds := by
  intro s t h
  rcases step_cost h with ⟨hfault, bounds⟩ | ⟨hfault, hcycles⟩ <;> simp [*]

/-! ### The quantum (R93) -/

/-- What a quantum of a given budget ends in, from `s`: the budget spent with an overshoot of at most 7 cycles and the
frame of the memory then held shown, or the fault latched before the budget is spent and no frame shown. -/
def QuantumEnds (budget : Nat) (s t : State) : Prop :=
  (t.fault = false ∧ t.frameReady = true ∧ s.cycles + budget ≤ t.cycles ∧ t.cycles ≤ s.cycles + budget + 7 ∧
    t.fb = frame t.mem t.bankSel) ∨
  (t.fault = true ∧ t.frameReady = s.frameReady ∧ t.fb = s.fb ∧ t.cycles < s.cycles + budget)

theorem runQuantum_zero {fuel : Nat} (hfuel : 0 < fuel) (s : State) : runQuantum fuel 0 s = decodePass s := by
  obtain ⟨n, rfl⟩ := Nat.exists_eq_add_of_lt hfuel
  exact if_pos rfl

/-- One turn of the loop, with budget left. -/
theorem runQuantum_succ {budget : Nat} (hbudget : budget ≠ 0) (fuel : Nat) {s t : State} (h : step s = .next t) :
    runQuantum (fuel + 1) budget s =
      if t.fault then t else runQuantum fuel (budget - (t.cycles - s.cycles)) t := by
  rw [runQuantum, if_neg hbudget, h]

/-- A decode pass ends the quantum whose budget the clock has run past by at most 7 cycles. -/
theorem quantumEnds_decodePass {budget : Nat} {s t : State} (hfault : t.fault = false)
    (low : s.cycles + budget ≤ t.cycles) (high : t.cycles ≤ s.cycles + budget + 7) :
    QuantumEnds budget s (decodePass t) := by
  refine .inl ⟨?_, decodePass_frameReady t, ?_, ?_, ?_⟩
  · rwa [decodePass_fault]
  · rwa [decodePass_cycles]
  · rwa [decodePass_cycles]
  · rw [decodePass_fb, decodePass_mem, decodePass_bankSel]

/-- The rest of a quantum after a step within the budget that completes. -/
theorem QuantumEnds.of_step {budget : Nat} {s t u : State} (h : step s = .next t)
    (within : t.cycles - s.cycles ≤ budget) (later : s.cycles ≤ t.cycles)
    (rest : QuantumEnds (budget - (t.cycles - s.cycles)) t u) : QuantumEnds budget s u := by
  obtain ⟨hfb, hready, -⟩ := stepLeavesHostSideAlone s t h
  rcases rest with ⟨hfault, hshown, low, high, hframe⟩ | ⟨hfault, hready', hfb', low⟩
  · exact .inl ⟨hfault, hshown, by omega, by omega, hframe⟩
  · exact .inr ⟨hfault, hready'.trans hready, hfb'.trans hfb, by omega⟩

/-- The loop of a tick ends as a quantum does, whenever it may take more steps than its budget has cycles. -/
theorem runQuantum_ends {fuel budget : Nat} (hfuel : budget < fuel) {s : State} (hs : s.fault = false) :
    QuantumEnds budget s (runQuantum fuel budget s) := by
  induction fuel generalizing budget s with
  | zero => omega
  | succ fuel ih =>
    by_cases spent : budget = 0
    · subst spent
      rw [runQuantum_zero hfuel]
      exact quantumEnds_decodePass hs (Nat.le_refl _) (by omega)
    · obtain ⟨t, ht⟩ := step_completes hs
      rw [runQuantum_succ spent fuel ht]
      rcases step_cost ht with ⟨hfault, low, high⟩ | ⟨hfault, hcycles⟩
      · rw [hfault, if_neg Bool.false_ne_true]
        by_cases last : budget ≤ t.cycles - s.cycles
        · rw [Nat.sub_eq_zero_of_le last, runQuantum_zero (by omega)]
          exact quantumEnds_decodePass hfault (by omega) (by omega)
        · exact .of_step ht (by omega) (by omega) (ih (by omega) hfault)
      · rw [hfault, if_pos rfl]
        obtain ⟨hfb, hready, -⟩ := stepLeavesHostSideAlone s t ht
        exact .inr ⟨hfault, hready, hfb, by omega⟩

/-- Settles O56: a tick that runs is the loop with one step more than the quantum has cycles (`runQuantum_ends`). -/
theorem tickRunsOneQuantum : Obligations.TickRunsOneQuantum := by
  refine fun s => ⟨fun idle => ?_, fun hrunning hfault => ?_⟩
  · unfold tick
    rcases idle with h | h <;> simp [h]
  · have runs : tick s = runQuantum (cfg.cycleQuantum + 1) cfg.cycleQuantum s := by
      unfold tick
      rw [hrunning, hfault]
      rfl
    rw [runs]
    exact runQuantum_ends (Nat.lt_succ_self _) hfault

/-! ### Effective addresses and their penalties (R96 to R109) -/

theorem zext_eq_ofNat (b : Byte) : zext b = BitVec.ofNat 16 b.toNat :=
  BitVec.eq_of_toNat_eq (BitVec.toNat_setWidth _ _)

/-- A zero-page pointer as a number: its high byte comes from the next zero-page address, modulo 256 (R43). -/
theorem memRead16zp_toNat (s : State) (z : Byte) : (memRead16zp s z).toNat =
    (memRead s (BitVec.ofNat 16 z.toNat)).toNat +
      256 * (memRead s (BitVec.ofNat 16 ((z.toNat + 1) % 256))).toNat := by
  rw [memRead16zp, word_toNat_low_first, zext_eq_ofNat, zext_eq_ofNat, BitVec.toNat_add]
  rfl

/-- Indexing an address, modulo 65536 (R102, R103). -/
theorem add_zext_toNat (w : Addr) (b : Byte) : (w + zext b).toNat = (w.toNat + b.toNat) % 65536 := by
  rw [BitVec.toNat_add, zext_toNat]

/-- The high byte's address of an indirect pointer: the next address of the pointer's own page (R107). -/
theorem word_hi_lo_succ (w : Addr) :
    word (hi w) (lo w + 1) = BitVec.ofNat 16 (w.toNat / 256 * 256 + (w.toNat + 1) % 256) := by
  apply BitVec.eq_of_toNat_eq
  have one : (1 : Byte).toNat = 1 := rfl
  have := w.isLt
  rw [word_toNat, hi_toNat, BitVec.toNat_add, lo_toNat, one, BitVec.toNat_ofNat]
  omega

/-- Settles O10: the rules above, mode by mode. -/
theorem effectiveAddresses : Obligations.EffectiveAddresses := by
  refine fun s b w => ⟨zext_toNat b, ?_, ?_, ?_, ?_, rfl, ?_, ?_, ?_⟩
  · exact (zext_toNat _).trans (BitVec.toNat_add _ _)
  · exact (zext_toNat _).trans (BitVec.toNat_add _ _)
  · rintro z rfl
    exact (memRead16zp_toNat s _).trans (by rw [BitVec.toNat_add])
  · intro m hm
    have ea : effAddr m s = memRead16zp s b + zext s.y := by
      rcases List.mem_pair.1 hm with rfl | rfl <;> rfl
    rw [ea, add_zext_toNat, memRead16zp_toNat]
  · intro m hm
    have ea : effAddr m s = w + zext s.x := by
      rcases List.mem_pair.1 hm with rfl | rfl <;> rfl
    rw [ea, add_zext_toNat]
  · intro m hm
    have ea : effAddr m s = w + zext s.y := by
      rcases List.mem_pair.1 hm with rfl | rfl <;> rfl
    rw [ea, add_zext_toNat]
  · rw [effAddr, word_hi_lo_succ, word_toNat_low_first]

/-- Index 0 crosses no page. -/
theorem pageCross_add_zext_zero (w : Addr) : pageCross w (w + zext 0) = 0 := by
  rw [show zext 0 = 0#16 from rfl, BitVec.add_zero, pageCross, if_pos rfl]

/-- Settles O11: the page test by numbers (`pageCross_eq`), and `exec_charges` for the nine readers. -/
theorem pageCrossingCostsOneCycle : Obligations.PageCrossingCostsOneCycle := by
  refine fun s => ⟨fun w => ⟨pageCross_eq _ _, pageCross_eq _ _⟩, fun b => pageCross_eq _ _, fun hx w => ?_,
    fun hy w => ⟨?_, fun b => ?_⟩, fun m hm => penalty_zero hm, fun m i hi => ?_⟩
  · rw [penalty, hx, pageCross_add_zext_zero]
  · rw [penalty, hy, pageCross_add_zext_zero]
  · rw [penalty, hy, pageCross_add_zext_zero]
  · obtain ⟨t, ht⟩ := exec_completes i s
    have reader : i.op ≠ .unimpl ∧ i.mode = m.mode ∧ extraCycles i s = penalty m s := by
      simp only [List.mem_cons, List.not_mem_nil, or_false] at hi
      rcases hi with rfl | rfl | rfl | rfl | rfl | rfl | rfl | rfl | rfl <;> exact ⟨nofun, rfl, rfl⟩
    obtain ⟨hop, hmode, hextra⟩ := reader
    have charged := (exec_charges i s t ht fun c hc => hop ((op_eq_unimpl_iff i).2 ⟨c, hc⟩)).2
    rw [hmode, hextra, ← Nat.add_assoc] at charged
    exact ⟨t, ht, charged⟩

/-! ### Frames, and completing within one -/

/-- What two operations one after the other leave unchanged. -/
theorem Frame.trans {r₁ r₂ : List Reg} {f₁ f₂ : List Flag} {a₁ a₂ : List Addr} {s t u : State}
    (hst : Frame r₁ f₁ a₁ s t) (htu : Frame r₂ f₂ a₂ t u) : Frame (r₁ ++ r₂) (f₁ ++ f₂) (a₁ ++ a₂) s u where
  reg r hr := by
    obtain ⟨h₁, h₂⟩ := not_or.1 (mt List.mem_append.2 hr)
    exact (htu.reg r h₂).trans (hst.reg r h₁)
  flag f hf := by
    obtain ⟨h₁, h₂⟩ := not_or.1 (mt List.mem_append.2 hf)
    exact (htu.flag f h₂).trans (hst.flag f h₁)
  mem a ha := by
    obtain ⟨h₁, h₂⟩ := not_or.1 (mt List.mem_append.2 ha)
    exact (htu.mem a h₂).trans (hst.mem a h₁)
  host := hst.host.trans htu.host
  fault := htu.fault.trans hst.fault
  faultByte := htu.faultByte.trans hst.faultByte
  bank h := (htu.bank (List.append_eq_nil_iff.1 h).2).trans (hst.bank (List.append_eq_nil_iff.1 h).1)
  dirty h := (htu.dirty (List.append_eq_nil_iff.1 h).2).trans (hst.dirty (List.append_eq_nil_iff.1 h).1)

/-- An update of registers and flags alone, within the registers and flags named. -/
theorem Frame.of_sameStore {regs : List Reg} {flags : List Flag} {s t : State} (same : SameStore s t)
    (hfault : t.fault = s.fault) (hbyte : t.faultByte = s.faultByte) (hreg : ∀ r, r ∉ regs → regOf r t = regOf r s)
    (hflag : ∀ f, f ∉ flags → flagOf f t = flagOf f s) : Frame regs flags [] s t :=
  ⟨hreg, hflag, fun a _ => cell_eq_of_mem same.mem a, same.host, hfault, hbyte, fun _ => same.bankSel,
    fun _ => same.dirty⟩

theorem frame_setFlags {flags : List Flag} {s : State} (new : Flags)
    (kept : ∀ f, f ∉ flags → flagOf f { s with flags := new } = flagOf f s) :
    Frame [] flags [] s { s with flags := new } :=
  .of_sameStore ⟨rfl, rfl, rfl, rfl, rfl, rfl, rfl, rfl⟩ rfl rfl (fun r _ => by cases r <;> rfl) kept

theorem frame_setA (v : Byte) (s : State) : Frame [.a] [] [] s { s with a := v } := by
  refine .of_sameStore ⟨rfl, rfl, rfl, rfl, rfl, rfl, rfl, rfl⟩ rfl rfl (fun r hr => ?_) (fun f _ => ?_)
  · cases r
    case a => simp at hr
    all_goals rfl
  · cases f <;> rfl

/-- The clock is in no frame. -/
theorem Frame.charged {regs : List Reg} {flags : List Flag} {stored : List Addr} {s t : State}
    (h : Frame regs flags stored s t) (op : Op) (mode : Mode) (pen : Nat) :
    Frame regs flags stored s (charged op mode pen t) :=
  ⟨h.reg, h.flag, h.mem, ⟨h.host.fb, h.host.frameReady, h.host.running, h.host.nmiPending, h.host.irqLine⟩, h.fault,
    h.faultByte, h.bank, h.dirty⟩

/-- An instruction that ends in `charged` completes with the frame of what it did before. -/
theorem completes_charged {op : Op} {mode : Mode} {pen : Nat} {regs : List Reg} {flags : List Flag} {s t : State}
    (hpc : t.pc = s.pc) (hcycles : t.cycles = s.cycles) (hframe : Frame regs flags [] s t) :
    Completes op mode pen regs flags s (charged op mode pen t) where
  pc := hpc
  cycles := by rw [Nat.add_assoc, ← hcycles]; rfl
  frame := hframe.charged op mode pen

/-- A write seen from before an operation that stored nothing. -/
theorem Wrote.of_frame {regs : List Reg} {flags : List Flag} {a : Addr} {v : Byte} {s t u : State}
    (hframe : Frame regs flags [] s t) (h : Wrote a v t u) : Wrote a v s u where
  select0 := h.select0
  select1 := h.select1
  keepBank ha := (h.keepBank ha).trans (hframe.bank rfl)
  selectStoresNothing ha := by
    obtain ⟨hcell, hdirty⟩ := h.selectStoresNothing ha
    exact ⟨hcell.trans (hframe.mem a List.not_mem_nil), hdirty.trans (hframe.dirty rfl)⟩
  stored := h.stored
  marks ha i := by rw [h.marks ha i, hframe.dirty rfl]

theorem Wrote.charged {a : Addr} {v : Byte} {s t : State} (h : Wrote a v s t) (op : Op) (mode : Mode) (pen : Nat) :
    Wrote a v s (charged op mode pen t) :=
  ⟨h.select0, h.select1, h.keepBank, h.selectStoresNothing, h.stored, h.marks⟩

/-- An instruction that updates registers and flags and then writes a byte completes as a store of that byte. -/
theorem completesStore_charged {op : Op} {mode : Mode} {regs : List Reg} {flags : List Flag} {a : Addr} {v : Byte}
    {s t : State} (hpc : t.pc = s.pc) (hcycles : t.cycles = s.cycles) (hframe : Frame regs flags [] s t) :
    CompletesStore op mode regs flags a v s (charged op mode 0 (memWrite a v t)) where
  pc := (memWrite_pc a v t).trans hpc
  cycles := congrArg (· + baseCycles op mode) ((memWrite_cycles a v t).trans hcycles)
  wrote := ((wrote_memWrite a v t).of_frame hframe).charged op mode 0
  frame := by
    have both := hframe.trans (frame_memWrite a v t)
    rw [List.append_nil, List.append_nil] at both
    exact both.charged op mode 0

theorem NZFollow.of_flags {r : Byte} {s t : State} (h : NZFollow r s) (flags : t.flags = s.flags) : NZFollow r t := by
  rwa [NZFollow, flags]

theorem penalty_rmw {m : MemOperand} (hm : m.mode ∈ rmwModes) (s : State) : penalty m s = 0 :=
  penalty_zero ((by decide : ∀ mode ∈ rmwModes, mode ∉ [Mode.abxp, .abyp, .izyp]) m.mode hm)

/-! ### Additions and compares (R114, R115) -/

theorem frame_addCore (m : Byte) (s : State) : Frame [.a] [.n, .v, .z, .c] [] s (addCore m s) := by
  refine (frame_setA _ s).trans (frame_setFlags (addCore m s).flags fun f hf => ?_)
  cases f
  case d | i => rfl
  all_goals simp at hf

/-- The sum of R114 as numbers: A, C and V after `AddCore`, with N and Z from A. -/
theorem addCore_sum (m : Byte) (s : State) :
    (addCore m s).a.toNat = (s.a.toNat + m.toNat + s.flags.c.toNat) % 256 ∧
    (addCore m s).flags.c = decide (255 < s.a.toNat + m.toNat + s.flags.c.toNat) ∧
    (addCore m s).flags.v = decide ((128 ≤ s.a.toNat ↔ 128 ≤ m.toNat) ∧
      ¬ (128 ≤ m.toNat ↔ 128 ≤ (addCore m s).a.toNat)) ∧
    NZFollow (addCore m s).a (addCore m s) :=
  ⟨BitVec.toNat_ofNat _ _, rfl, addOverflow_eq _ _ _, setNZ_follows _ _⟩

/-- Settles O21: both instructions are `AddCore` of the operand or its complement (`addCore_sum`, `frame_addCore`). -/
theorem addWithCarry : Obligations.AddWithCarry := by
  intro o s i m hi
  have runs : exec i s = finish i.op o.mode (operandPenalty o s) (addCore m s) := by
    rcases hi with ⟨rfl, rfl⟩ | ⟨rfl, rfl⟩ <;> rfl
  obtain ⟨ha, hc, hv, hnz⟩ := addCore_sum m s
  exact ⟨_, runs, ha, hc, hv, hnz, completes_charged rfl rfl (frame_addCore m s)⟩

/-- The flags that the compares and the shifts write: C, and N and Z from a result. -/
def setCNZ (r : Byte) (c : Bool) (s : State) : State := setNZ r (setC c s)

theorem frame_setCNZ (r : Byte) (c : Bool) (s : State) : Frame [] [.n, .z, .c] [] s (setCNZ r c s) := by
  refine frame_setFlags (setCNZ r c s).flags fun f hf => ?_
  cases f
  case v | d | i => rfl
  all_goals simp at hf

theorem compare_eq (reg m : Byte) (s : State) :
    compare reg m s = setCNZ (BitVec.ofNat 8 (compareSum reg m)) (decide (255 < compareSum reg m)) s := rfl

/-- The flags of R115 as numbers. -/
theorem compare_flags (reg m : Byte) (s : State) :
    (compare reg m s).flags.c = decide (m.toNat ≤ reg.toNat) ∧
    (compare reg m s).flags.z = decide (reg = m) ∧
    (compare reg m s).flags.n = decide (128 ≤ (reg.toNat + 256 - m.toNat) % 256) := by
  have hm := m.isLt
  have hreg := reg.isLt
  have sum : compareSum reg m = reg.toNat + 256 - m.toNat := by rw [compareSum_eq]; omega
  have diff : (BitVec.ofNat 8 (compareSum reg m)).toNat = (reg.toNat + 256 - m.toNat) % 256 := by
    rw [BitVec.toNat_ofNat, sum]
  rw [compare_eq]
  refine ⟨decide_eq_decide.2 ?_, decide_eq_decide.2 ?_, ?_⟩
  · rw [sum]
    omega
  · have zero : (0 : Byte).toNat = 0 := rfl
    rw [← BitVec.toNat_inj, ← BitVec.toNat_inj, diff, zero]
    omega
  · rw [← diff]
    exact getLsbD_seven _

/-- Settles O23: each of the three is `Compare` of its register and the operand (`compare_flags`, `frame_setCNZ`). -/
theorem comparesSetCarryZeroNegative : Obligations.ComparesSetCarryZeroNegative := by
  rintro o s i reg m rfl hi
  have runs : exec i s = finish i.op o.mode (operandPenalty o s) (compare reg (operandValue o s) s) := by
    rcases hi with ⟨rfl, rfl⟩ | ⟨rfl, rfl⟩ | ⟨rfl, rfl⟩ <;> rfl
  obtain ⟨hc, hz, hn⟩ := compare_flags reg (operandValue o s) s
  exact ⟨_, runs, hc, hz, hn, completes_charged rfl rfl (frame_setCNZ _ _ _)⟩

/-! ### Shifts and rotates (R116) -/

theorem shiftL_eq (v : Byte) (s : State) :
    shiftL v s = (BitVec.ofNat 8 (2 * v.toNat),
      setCNZ (BitVec.ofNat 8 (2 * v.toNat)) (decide (128 ≤ v.toNat)) s) := by
  simp only [shiftL, setCNZ, (shift_values v).1, getLsbD_seven]

theorem shiftR_eq (v : Byte) (s : State) :
    shiftR v s = (BitVec.ofNat 8 (v.toNat / 2),
      setCNZ (BitVec.ofNat 8 (v.toNat / 2)) (decide (v.toNat % 2 = 1)) s) := by
  simp only [shiftR, setCNZ, (shift_values v).2.1, (getLsbD_low v).2.2]

theorem rotL_eq (v : Byte) (s : State) :
    rotL v s = (BitVec.ofNat 8 (2 * v.toNat + s.flags.c.toNat),
      setCNZ (BitVec.ofNat 8 (2 * v.toNat + s.flags.c.toNat)) (decide (128 ≤ v.toNat)) s) := by
  simp only [rotL, setCNZ, (rotate_values s.flags.c v).1, getLsbD_seven]

theorem rotR_eq (v : Byte) (s : State) :
    rotR v s = (BitVec.ofNat 8 (v.toNat / 2 + 128 * s.flags.c.toNat),
      setCNZ (BitVec.ofNat 8 (v.toNat / 2 + 128 * s.flags.c.toNat)) (decide (v.toNat % 2 = 1)) s) := by
  simp only [rotR, setCNZ, (rotate_values s.flags.c v).2, (getLsbD_low v).2.2]

/-- An accumulator shift completes: its result in A, and its flags. -/
theorem shiftAcc_completes {op : Op} {f : Byte → State → Byte × State} {s : State} {r : Byte} {c : Bool}
    (hf : f s.a s = (r, setCNZ r c s)) :
    ∃ t, finish op .imp 0 (modifyAcc f s) = .next t ∧ t.a = r ∧ t.flags.c = c ∧ NZFollow r t ∧
      Completes op .imp 0 [.a] [.n, .z, .c] s t := by
  have shifted : modifyAcc f s = { setCNZ r c s with a := r } := by rw [modifyAcc, hf]
  rw [shifted]
  exact ⟨_, rfl, rfl, rfl, setNZ_follows r _,
    completes_charged rfl rfl ((frame_setCNZ r c s).trans (frame_setA r _))⟩

/-- Settles O28: each of the four is its shift function on A (`shiftAcc_completes`). -/
theorem shiftsModifyAccumulator : Obligations.ShiftsModifyAccumulator := by
  rintro s v rfl i r c hi
  simp only [List.mem_cons, List.not_mem_nil, or_false, Prod.mk.injEq] at hi
  rcases hi with ⟨rfl, rfl, rfl⟩ | ⟨rfl, rfl, rfl⟩ | ⟨rfl, rfl, rfl⟩ | ⟨rfl, rfl, rfl⟩
  · exact shiftAcc_completes (shiftL_eq s.a s)
  · exact shiftAcc_completes (shiftR_eq s.a s)
  · exact shiftAcc_completes (rotL_eq s.a s)
  · exact shiftAcc_completes (rotR_eq s.a s)

/-- A memory shift completes: its result written at the address read, and its flags. -/
theorem shiftMem_completes {op : Op} {m : MemOperand} (hm : m.mode ∈ rmwModes) {f : Byte → State → Byte × State}
    {s : State} {r : Byte} {c : Bool} (hf : f (memRead s (effAddr m s)) s = (r, setCNZ r c s)) :
    ∃ t, Machine.modify op m f s = .next t ∧ t.flags.c = c ∧ NZFollow r t ∧
      CompletesStore op m.mode [] [.n, .z, .c] (effAddr m s) r s t := by
  have runs : Machine.modify op m f s = finish op m.mode 0 (memWrite (effAddr m s) r (setCNZ r c s)) := by
    rw [Machine.modify, readModifyWrite, hf, penalty_rmw hm]
  have flags := memWrite_flags (effAddr m s) r (setCNZ r c s)
  exact ⟨_, runs, congrArg Flags.c flags, (setNZ_follows r _).of_flags flags,
    completesStore_charged rfl rfl (frame_setCNZ r c s)⟩

/-- Settles O27: each of the four is its shift function on the byte read (`shiftMem_completes`). -/
theorem shiftsModifyMemory : Obligations.ShiftsModifyMemory := by
  rintro m s v hm rfl i r c hi
  simp only [List.mem_cons, List.not_mem_nil, or_false, Prod.mk.injEq] at hi
  rcases hi with ⟨rfl, rfl, rfl⟩ | ⟨rfl, rfl, rfl⟩ | ⟨rfl, rfl, rfl⟩ | ⟨rfl, rfl, rfl⟩
  · exact shiftMem_completes hm (shiftL_eq _ s)
  · exact shiftMem_completes hm (shiftR_eq _ s)
  · exact shiftMem_completes hm (rotL_eq _ s)
  · exact shiftMem_completes hm (rotR_eq _ s)

end Sys2Proof.Machine

/-! SUPPORT. The statements of 41_load_store_transfer.md: loads, stores, register transfers. -/

namespace Sys2Proof.Machine

/-! ### A register written -/

/-- The state with one 8-bit register written. -/
def setReg (r : Reg) (v : Byte) (s : State) : State :=
  match r with
  | .a => { s with a := v }
  | .x => { s with x := v }
  | .y => { s with y := v }
  | .sp => { s with sp := v }

@[simp] theorem regOf_setReg (r r' : Reg) (v : Byte) (s : State) :
    regOf r' (setReg r v s) = if r' = r then v else regOf r' s := by
  cases r <;> cases r' <;> rfl

theorem regOf_setReg_self (r : Reg) (v : Byte) (s : State) : regOf r (setReg r v s) = v :=
  (regOf_setReg r r v s).trans (if_pos rfl)

@[simp] theorem setReg_flags (r : Reg) (v : Byte) (s : State) : (setReg r v s).flags = s.flags := by cases r <;> rfl

@[simp] theorem setReg_pc (r : Reg) (v : Byte) (s : State) : (setReg r v s).pc = s.pc := by cases r <;> rfl

@[simp] theorem setReg_cycles (r : Reg) (v : Byte) (s : State) : (setReg r v s).cycles = s.cycles := by cases r <;> rfl

@[simp] theorem setReg_fault (r : Reg) (v : Byte) (s : State) : (setReg r v s).fault = s.fault := by cases r <;> rfl

@[simp] theorem setReg_faultByte (r : Reg) (v : Byte) (s : State) : (setReg r v s).faultByte = s.faultByte := by
  cases r <;> rfl

theorem sameStore_setReg (r : Reg) (v : Byte) (s : State) : SameStore s (setReg r v s) := by
  cases r <;> exact ⟨rfl, rfl, rfl, rfl, rfl, rfl, rfl, rfl⟩

theorem frame_setReg (r : Reg) (v : Byte) (s : State) : Frame [r] [] [] s (setReg r v s) := by
  refine .of_sameStore (sameStore_setReg r v s) (setReg_fault r v s) (setReg_faultByte r v s) (fun r' hr' => ?_)
    (fun f _ => ?_)
  · rw [regOf_setReg, if_neg (mt List.mem_singleton.2 hr')]
  · simp only [flagOf, setReg_flags]

theorem frame_setNZ (v : Byte) (s : State) : Frame [] [.n, .z] [] s (setNZ v s) := by
  refine frame_setFlags (setNZ v s).flags fun f hf => ?_
  cases f
  case v | d | i | c => rfl
  all_goals simp at hf

theorem regOf_setNZ (r : Reg) (v : Byte) (s : State) : regOf r (setNZ v s) = regOf r s := by cases r <;> rfl

/-! ### Loads and transfers (R113, R120 to R122, R126 to R131) -/

theorem setReg_completes (op : Op) (mode : Mode) (pen : Nat) (r : Reg) (v : Byte) (s : State) :
    ∃ t, finish op mode pen (setReg r v s) = .next t ∧ regOf r t = v ∧ Completes op mode pen [r] [] s t := by
  exact ⟨charged op mode pen (setReg r v s), rfl, regOf_setReg_self r v s,
    completes_charged (setReg_pc r v s) (setReg_cycles r v s) (frame_setReg r v s)⟩

/-- A byte goes to a register, and N and Z follow it: what every load and every transfer but TXS does. -/
theorem setRegNZ_completes (op : Op) (mode : Mode) (pen : Nat) (r : Reg) (v : Byte) (s : State) :
    ∃ t, finish op mode pen (setNZ v (setReg r v s)) = .next t ∧ regOf r t = v ∧ NZFollow v t ∧
      Completes op mode pen [r] [.n, .z] s t := by
  exact ⟨charged op mode pen (setNZ v (setReg r v s)), rfl, (regOf_setNZ r v _).trans (regOf_setReg_self r v s),
    setNZ_follows v _,
    completes_charged (setReg_pc r v s) (setReg_cycles r v s) ((frame_setReg r v s).trans (frame_setNZ v _))⟩

/-- Settles O13: each load is `setRegNZ_completes` at its register, with the operand value. -/
theorem loadsSetRegisterAndNZ : Obligations.LoadsSetRegisterAndNZ := fun o s =>
  ⟨setRegNZ_completes .lda o.mode (operandPenalty o s) .a (operandValue o s) s,
    setRegNZ_completes .ldx o.mode (operandPenalty o s) .x (operandValue o s) s,
    setRegNZ_completes .ldy o.mode (operandPenalty o s) .y (operandValue o s) s⟩

/-- Settles O15: each transfer is `setRegNZ_completes` at its two registers; TXS, which sets no flag (D13), is
`setReg_completes`. -/
theorem transfersCopyRegisters : Obligations.TransfersCopyRegisters := fun s =>
  ⟨setRegNZ_completes .tax .imp 0 .x s.a s, setRegNZ_completes .tay .imp 0 .y s.a s,
    setRegNZ_completes .txa .imp 0 .a s.x s, setRegNZ_completes .tya .imp 0 .a s.y s,
    setRegNZ_completes .tsx .imp 0 .x s.sp s, setReg_completes .txs .imp 0 .sp s.x s⟩

/-! ### Stores (R110, R123 to R125) -/

theorem Frame.refl (s : State) : Frame [] [] [] s s :=
  ⟨fun _ _ => rfl, fun _ _ => rfl, fun _ _ => rfl, ⟨rfl, rfl, rfl, rfl, rfl⟩, rfl, rfl, fun _ => rfl, fun _ => rfl⟩

/-- A store outside the penalized modes completes: one write at the effective address, at the base cost. -/
theorem store_completes (op : Op) {m : MemOperand} (hm : m.mode ∉ [Mode.abxp, .abyp, .izyp]) (v : Byte) (s : State) :
    ∃ t, store op m v s = .next t ∧ CompletesStore op m.mode [] [] (effAddr m s) v s t := by
  have runs : store op m v s = finish op m.mode 0 (memWrite (effAddr m s) v s) := by
    rw [store, penalty_zero hm]
  exact ⟨_, runs, completesStore_charged rfl rfl (Frame.refl s)⟩

/-- Settles O14: none of the modes of a store is penalized, so each is `store_completes` with its register. -/
theorem storesWriteOneByte : Obligations.StoresWriteOneByte := by
  intro m s hm
  have unpenalized : m.mode ∉ [Mode.abxp, .abyp, .izyp] :=
    (by decide : ∀ mode ∈ Mode.zpy :: staModes, mode ∉ [Mode.abxp, .abyp, .izyp]) m.mode hm
  exact ⟨store_completes .sta unpenalized s.a s, store_completes .stx unpenalized s.x s,
    store_completes .sty unpenalized s.y s⟩

end Sys2Proof.Machine

/-! SUPPORT. The statements of 42_stack.md: pushes, pulls, and a pull after a push. -/

namespace Sys2Proof.Machine

/-! ### Pushes (R111, R140, R142) -/

/-- A push is a write at the stack address, then SP one lower. -/
theorem frame_push (v : Byte) (s : State) : Frame [.sp] [] [stackAddr s.sp] s (push v s) :=
  (frame_memWrite (stackAddr s.sp) v s).trans (frame_setReg .sp (s.sp - 1) _)

theorem push_completes (op : Op) (v : Byte) (s : State) :
    ∃ t, finish op .imp 0 (push v s) = .next t ∧ CompletesPush op v s t := by
  exact ⟨charged op .imp 0 (push v s), rfl, {
    pc := push_pc v s
    cycles := congrArg (· + baseCycles op .imp) (push_cycles v s)
    sp := push_sp v s
    stored := (cell_push v s (stackAddr s.sp)).trans (if_pos rfl)
    frame := (frame_push v s).charged op .imp 0
    bank := push_keeps_bankSel v s
    dirty := push_keeps_dirty v s }⟩

/-- Settles O16: both instructions are `push_completes` with their byte, and bit 5 of PHP's byte is set (R15). -/
theorem pushesStoreBelowTheStack : Obligations.PushesStoreBelowTheStack := by
  intro s
  obtain ⟨t, runs, pushed⟩ := push_completes .php (packP cfg.phpBreak s.flags) s
  obtain ⟨-, -, bit5, -⟩ := getElem_packP cfg.phpBreak s.flags
  refine ⟨push_completes .pha s.a s, t, runs, pushed, ?_⟩
  rw [pushed.stored]
  exact bit5

/-! ### Pulls (R112, R141, R143) -/

theorem frame_pull (s : State) : Frame [.sp] [] [] s (pull s) := frame_setReg .sp (s.sp + 1) s

/-- PLA writes A and SP, in either order, and then N and Z follow A. -/
theorem pla_completes (s : State) :
    ∃ t, exec .pla s = .next t ∧ t.a = cell s (stackAddr (s.sp + 1)) ∧ t.sp = s.sp + 1 ∧ NZFollow t.a t ∧
      Completes .pla .imp 0 [.a, .sp] [.n, .z] s t := by
  have frame : Frame [.a, .sp] [.n, .z] [] s (setNZ (pulled s) (pull { s with a := pulled s })) :=
    ((frame_setA (pulled s) s).trans (frame_pull _)).trans (frame_setNZ (pulled s) _)
  exact ⟨_, rfl, pulled_eq s, rfl, setNZ_follows (pulled s) _, completes_charged rfl rfl frame⟩

/-- PLP moves SP and then writes all six flags, so its frame keeps none of them. -/
theorem plp_completes (s : State) :
    ∃ t, exec .plp s = .next t ∧ t.flags = unpackP (cell s (stackAddr (s.sp + 1))) ∧ t.sp = s.sp + 1 ∧
      Completes .plp .imp 0 [.sp] [.n, .v, .d, .i, .z, .c] s t := by
  have frame : Frame [.sp] [.n, .v, .d, .i, .z, .c] [] s { pull s with flags := unpackP (pulled s) } :=
    (frame_pull s).trans (frame_setFlags (unpackP (pulled s)) fun f hf => absurd (by cases f <;> decide) hf)
  exact ⟨_, rfl, congrArg unpackP (pulled_eq s), rfl, completes_charged rfl rfl frame⟩

/-- Settles O17: `pla_completes` and `plp_completes`. -/
theorem pullsReadAboveTheStack : Obligations.PullsReadAboveTheStack := fun s => ⟨pla_completes s, plp_completes s⟩

/-! ### A pull after a push (R144) -/

theorem CompletesPush.sp_add_one {op : Op} {v : Byte} {s t : State} (h : CompletesPush op v s t) :
    t.sp + 1 = s.sp := by
  rw [h.sp, BitVec.sub_add_cancel]

/-- The byte a pull reads after a completed push is the one pushed. -/
theorem CompletesPush.cell_above {op : Op} {v : Byte} {s t : State} (h : CompletesPush op v s t) :
    cell t (stackAddr (t.sp + 1)) = v := by
  rw [h.sp_add_one, h.stored]

/-- After a push and an instruction that stores nothing, only the pushed byte of memory differs. -/
theorem CompletesPush.keeps_mem {op op' : Op} {v : Byte} {mode : Mode} {pen : Nat} {regs : List Reg}
    {flags : List Flag} {s t u : State} (hpush : CompletesPush op v s t)
    (hpull : Completes op' mode pen regs flags t u) {b : Addr} (hb : b ≠ stackAddr s.sp) : cell u b = cell s b :=
  (hpull.frame.mem b List.not_mem_nil).trans (hpush.frame.mem b (mt List.mem_singleton.1 hb))

/-- Settles O18: the pull reads the byte just pushed (`CompletesPush.cell_above`); for the flags, unpacking undoes
packing (`unpackP_packP`). -/
theorem pushPullRoundTrips : Obligations.PushPullRoundTrips := by
  intro s
  obtain ⟨⟨t, pha, pushedA⟩, t', php, pushedP, -⟩ := pushesStoreBelowTheStack s
  obtain ⟨u, pla, ha, hsp, hnz, pulledA⟩ := pla_completes t
  obtain ⟨u', plp, hflags, hsp', pulledP⟩ := plp_completes t'
  constructor
  · have restored : u.a = s.a := ha.trans pushedA.cell_above
    exact ⟨t, u, pha, pla, restored, hsp.trans pushedA.sp_add_one, restored ▸ hnz, fun _ => pushedA.keeps_mem pulledA⟩
  · have flags : u'.flags = s.flags := by rw [hflags, pushedP.cell_above, unpackP_packP]
    have a : u'.a = s.a := (pulledP.frame.reg .a (by decide)).trans (pushedP.frame.reg .a (by decide))
    exact ⟨t', u', php, plp, flags, hsp'.trans pushedP.sp_add_one, a, fun _ => pushedP.keeps_mem pulledP⟩

end Sys2Proof.Machine

/-! SUPPORT. The statements of 43_logic_arith.md: logic, BIT, additions as signed numbers, the decimal flag. -/

namespace Sys2Proof.Machine

/-! ### Logic and BIT (R150 to R153) -/

/-- A byte goes to A, and N and Z follow A: what AND, ORA and EOR do (R150 to R152). -/
theorem setAccNZ_completes (op : Op) (mode : Mode) (pen : Nat) (r : Byte) (s : State) :
    ∃ t, finish op mode pen (setAccNZ r s) = .next t ∧ t.a = r ∧ NZFollow t.a t ∧
      Completes op mode pen [.a] [.n, .z] s t := by
  obtain ⟨t, runs, (ha : t.a = r), hnz, done⟩ := setRegNZ_completes op mode pen .a r s
  exact ⟨t, runs, ha, ha ▸ hnz, done⟩

/-- Settles O19: each of the three is `setAccNZ_completes` with its bitwise result. -/
theorem logicWritesAccumulator : Obligations.LogicWritesAccumulator := fun o s =>
  ⟨setAccNZ_completes .and o.mode (operandPenalty o s) (s.a &&& operandValue o s) s,
    setAccNZ_completes .ora o.mode (operandPenalty o s) (s.a ||| operandValue o s) s,
    setAccNZ_completes .eor o.mode (operandPenalty o s) (s.a ^^^ operandValue o s) s⟩

theorem frame_bitFlags (acc m : Byte) (s : State) :
    Frame [] [.n, .v, .z] [] s { s with flags := bitFlags acc m s.flags } := by
  refine frame_setFlags (bitFlags acc m s.flags) fun f hf => ?_
  cases f
  case d | i | c => rfl
  all_goals simp at hf

/-- Settles O20: BIT writes its three flags (`frame_bitFlags`), N and V from the bits of the byte read. -/
theorem bitTestsWithoutWriting : Obligations.BitTestsWithoutWriting := by
  intro m s
  exact ⟨_, rfl, rfl, getLsbD_seven _, (getLsbD_low _).1, completes_charged rfl rfl (frame_bitFlags _ _ s)⟩

/-! ### Additions as signed numbers, subtraction with borrow (R114, R154, R155) -/

/-- The sign rule of R114 is signed overflow: the sum of the signed bytes and the carry leaves -128..127. -/
theorem addCore_overflow_iff (m : Byte) (s : State) : (addCore m s).flags.v = true ↔
    s.a.toInt + m.toInt + s.flags.c.toNat < -128 ∨ 127 < s.a.toInt + m.toInt + s.flags.c.toNat := by
  obtain ⟨ha, -, hv, -⟩ := addCore_sum m s
  have hacc := s.a.isLt
  have hm := m.isLt
  have hc := s.flags.c.toNat_le
  rw [hv, ha, decide_eq_true_iff, toInt_eq, toInt_eq]
  omega

/-- Complementing a byte negates it and takes 1 off, so adding the complement subtracts with a borrow (R155). -/
theorem toInt_complement (m : Byte) : (m ^^^ 0xFF#8).toInt = -m.toInt - 1 := by
  have hm := m.isLt
  rw [toInt_eq, toInt_eq, (shift_values m).2.2]
  omega

/-- The subtraction of R155, as the sum of R114 with the complement. -/
theorem addCore_complement (m : Byte) (s : State) :
    ((addCore (m ^^^ 0xFF#8) s).a.toNat : Int) = ((s.a.toNat : Int) - m.toNat - (1 - s.flags.c.toNat)) % 256 ∧
    ((addCore (m ^^^ 0xFF#8) s).flags.c = true ↔ m.toNat + (1 - s.flags.c.toNat) ≤ s.a.toNat) := by
  obtain ⟨ha, hcarry, -⟩ := addCore_sum (m ^^^ 0xFF#8) s
  have hm := m.isLt
  have hc := s.flags.c.toNat_le
  rw [ha, hcarry, decide_eq_true_iff, (shift_values m).2.2]
  omega

/-- Settles O22: the V rule is signed overflow (`addCore_overflow_iff`), and adding the complement subtracts with
borrow (`addCore_complement`, `toInt_complement`). -/
theorem signedOverflowAndBorrow : Obligations.SignedOverflowAndBorrow := by
  intro o s
  obtain ⟨difference, borrow⟩ := addCore_complement (operandValue o s) s
  refine ⟨⟨_, rfl, addCore_overflow_iff (operandValue o s) s⟩, _, rfl, difference, borrow, ?_⟩
  have overflow := addCore_overflow_iff (operandValue o s ^^^ 0xFF#8) s
  rw [toInt_complement] at overflow
  refine overflow.trans ?_
  omega

/-! ### The decimal flag (R158) -/

theorem markDirtyIn_setD (bank : Bank) (a : Addr) (b : Bool) (s : State) :
    markDirtyIn bank a (setD b s) = setD b (markDirtyIn bank a s) := by
  unfold markDirtyIn
  split <;> rfl

theorem markDirty_setD (a : Addr) (b : Bool) (s : State) : markDirty a (setD b s) = setD b (markDirty a s) := by
  unfold markDirty
  rw [markDirtyIn_setD, markDirtyIn_setD]

theorem memWrite_setD (a : Addr) (v : Byte) (b : Bool) (s : State) :
    memWrite a v (setD b s) = setD b (memWrite a v s) := by
  unfold memWrite
  split_ifs
  · rfl
  · rfl
  · rfl
  · exact markDirty_setD a b { s with mem := Memory.set s.mem a.toNat v }

theorem push_setD (v : Byte) (b : Bool) (s : State) : push v (setD b s) = setD b (push v s) := by
  rw [push_eq, push_eq]
  rfl

theorem pushWord_setD (w : Addr) (b : Bool) (s : State) : pushWord w (setD b s) = setD b (pushWord w s) := by
  unfold pushWord
  rw [push_setD, push_setD]

@[simp] theorem memRead_setD (b : Bool) (s : State) (a : Addr) : memRead (setD b s) a = memRead s a := rfl

@[simp] theorem effAddr_setD (m : MemOperand) (b : Bool) (s : State) : effAddr m (setD b s) = effAddr m s := by
  cases m <;> rfl

@[simp] theorem penalty_setD (m : MemOperand) (b : Bool) (s : State) : penalty m (setD b s) = penalty m s := by
  cases m <;> rfl

/-- Completing an instruction adds to the clock alone, so states that differ in D complete to states that do. -/
theorem finish_setD {op : Op} {mode : Mode} {pen : Nat} {b : Bool} {u u' t : State} (differ : u' = setD b u)
    (h : finish op mode pen u = .next t) : finish op mode pen u' = .next (setD b t) := by
  obtain ⟨⟩ := h
  subst differ
  rfl

theorem store_setD {op : Op} {m : MemOperand} {v : Byte} {b : Bool} {s t : State} (h : store op m v s = .next t) :
    store op m v (setD b s) = .next (setD b t) := by
  unfold store at h ⊢
  rw [effAddr_setD, penalty_setD]
  exact finish_setD (memWrite_setD _ v b s) h

theorem branch_setD {op : Op} {cond : Bool} {off : Byte} {b : Bool} {s t : State}
    (h : branch op cond off s = .next t) : branch op cond off (setD b s) = .next (setD b t) := by
  cases cond
  · exact finish_setD rfl h
  · exact finish_setD rfl h

/-- A shift, rotate, increment or decrement on which D has no influence: it commutes with every write of D. -/
def IgnoresD (f : Byte → State → Byte × State) : Prop :=
  ∀ (v : Byte) (b : Bool) (s : State), f v (setD b s) = ((f v s).1, setD b (f v s).2)

theorem ignoresD_byteFunctions : IgnoresD shiftL ∧ IgnoresD shiftR ∧ IgnoresD rotL ∧ IgnoresD rotR ∧
    IgnoresD incByte ∧ IgnoresD decByte :=
  ⟨fun _ _ _ => rfl, fun _ _ _ => rfl, fun _ _ _ => rfl, fun _ _ _ => rfl, fun _ _ _ => rfl, fun _ _ _ => rfl⟩

theorem readModifyWrite_setD {f : Byte → State → Byte × State} (hf : IgnoresD f) (m : MemOperand) (b : Bool)
    (s : State) : readModifyWrite m f (setD b s) = ((readModifyWrite m f s).1, setD b (readModifyWrite m f s).2) := by
  simp only [readModifyWrite, effAddr_setD, memRead_setD, hf _ b s, memWrite_setD]

theorem modify_setD {f : Byte → State → Byte × State} (hf : IgnoresD f) {op : Op} {m : MemOperand} {b : Bool}
    {s t : State} (h : Machine.modify op m f s = .next t) : Machine.modify op m f (setD b s) = .next (setD b t) := by
  unfold Machine.modify at h ⊢
  rw [readModifyWrite_setD hf, penalty_setD]
  exact finish_setD rfl h

theorem modifyThen_setD {f : Byte → State → Byte × State} (hf : IgnoresD f) {g : Byte → State → State} {op : Op}
    {m : MemOperand} {b : Bool} {s t : State} (h : modifyThen op m f g s = .next t)
    (hg : ∀ v u, g v (setD b u) = setD b (g v u)) : modifyThen op m f g (setD b s) = .next (setD b t) := by
  unfold modifyThen at h ⊢
  rw [readModifyWrite_setD hf, penalty_setD]
  exact finish_setD (hg _ _) h

/-- Every instruction but PHP, BRK, CLD, SED, PLP and RTI commutes with a write of D. The memory writes and the branches
need their lemmas; what is left is field updates, none of which reads or writes D. -/
theorem exec_setD {i : Instr} (hi : i ∉ [Instr.php, .brk, .cld, .sed, .plp, .rti]) {s t : State} (b : Bool)
    (h : exec i s = .next t) : exec i (setD b s) = .next (setD b t) := by
  obtain ⟨hshiftL, hshiftR, hrotL, hrotR, hinc, hdec⟩ := ignoresD_byteFunctions
  cases i
  case php | brk | cld | sed | plp | rti => simp at hi
  case bpl | bmi | bvc | bvs | bcc | bcs | bne | beq => exact branch_setD h
  case sta | stx | sty => exact store_setD h
  case inc | dec | asl | lsr | rol | ror => exact modify_setD (by assumption) h
  case slo | rla | sre | rra | dcp | isc =>
    simp only [exec, execSlo, execRla, execSre, execRra, execDcp, execIsc] at h ⊢
    exact modifyThen_setD (by assumption) h fun _ _ => rfl
  case pha => exact finish_setD (push_setD s.a b s) h
  case jsr w => exact finish_setD (congrArg (fun u => { u with pc := w }) (pushWord_setD (s.pc - 1) b s)) h
  all_goals
    obtain ⟨⟩ := h
    rfl

/-- Settles O24: the instruction commutes with every write of D (`exec_setD`); with the write of the value D has, this
says that it keeps D. -/
theorem decimalFlagIsInert : Obligations.DecimalFlagIsInert := by
  intro i s t b hi h
  have same : exec i s = .next (setD s.flags.d t) := exec_setD hi s.flags.d h
  have kept : t = setD s.flags.d t := Host.Outcome.next.inj (h.symm.trans same)
  exact ⟨congrArg (·.flags.d) kept, exec_setD hi b h⟩

end Sys2Proof.Machine

/-! SUPPORT. The statements of 44_incdec_shift.md on increments and decrements. -/

namespace Sys2Proof.Machine

/-! ### Increments and decrements in memory (R170, R171) -/

theorem incByte_eq (v : Byte) (s : State) :
    incByte v s = (BitVec.ofNat 8 (v.toNat + 1), setNZ (BitVec.ofNat 8 (v.toNat + 1)) s) := by
  have sum : v + 1 = BitVec.ofNat 8 (v.toNat + 1) := BitVec.add_def v 1
  rw [← sum]
  rfl

theorem decByte_eq (v : Byte) (s : State) :
    decByte v s = (BitVec.ofNat 8 (v.toNat + 255), setNZ (BitVec.ofNat 8 (v.toNat + 255)) s) := by
  have sum : v - 1 = BitVec.ofNat 8 (v.toNat + 255) := (BitVec.sub_eq_add_neg v 1).trans (BitVec.add_def v (-1))
  rw [← sum]
  rfl

/-- A modification that sets no flag but N and Z completes: its result written at the address read, N and Z from it. -/
theorem modifyNZ_completes {op : Op} {m : MemOperand} (hm : m.mode ∈ rmwModes) {f : Byte → State → Byte × State}
    {s : State} {r : Byte} (hf : f (memRead s (effAddr m s)) s = (r, setNZ r s)) :
    ∃ t, Machine.modify op m f s = .next t ∧ NZFollow r t ∧
      CompletesStore op m.mode [] [.n, .z] (effAddr m s) r s t := by
  have runs : Machine.modify op m f s = finish op m.mode 0 (memWrite (effAddr m s) r (setNZ r s)) := by
    rw [Machine.modify, readModifyWrite, hf, penalty_rmw hm]
  have follows : NZFollow r (memWrite (effAddr m s) r (setNZ r s)) :=
    (setNZ_follows r s).of_flags (memWrite_flags (effAddr m s) r (setNZ r s))
  exact ⟨_, runs, follows, completesStore_charged rfl rfl (frame_setNZ r s)⟩

/-- Settles O25: INC and DEC are their byte functions on the byte read (`modifyNZ_completes`). -/
theorem incDecModifyMemory : Obligations.IncDecModifyMemory := by
  rintro m s v hm rfl
  exact ⟨modifyNZ_completes hm (incByte_eq _ s), modifyNZ_completes hm (decByte_eq _ s)⟩

/-! ### Increments and decrements of X and Y (R172 to R175) -/

/-- An index register that takes a value, with N and Z from it: `setRegNZ_completes`, the value given as a number and
N and Z following the register. -/
theorem setIndexNZ_completes (op : Op) (r : Reg) {v : Byte} {n : Nat} (hv : v.toNat = n % 256) (s : State) :
    ∃ t, finish op .imp 0 (setNZ v (setReg r v s)) = .next t ∧ (regOf r t).toNat = n % 256 ∧ NZFollow (regOf r t) t ∧
      Completes op .imp 0 [r] [.n, .z] s t := by
  obtain ⟨t, runs, rfl, follows, completes⟩ := setRegNZ_completes op .imp 0 r v s
  exact ⟨t, runs, hv, follows, completes⟩

theorem toNat_sub_one (v : Byte) : (v - 1).toNat = (v.toNat + 255) % 256 := by
  rw [BitVec.sub_eq_add_neg]
  exact BitVec.toNat_add v (-1)

/-- Settles O26: each of the four is `setIndexNZ_completes` at its register, plus or minus 1. -/
theorem incDecRegisters : Obligations.IncDecRegisters := fun s =>
  ⟨setIndexNZ_completes .inx .x (BitVec.toNat_add s.x 1) s, setIndexNZ_completes .iny .y (BitVec.toNat_add s.y 1) s,
    setIndexNZ_completes .dex .x (toNat_sub_one s.x) s, setIndexNZ_completes .dey .y (toNat_sub_one s.y) s⟩

end Sys2Proof.Machine

/-! SUPPORT. The statements of 45_control_flow.md: jumps, the call and its return, branches. -/

namespace Sys2Proof.Machine

/-! ### Frames of a control transfer -/

/-- A frame may name more registers, flags and addresses than it must. -/
theorem Frame.mono {r₁ r₂ : List Reg} {f₁ f₂ : List Flag} {a₁ a₂ : List Addr} {s t : State}
    (h : Frame r₁ f₁ a₁ s t) (hr : r₁ ⊆ r₂) (hf : f₁ ⊆ f₂) (ha : a₁ ⊆ a₂) : Frame r₂ f₂ a₂ s t where
  reg r hn := h.reg r (mt (@hr r) hn)
  flag f hn := h.flag f (mt (@hf f) hn)
  mem a hn := h.mem a (mt (@ha a) hn)
  host := h.host
  fault := h.fault
  faultByte := h.faultByte
  bank hn := h.bank (List.subset_nil.1 (hn ▸ ha))
  dirty hn := h.dirty (List.subset_nil.1 (hn ▸ ha))

/-- PC is in no frame. -/
theorem Frame.setPc {regs : List Reg} {flags : List Flag} {stored : List Addr} {s t : State}
    (h : Frame regs flags stored s t) (w : Addr) : Frame regs flags stored s { t with pc := w } :=
  ⟨fun r hr => (by cases r <;> rfl : regOf r { t with pc := w } = regOf r t).trans (h.reg r hr), h.flag, h.mem,
    ⟨h.host.fb, h.host.frameReady, h.host.running, h.host.nmiPending, h.host.irqLine⟩, h.fault, h.faultByte, h.bank,
    h.dirty⟩

theorem frame_pushWord (w : Addr) (s : State) :
    Frame [.sp] [] [stackAddr s.sp, stackAddr (s.sp - 1)] s (pushWord w s) :=
  ((frame_push (hi w) s).trans (frame_push (lo w) _)).mono (by simp) (List.Subset.refl _) (List.Subset.refl _)

/-! ### Jumps, the call, the return (R200 to R203) -/

/-- Neither mode of JMP is penalized, so it costs its base. -/
theorem jmp_completes {m : MemOperand} (hm : m.mode ∈ [Mode.abs, .ind]) (s : State) :
    ∃ t, exec (.jmp m) s = .next t ∧ t.pc = effAddr m s ∧ t.cycles = s.cycles + baseCycles .jmp m.mode ∧
      Frame [] [] [] s t := by
  have unpenalized : penalty m s = 0 :=
    penalty_zero ((by decide : ∀ mode ∈ [Mode.abs, .ind], mode ∉ [Mode.abxp, .abyp, .izyp]) m.mode hm)
  have runs : exec (.jmp m) s = .next (charged .jmp m.mode 0 { s with pc := effAddr m s }) := by
    rw [← finish_eq, ← unpenalized]
    rfl
  exact ⟨_, runs, rfl, rfl, ((Frame.refl s).setPc _).charged ..⟩

/-- JSR is the push of PC minus 1 and a jump: the high byte at the old stack address, the low byte below it (D33). -/
theorem jsr_completes (w : Addr) (s : State) :
    ∃ t, exec (.jsr w) s = .next t ∧ t.pc = w ∧ t.sp = s.sp - 2 ∧
      cell t (stackAddr s.sp) = hi (s.pc - 1) ∧ cell t (stackAddr (s.sp - 1)) = lo (s.pc - 1) ∧
      t.cycles = s.cycles + baseCycles .jsr .abs ∧ t.bankSel = s.bankSel ∧ t.dirty = s.dirty ∧
      Frame [.sp] [] [stackAddr s.sp, stackAddr (s.sp - 1)] s t := by
  have hsp : (pushWord (s.pc - 1) s).sp = s.sp - 2 := by
    rw [pushWord_eq]
    bv_omega
  have high : cell (pushWord (s.pc - 1) s) (stackAddr s.sp) = hi (s.pc - 1) := by
    rw [cell_pushWord, if_neg (stackAddr_below s.sp).symm, if_pos rfl]
  have low : cell (pushWord (s.pc - 1) s) (stackAddr (s.sp - 1)) = lo (s.pc - 1) := by
    rw [cell_pushWord, if_pos rfl]
  have bank : (pushWord (s.pc - 1) s).bankSel = s.bankSel := by rw [pushWord_eq]
  have dirty : (pushWord (s.pc - 1) s).dirty = s.dirty := by rw [pushWord_eq]
  exact ⟨_, rfl, rfl, hsp, high, low, congrArg (· + baseCycles .jsr .abs) (pushWord_cycles (s.pc - 1) s), bank, dirty,
    ((frame_pushWord (s.pc - 1) s).setPc w).charged .jsr .abs 0⟩

/-- RTS goes to the word of the two bytes above SP, plus 1. -/
theorem rts_completes (s : State) :
    ∃ t, exec .rts s = .next t ∧ t.sp = s.sp + 2 ∧
      t.pc = word (cell s (stackAddr (s.sp + 2))) (cell s (stackAddr (s.sp + 1))) + 1 ∧
      t.cycles = s.cycles + baseCycles .rts .imp ∧ Frame [.sp] [] [] s t := by
  have two : s.sp + 1 + 1 = s.sp + 2 := BitVec.add_assoc s.sp 1 1
  have target : pulledWord s = word (cell s (stackAddr (s.sp + 2))) (cell s (stackAddr (s.sp + 1))) := by
    rw [pulledWord, pulled_eq, pulled_eq, pull_sp, two]
    rfl
  have frame : Frame [.sp] [] [] s (pull (pull s)) := frame_setReg .sp (s.sp + 1 + 1) s
  exact ⟨_, rfl, two, congrArg (· + 1) target, rfl, (frame.setPc _).charged .rts .imp 0⟩

/-- Settles O29: `jmp_completes`, `jsr_completes`, and `rts_completes` with its target as a number. -/
theorem jumpsCallsReturns : Obligations.JumpsCallsReturns := by
  intro s
  obtain ⟨t, runs, hsp, hpc, hcycles, frame⟩ := rts_completes s
  refine ⟨fun m hm => jmp_completes hm s, fun w => jsr_completes w s, t, runs, hsp, ?_, hcycles, frame⟩
  rw [hpc, BitVec.toNat_add, word_toNat_low_first]
  rfl

/-- Settles O30: the two bytes RTS pulls are those JSR pushed, and they make up PC minus 1 (`word_hi_lo`). -/
theorem returnLandsAfterCall : Obligations.ReturnLandsAfterCall := by
  intro w s t u call husp hhigh hlow
  obtain ⟨t', called, -, hsp, pushedHigh, pushedLow, -⟩ := jsr_completes w s
  obtain rfl : t' = t := Host.Outcome.next.inj (called.symm.trans call)
  obtain ⟨r, runs, hrsp, hpc, -⟩ := rts_completes u
  have above : u.sp + 1 = s.sp - 1 := by
    rw [husp, hsp]
    bv_omega
  have restored : u.sp + 2 = s.sp := by rw [husp, hsp, BitVec.sub_add_cancel]
  refine ⟨r, runs, ?_, hrsp.trans restored⟩
  rw [hpc, above, restored, hhigh, hlow, pushedHigh, pushedLow, word_hi_lo, BitVec.sub_add_cancel]

/-! ### Branches (R117, R204 to R211) -/

/-- A branch completes on its condition: the target is PC plus the sign-extended offset (`sext_values`). -/
theorem branch_completes (op : Op) (cond : Bool) (off : Byte) (s : State) :
    ∃ t, branch op cond off s = .next t ∧ CompletesBranch op cond off s t := by
  obtain ⟨forward, backward⟩ := sext_values off
  cases cond with
  | false =>
    exact ⟨charged op .rel 0 s, rfl, {
      notTaken := fun _ => ⟨rfl, rfl⟩
      forward := nofun
      backward := nofun
      takenCost := nofun
      frame := (Frame.refl s).charged op .rel 0 }⟩
  | true =>
    exact ⟨charged op .rel (1 + pageCross s.pc (s.pc + sext off)) { s with pc := s.pc + sext off }, rfl, {
      notTaken := nofun
      forward := fun _ h => congrArg (s.pc + ·) (forward h)
      backward := fun _ h => (congrArg (s.pc + ·) (backward h)).trans (BitVec.sub_eq_add_neg _ _).symm
      takenCost := fun _ => by
        rw [Nat.add_assoc, Nat.add_assoc]
        rfl
      frame := ((Frame.refl s).setPc _).charged op .rel _ }⟩

/-- Settles O31: each of the eight is `branch` on its flag (D42), so `branch_completes`. -/
theorem branchesMovePC : Obligations.BranchesMovePC := by
  intro off s i cond hi
  have runs : exec i s = branch i.op cond off s := by
    simp only [List.mem_cons, List.not_mem_nil, or_false, Prod.mk.injEq] at hi
    rcases hi with ⟨rfl, rfl⟩ | ⟨rfl, rfl⟩ | ⟨rfl, rfl⟩ | ⟨rfl, rfl⟩ | ⟨rfl, rfl⟩ | ⟨rfl, rfl⟩ | ⟨rfl, rfl⟩ | ⟨rfl, rfl⟩ <;>
      rfl
  rw [runs]
  exact branch_completes i.op cond off s

end Sys2Proof.Machine

/-! SUPPORT. The statements of 46_flags_system.md: the flag instructions, BRK and RTI with what an entry saves, HLT,
UNIMPL. -/

namespace Sys2Proof.Machine

/-! ### Every instruction completes (R232, R329) -/

/-- Settles O8: `exec_completes`. -/
theorem everyInstructionCompletes : Obligations.EveryInstructionCompletes := exec_completes

/-! ### A flag written (R220 to R227) -/

/-- The state with one flag written. -/
def setFlag (f : Flag) (v : Bool) (s : State) : State :=
  match f with
  | .n => { s with flags := { s.flags with n := v } }
  | .v => setV v s
  | .d => setD v s
  | .i => setI v s
  | .z => { s with flags := { s.flags with z := v } }
  | .c => setC v s

theorem flagOf_setFlag (f g : Flag) (v : Bool) (s : State) :
    flagOf g (setFlag f v s) = if g = f then v else flagOf g s := by
  cases f <;> cases g <;> rfl

theorem setFlag_eq (f : Flag) (v : Bool) (s : State) : setFlag f v s = { s with flags := (setFlag f v s).flags } := by
  cases f <;> rfl

theorem frame_setFlag (f : Flag) (v : Bool) (s : State) : Frame [] [f] [] s (setFlag f v s) := by
  have kept (g : Flag) (hg : g ∉ [f]) : flagOf g (setFlag f v s) = flagOf g s := by
    rw [flagOf_setFlag, if_neg (mt List.mem_singleton.2 hg)]
  rw [setFlag_eq] at kept ⊢
  exact frame_setFlags _ kept

theorem setFlag_completes (op : Op) (f : Flag) (v : Bool) (s : State) :
    ∃ t, finish op .imp 0 (setFlag f v s) = .next t ∧ flagOf f t = v ∧ Completes op .imp 0 [] [f] s t := by
  have written : flagOf f (setFlag f v s) = v := (flagOf_setFlag f f v s).trans (if_pos rfl)
  have frame := frame_setFlag f v s
  rw [setFlag_eq] at written frame ⊢
  exact ⟨_, rfl, written, completes_charged rfl rfl frame⟩

/-- Settles O32: each of the seven is `setFlag_completes` at its flag; NOP does nothing before it completes. -/
theorem flagInstructionsAndNop : Obligations.FlagInstructionsAndNop := by
  refine fun s => ⟨fun i f v hi => ?_, _, rfl, completes_charged rfl rfl (Frame.refl s)⟩
  have runs : exec i s = finish i.op .imp 0 (setFlag f v s) := by
    simp only [List.mem_cons, List.not_mem_nil, or_false, Prod.mk.injEq] at hi
    rcases hi with ⟨rfl, rfl, rfl⟩ | ⟨rfl, rfl, rfl⟩ | ⟨rfl, rfl, rfl⟩ | ⟨rfl, rfl, rfl⟩ | ⟨rfl, rfl, rfl⟩ |
      ⟨rfl, rfl, rfl⟩ | ⟨rfl, rfl, rfl⟩ <;> rfl
  rw [runs]
  exact setFlag_completes i.op f v s

/-! ### The entry (R322) and BRK (R228) -/

/-- Every byte of memory after an entry. -/
theorem cell_enterInterrupt (vec : Addr) (b : Bool) (skew : Addr) (s : State) (a : Addr) :
    cell (enterInterrupt vec b skew s) a =
      if a = stackAddr (s.sp - 2) then packP b s.flags
      else if a = stackAddr (s.sp - 1) then lo (s.pc + skew)
      else if a = stackAddr s.sp then hi (s.pc + skew) else cell s a := by
  have two : s.sp - 1 - 1 = s.sp - 2 := by bv_omega
  obtain ⟨mem, reads, entered⟩ := enterInterrupt_writes vec b skew s
  rw [entered, ← two]
  exact reads a

/-- An entry is three pushes, a write of I and a jump. -/
theorem frame_enterInterrupt (vec : Addr) (b : Bool) (skew : Addr) (s : State) :
    Frame [.sp] [.i] (entryCells s.sp) s (enterInterrupt vec b skew s) := by
  have hsp : (pushWord (s.pc + skew) s).sp = s.sp - 2 := by
    rw [pushWord_eq]
    bv_omega
  have status := frame_push (packP b s.flags) (pushWord (s.pc + skew) s)
  rw [hsp] at status
  have masked := frame_setFlag .i true (push (packP b s.flags) (pushWord (s.pc + skew) s))
  have pushed := ((frame_pushWord (s.pc + skew) s).trans status).trans masked
  exact (pushed.mono (by simp) (List.Subset.refl _) (by simp [entryCells])).setPc _

/-- What an entry leaves: the three saved bytes lie at distinct addresses, so each is read as it was pushed. -/
theorem entered_enterInterrupt (vec : Addr) (b : Bool) (skew : Addr) (s : State) :
    Entered vec b (s.pc + skew) s (enterInterrupt vec b skew s) := by
  have high_low : stackAddr s.sp ≠ stackAddr (s.sp - 1) := (stackAddr_below s.sp).symm
  have high_status : stackAddr s.sp ≠ stackAddr (s.sp - 2) := stackAddr_inj.not.2 (by bv_omega)
  have low_status : stackAddr (s.sp - 1) ≠ stackAddr (s.sp - 2) := stackAddr_inj.not.2 (by bv_omega)
  obtain ⟨mem, -, entered⟩ := enterInterrupt_writes vec b skew s
  exact {
    savedHigh := by rw [cell_enterInterrupt, if_neg high_status, if_neg high_low, if_pos rfl]
    savedLow := by rw [cell_enterInterrupt, if_neg low_status, if_pos rfl]
    savedStatus := by rw [cell_enterInterrupt, if_pos rfl]
    sp := by
      rw [entered]
      bv_omega
    setsI := rfl
    pc := by
      rw [entered]
      rfl
    frame := frame_enterInterrupt vec b skew s
    bank := by rw [entered]
    dirty := by rw [entered] }

/-- The clock has no part in what an entry leaves. -/
theorem Entered.charged {vec : Addr} {b : Bool} {ret : Addr} {s t : State} (h : Entered vec b ret s t) (op : Op)
    (mode : Mode) (pen : Nat) : Entered vec b ret s (charged op mode pen t) :=
  ⟨h.savedHigh, h.savedLow, h.savedStatus, h.sp, h.setsI, h.pc, h.frame.charged op mode pen, h.bank, h.dirty⟩

/-- Settles O34: BRK is the entry with its vector, break bit and skew (`entered_enterInterrupt`), at its base cost. -/
theorem brkEntersThroughIrqVector : Obligations.BrkEntersThroughIrqVector := fun s =>
  ⟨_, rfl, (entered_enterInterrupt cfg.vecIrq true cfg.brkPushSkew s).charged .brk .imp 0,
    congrArg (· + baseCycles .brk .imp) (enterInterrupt_cycles cfg.vecIrq true cfg.brkPushSkew s)⟩

/-! ### The return from an interrupt (R229, R328) -/

theorem frame_setAllFlags (new : Flags) (s : State) : Frame [] [.n, .v, .d, .i, .z, .c] [] s { s with flags := new } :=
  frame_setFlags new fun f hf => absurd (by cases f <;> decide) hf

/-- A return from interrupt, each of its three bytes at its distance above SP. -/
theorem returnFromInterrupt_reads (s : State) : returnFromInterrupt s = { s with
      flags := unpackP (cell s (stackAddr (s.sp + 1)))
      sp := s.sp + 3
      pc := word (cell s (stackAddr (s.sp + 3))) (cell s (stackAddr (s.sp + 2))) } := by
  have two : s.sp + 1 + 1 = s.sp + 2 := BitVec.add_assoc s.sp 1 1
  have three : s.sp + 2 + 1 = s.sp + 3 := BitVec.add_assoc s.sp 2 1
  rw [returnFromInterrupt_eq, two, three]

/-- Settles O36: RTI is the return (`returnFromInterrupt_reads`), which writes SP, the flags and PC. -/
theorem rtiPullsStatusAndPC : Obligations.RtiPullsStatusAndPC := by
  intro s
  have runs : exec .rti s = .next (charged .rti .imp 0 (returnFromInterrupt s)) := rfl
  rw [returnFromInterrupt_reads] at runs
  have frame := (frame_setReg .sp (s.sp + 3) s).trans (frame_setAllFlags (unpackP (cell s (stackAddr (s.sp + 1)))) _)
  exact ⟨_, runs, rfl, rfl, rfl, rfl, (frame.setPc _).charged .rti .imp 0⟩

/-- Settles O37: the three bytes above the entry's SP are those it saved, and unpacking the status byte and joining the
two halves of PC give back what was packed and split (`unpackP_packP`, `word_hi_lo`). -/
theorem returnRestoresInterruptedState : Obligations.ReturnRestoresInterruptedState := by
  intro vec b ret s t u entered husp kept
  obtain ⟨r, runs, hflags, hpc, hsp, -⟩ := rtiPullsStatusAndPC u
  have status : u.sp + 1 = s.sp - 2 := by
    rw [husp, entered.sp]
    bv_omega
  have low : u.sp + 2 = s.sp - 1 := by
    rw [husp, entered.sp]
    bv_omega
  have high : u.sp + 3 = s.sp := by rw [husp, entered.sp, BitVec.sub_add_cancel]
  have savedHigh := (kept (stackAddr s.sp) (by simp [entryCells])).trans entered.savedHigh
  have savedLow := (kept (stackAddr (s.sp - 1)) (by simp [entryCells])).trans entered.savedLow
  have savedStatus := (kept (stackAddr (s.sp - 2)) (by simp [entryCells])).trans entered.savedStatus
  refine ⟨r, runs, ?_, ?_, hsp.trans high⟩
  · rw [hflags, status, savedStatus, unpackP_packP]
  · rw [hpc, high, low, savedHigh, savedLow, word_hi_lo]

/-! ### The halt and the unimplemented bytes (R230, R231) -/

/-- An undisturbed step at a well-formed instruction of one byte runs it, with PC one further. -/
theorem step_of_byte {s : State} (hs : Undisturbed s) {i : Instr} (hw : i.wellFormed = true)
    (hencode : encode i = some [memRead s s.pc]) : step s = exec i { s with pc := s.pc + 1 } := by
  refine stepRunsEncodedInstruction s i [memRead s s.pc] hs hw hencode fun k => ?_
  obtain rfl : k = 0 := Subsingleton.elim (α := Fin 1) k 0
  exact congrArg (memRead s) (BitVec.add_zero s.pc)

theorem exec_hlt (code : Byte) (s : State) :
    exec (.hlt code) s = .next (charged .hlt .imp 0 { s with pc := s.pc - 1 }) :=
  finishCode_eq .hlt .imp code _

/-- A halted machine's step moves PC past the halt byte and HLT moves it back. -/
theorem step_of_halted {s : State} (h : Halted s) : step s = .next { s with cycles := s.cycles + cfg.hltCycles } := by
  obtain ⟨undisturbed, atHalt⟩ := h
  have cost : baseCycles .hlt .imp = cfg.hltCycles := by decide +kernel
  rw [step_of_byte undisturbed (i := .hlt (memRead s s.pc)) (decide_eq_true atHalt) rfl, exec_hlt, charged, cost,
    BitVec.add_sub_cancel]
  rfl

/-- Settles O38: `exec_hlt` and `step_of_halted`; the clock has no part in being halted. -/
theorem haltSpins : Obligations.HaltSpins :=
  ⟨fun code s => ⟨_, exec_hlt code s, rfl, rfl, ((Frame.refl s).setPc _).charged .hlt .imp 0⟩,
    fun _ h => ⟨step_of_halted h, h⟩⟩

theorem step_of_fault {s : State} (hfault : s.fault = true) : step s = .fault (.unimplemented s.faultByte) := by
  simp [step, nextEvent, hfault]

/-- Settles O39: the step runs UNIMPL with the byte at PC (`step_of_byte`), and the latch stops the next one
(`step_of_fault`). -/
theorem unimplementedByteLatchesFault : Obligations.UnimplementedByteLatchesFault := by
  refine ⟨fun _ _ => rfl, fun s hs unmapped => ⟨_, ?_, rfl, step_of_fault rfl⟩⟩
  exact step_of_byte hs (i := .unimpl (memRead s s.pc)) (decide_eq_true unmapped) rfl

end Sys2Proof.Machine

/-! SUPPORT. The statements of 47_undocumented.md: the memory operations with an accumulator half, the immediate
operations. -/

namespace Sys2Proof.Machine

/-! ### Updates of registers and flags -/

/-- `t` is `s` with no more than the registers `regs` and the flags `flags` written: PC, the clock, memory and the rest
stay. -/
structure Updates (regs : List Reg) (flags : List Flag) (s t : State) : Prop where
  pc : t.pc = s.pc
  cycles : t.cycles = s.cycles
  frame : Frame regs flags [] s t

theorem Updates.trans {r₁ r₂ : List Reg} {f₁ f₂ : List Flag} {s t u : State} (hst : Updates r₁ f₁ s t)
    (htu : Updates r₂ f₂ t u) : Updates (r₁ ++ r₂) (f₁ ++ f₂) s u :=
  ⟨htu.pc.trans hst.pc, htu.cycles.trans hst.cycles, hst.frame.trans htu.frame⟩

theorem Updates.mono {r₁ r₂ : List Reg} {f₁ f₂ : List Flag} {s t : State} (h : Updates r₁ f₁ s t) (hr : r₁ ⊆ r₂)
    (hf : f₁ ⊆ f₂) : Updates r₂ f₂ s t :=
  ⟨h.pc, h.cycles, h.frame.mono hr hf (List.Subset.refl [])⟩

theorem Updates.completes {regs : List Reg} {flags : List Flag} {s t : State} (h : Updates regs flags s t) (op : Op)
    (mode : Mode) (pen : Nat) : Completes op mode pen regs flags s (charged op mode pen t) :=
  completes_charged h.pc h.cycles h.frame

theorem updates_setReg (r : Reg) (v : Byte) (s : State) : Updates [r] [] s (setReg r v s) :=
  ⟨setReg_pc r v s, setReg_cycles r v s, frame_setReg r v s⟩

theorem updates_setNZ (r : Byte) (s : State) : Updates [] [.n, .z] s (setNZ r s) := ⟨rfl, rfl, frame_setNZ r s⟩

theorem updates_setC (c : Bool) (s : State) : Updates [] [.c] s (setC c s) := ⟨rfl, rfl, frame_setFlag .c c s⟩

theorem updates_setV (v : Bool) (s : State) : Updates [] [.v] s (setV v s) := ⟨rfl, rfl, frame_setFlag .v v s⟩

theorem updates_setCNZ (r : Byte) (c : Bool) (s : State) : Updates [] [.n, .z, .c] s (setCNZ r c s) :=
  ⟨rfl, rfl, frame_setCNZ r c s⟩

theorem updates_setAccNZ (r : Byte) (s : State) : Updates [.a] [.n, .z] s (setAccNZ r s) :=
  ⟨rfl, rfl, (frame_setA r s).trans (frame_setNZ r _)⟩

theorem updates_addCore (m : Byte) (s : State) : Updates [.a] [.n, .v, .z, .c] s (addCore m s) :=
  ⟨rfl, rfl, frame_addCore m s⟩

theorem updates_compare (reg m : Byte) (s : State) : Updates [] [.n, .z, .c] s (compare reg m s) :=
  ⟨rfl, rfl, frame_setCNZ _ _ s⟩

/-! ### A read-modify-write with an accumulator half (R240 to R245) -/

/-- A write seen from after an update that stored nothing. -/
theorem Wrote.followed {regs : List Reg} {flags : List Flag} {a : Addr} {v : Byte} {s t u : State}
    (h : Wrote a v s t) (hframe : Frame regs flags [] t u) : Wrote a v s u where
  select0 ha := (hframe.bank rfl).trans (h.select0 ha)
  select1 ha := (hframe.bank rfl).trans (h.select1 ha)
  keepBank ha := (hframe.bank rfl).trans (h.keepBank ha)
  selectStoresNothing ha := by
    obtain ⟨hcell, hdirty⟩ := h.selectStoresNothing ha
    exact ⟨(hframe.mem a List.not_mem_nil).trans hcell, (hframe.dirty rfl).trans hdirty⟩
  stored ha := (hframe.mem a List.not_mem_nil).trans (h.stored ha)
  marks ha i := by rw [hframe.dirty rfl, h.marks ha i]

/-- An update, a write of one byte and another update complete as a store of that byte. -/
theorem completesStore_of_updates {op : Op} {mode : Mode} {regs : List Reg} {f₁ f₂ : List Flag} {a : Addr} {v : Byte}
    {s t u : State} (before : Updates [] f₁ s t) (after : Updates regs f₂ (memWrite a v t) u) :
    CompletesStore op mode regs (f₁ ++ f₂) a v s (charged op mode 0 u) where
  pc := after.pc.trans ((memWrite_pc a v t).trans before.pc)
  cycles := congrArg (· + baseCycles op mode) (after.cycles.trans ((memWrite_cycles a v t).trans before.cycles))
  wrote := (((wrote_memWrite a v t).of_frame before.frame).followed after.frame).charged op mode 0
  frame := by
    have all := (before.frame.trans (frame_memWrite a v t)).trans after.frame
    rw [List.append_nil f₁] at all
    exact all.charged op mode 0

theorem CompletesStore.mono_flags {op : Op} {mode : Mode} {regs : List Reg} {f₁ f₂ : List Flag} {a : Addr} {v : Byte}
    {s t : State} (h : CompletesStore op mode regs f₁ a v s t) (hf : f₁ ⊆ f₂) :
    CompletesStore op mode regs f₂ a v s t :=
  ⟨h.pc, h.cycles, h.wrote, h.frame.mono (List.Subset.refl _) hf (List.Subset.refl _)⟩

theorem penalty_undoc {m : MemOperand} (hm : m.mode ∈ undocModes) (s : State) : penalty m s = 0 :=
  penalty_zero ((by decide : ∀ mode ∈ undocModes, mode ∉ [Mode.abxp, .abyp, .izyp]) m.mode hm)

/-- What a memory half (new byte `r`, flags as in `t`) and an accumulator half do together: the second runs in a state
`u` that has the A of before and the flags of the first, and the whole completes as a store of `r`. -/
theorem modifyThen_completes {op : Op} {m : MemOperand} (hm : m.mode ∈ undocModes) {f : Byte → State → Byte × State}
    {g : Byte → State → State} {s t : State} {r : Byte} {regs : List Reg} {f₁ f₂ : List Flag}
    (hf : f (memRead s (effAddr m s)) s = (r, t)) (memoryHalf : Updates [] f₁ s t)
    (accHalf : ∀ u, Updates regs f₂ u (g r u)) :
    ∃ u, u.a = s.a ∧ u.flags = t.flags ∧ modifyThen op m f g s = .next (charged op m.mode 0 (g r u)) ∧
      CompletesStore op m.mode regs (f₁ ++ f₂) (effAddr m s) r s (charged op m.mode 0 (g r u)) := by
  refine ⟨memWrite (effAddr m s) r t, (memWrite_a _ _ _).trans (memoryHalf.frame.reg .a List.not_mem_nil),
    memWrite_flags _ _ _, ?_, completesStore_of_updates memoryHalf (accHalf _)⟩
  rw [modifyThen, readModifyWrite, hf, penalty_undoc hm]
  rfl

/-- A shift with a bitwise half completes: the shifted byte written, A combined with it, C from the shift, N and Z from
A. -/
theorem shiftThenAcc_completes {op : Op} {m : MemOperand} (hm : m.mode ∈ undocModes)
    {f : Byte → State → Byte × State} {s : State} {r : Byte} {c : Bool}
    (hf : f (memRead s (effAddr m s)) s = (r, setCNZ r c s)) (combine : Byte → Byte → Byte) :
    ∃ t, modifyThen op m f (fun v u => setAccNZ (combine u.a v) u) s = .next t ∧ t.a = combine s.a r ∧
      t.flags.c = c ∧ NZFollow t.a t ∧ CompletesStore op m.mode [.a] [.n, .z, .c] (effAddr m s) r s t := by
  obtain ⟨u, ha, hflags, runs, done⟩ := modifyThen_completes hm (g := fun v u => setAccNZ (combine u.a v) u) hf
    (updates_setCNZ r c s) (fun u => updates_setAccNZ (combine u.a r) u)
  exact ⟨_, runs, congrArg (combine · r) ha, congrArg Flags.c hflags, setNZ_follows _ _, done.mono_flags (by simp)⟩

/-- Settles O40: each of the three is `shiftThenAcc_completes` with its shift and its bitwise operation. -/
theorem shiftThenLogic : Obligations.ShiftThenLogic := by
  rintro m s v hm rfl
  exact ⟨shiftThenAcc_completes hm (shiftL_eq _ s) (· ||| ·), shiftThenAcc_completes hm (rotL_eq _ s) (· &&& ·),
    shiftThenAcc_completes hm (shiftR_eq _ s) (· ^^^ ·)⟩

theorem toNat_decide_odd (n : Nat) : (decide (n % 2 = 1)).toNat = n % 2 := by
  rcases Nat.mod_two_eq_zero_or_one n with h | h <;> rw [h] <;> rfl

theorem ofNat_eq_of_toNat {r : Byte} {n : Nat} (h : r.toNat = n % 256) : BitVec.ofNat 8 n = r :=
  BitVec.eq_of_toNat_eq ((BitVec.toNat_ofNat n 8).trans h.symm)

/-- The V rule of R114 with the complement, in terms of the byte subtracted. -/
theorem addCore_complement_overflow (m : Byte) (s : State) : (addCore (m ^^^ 0xFF#8) s).flags.v =
    decide (¬ (128 ≤ s.a.toNat ↔ 128 ≤ m.toNat) ∧ (128 ≤ m.toNat ↔ 128 ≤ (addCore (m ^^^ 0xFF#8) s).a.toNat)) := by
  obtain ⟨-, -, hv, -⟩ := addCore_sum (m ^^^ 0xFF#8) s
  have hm := m.isLt
  rw [hv, decide_eq_decide, (shift_values m).2.2]
  omega

/-- RRA: the addition takes in the bit the rotate shifted out (R243). -/
theorem rra_completes {m : MemOperand} (hm : m.mode ∈ undocModes) {s : State} {v r : Byte}
    (hv : v = memRead s (effAddr m s)) (hr : r.toNat = v.toNat / 2 + 128 * s.flags.c.toNat) :
    ∃ t, exec (.rra m) s = .next t ∧
      t.a.toNat = (s.a.toNat + r.toNat + v.toNat % 2) % 256 ∧
      t.flags.c = decide (255 < s.a.toNat + r.toNat + v.toNat % 2) ∧
      t.flags.v = decide ((128 ≤ s.a.toNat ↔ 128 ≤ r.toNat) ∧ ¬ (128 ≤ r.toNat ↔ 128 ≤ t.a.toNat)) ∧
      NZFollow t.a t ∧ CompletesStore .rra m.mode [.a] [.n, .v, .z, .c] (effAddr m s) r s t := by
  have rotated := rotR_eq v s
  rw [← hr, BitVec.ofNat_toNat, BitVec.setWidth_eq, hv] at rotated
  obtain ⟨u, ha, hflags, runs, done⟩ := modifyThen_completes hm rotated (updates_setCNZ r _ s) (updates_addCore r)
  have carry : u.flags.c.toNat = v.toNat % 2 := by
    rw [hflags, ← hv]
    exact toNat_decide_odd v.toNat
  obtain ⟨sum, hc, overflow, follows⟩ := addCore_sum r u
  rw [ha, carry] at sum hc
  rw [ha] at overflow
  exact ⟨_, runs, sum, hc, overflow, follows, done.mono_flags (by simp)⟩

/-- ISC: the subtraction takes the incoming carry, which the increment keeps, as its borrow (R245). -/
theorem isc_completes {m : MemOperand} (hm : m.mode ∈ undocModes) {s : State} {v r : Byte}
    (hv : v = memRead s (effAddr m s)) (hr : r.toNat = (v.toNat + 1) % 256) :
    ∃ t, exec (.isc m) s = .next t ∧
      (t.a.toNat : Int) = ((s.a.toNat : Int) - r.toNat - (1 - s.flags.c.toNat)) % 256 ∧
      t.flags.c = decide (r.toNat + (1 - s.flags.c.toNat) ≤ s.a.toNat) ∧
      t.flags.v = decide (¬ (128 ≤ s.a.toNat ↔ 128 ≤ r.toNat) ∧ (128 ≤ r.toNat ↔ 128 ≤ t.a.toNat)) ∧
      NZFollow t.a t ∧ CompletesStore .isc m.mode [.a] [.n, .v, .z, .c] (effAddr m s) r s t := by
  have incremented := incByte_eq v s
  rw [ofNat_eq_of_toNat hr, hv] at incremented
  obtain ⟨u, ha, hflags, runs, done⟩ := modifyThen_completes hm (g := fun v u => addCore (v ^^^ 0xFF#8) u) incremented
    (updates_setNZ r s) (fun u => updates_addCore (r ^^^ 0xFF#8) u)
  have carry : u.flags.c = s.flags.c := (congrArg Flags.c hflags).trans (setNZ_flags_c r s)
  obtain ⟨difference, noBorrow⟩ := addCore_complement r u
  obtain ⟨-, -, -, follows⟩ := addCore_sum (r ^^^ 0xFF#8) u
  have overflow := addCore_complement_overflow r u
  rw [ha, carry] at difference noBorrow
  rw [ha] at overflow
  exact ⟨_, runs, difference, Bool.eq_iff_iff.2 (noBorrow.trans decide_eq_true_iff.symm), overflow, follows,
    done.mono_flags (by simp)⟩

/-- DCP: the compare overwrites the N and Z of the decrement (R244). -/
theorem dcp_completes {m : MemOperand} (hm : m.mode ∈ undocModes) {s : State} {v r : Byte}
    (hv : v = memRead s (effAddr m s)) (hr : r.toNat = (v.toNat + 255) % 256) :
    ∃ t, exec (.dcp m) s = .next t ∧
      t.flags.c = decide (r.toNat ≤ s.a.toNat) ∧ t.flags.z = decide (s.a = r) ∧
      t.flags.n = decide (128 ≤ (s.a.toNat + 256 - r.toNat) % 256) ∧
      CompletesStore .dcp m.mode [] [.n, .z, .c] (effAddr m s) r s t := by
  have decremented := decByte_eq v s
  rw [ofNat_eq_of_toNat hr, hv] at decremented
  obtain ⟨u, ha, -, runs, done⟩ := modifyThen_completes hm (g := fun v u => compare u.a v u) decremented
    (updates_setNZ r s) (fun u => updates_compare u.a r u)
  obtain ⟨hc, hz, hn⟩ := compare_flags u.a r u
  rw [ha] at hc hz hn runs done
  exact ⟨_, runs, hc, hz, hn, done.mono_flags (by simp)⟩

/-- Settles O41: `rra_completes`, `isc_completes` and `dcp_completes`. -/
theorem modifyThenArithmetic : Obligations.ModifyThenArithmetic := fun _ _ _ _ hm hv =>
  ⟨rra_completes hm hv, isc_completes hm hv, dcp_completes hm hv⟩

/-! ### The immediate operations (R246 to R249) -/

/-- ANC: AND, with C a copy of N (R246). -/
theorem anc_completes (code v : Byte) (s : State) :
    ∃ t, exec (.anc code v) s = .next t ∧ t.a = s.a &&& v ∧ NZFollow t.a t ∧ t.flags.c = t.flags.n ∧
      Completes .anc .imm 0 [.a] [.n, .z, .c] s t := by
  have update := (updates_setAccNZ (s.a &&& v) s).trans (updates_setC ((s.a &&& v).getLsbD 7) _)
  exact ⟨_, finishCode_eq .anc .imm code _, rfl, setNZ_follows _ s, rfl, update.completes .anc .imm 0⟩

/-- ALR: AND, then a right shift, so N is clear (R247). -/
theorem alr_completes (v : Byte) (s : State) :
    ∃ t, exec (.alr v) s = .next t ∧ t.a.toNat = (s.a &&& v).toNat / 2 ∧
      t.flags.c = decide ((s.a &&& v).toNat % 2 = 1) ∧ t.flags.n = false ∧ NZFollow t.a t ∧
      Completes .alr .imm 0 [.a] [.n, .z, .c] s t := by
  have shifted := shiftR_eq (s.a &&& v) s
  generalize hr : BitVec.ofNat 8 ((s.a &&& v).toNat / 2) = r at shifted
  have runs : exec (.alr v) s = finish .alr .imm 0 (setReg .a (shiftR (s.a &&& v) s).1 (shiftR (s.a &&& v) s).2) := rfl
  rw [shifted] at runs
  have bound := (s.a &&& v).isLt
  have half : r.toNat = (s.a &&& v).toNat / 2 := by
    rw [← hr, BitVec.toNat_ofNat]
    omega
  have positive : ¬ 128 ≤ r.toNat := by omega
  have follows : NZFollow r (setCNZ r (decide ((s.a &&& v).toNat % 2 = 1)) s) := setNZ_follows r _
  exact ⟨_, runs, half, rfl, follows.2.trans (decide_eq_false positive), follows,
    ((updates_setCNZ r _ s).trans (updates_setReg .a r _)).completes .alr .imm 0⟩

/-- ARR: AND, then a rotate, with C bit 6 of the result and V bit 6 xor bit 5 (R248). -/
theorem arr_completes (v : Byte) (s : State) :
    ∃ t, exec (.arr v) s = .next t ∧ t.a.toNat = (s.a &&& v).toNat / 2 + 128 * s.flags.c.toNat ∧
      NZFollow t.a t ∧ t.flags.c = decide (64 ≤ t.a.toNat % 128) ∧
      t.flags.v = decide (¬ (64 ≤ t.a.toNat % 128 ↔ 32 ≤ t.a.toNat % 64)) ∧
      Completes .arr .imm 0 [.a] [.n, .v, .z, .c] s t := by
  generalize hr : ((s.a &&& v) >>> 1) ||| (flagBit s.flags.c <<< 7) = r
  have runs : exec (.arr v) s =
      finish .arr .imm 0 (setV (r.getLsbD 6 ^^ r.getLsbD 5) (setC (r.getLsbD 6) (setAccNZ r s))) := by
    rw [← hr]
    rfl
  have rotated : r.toNat = (s.a &&& v).toNat / 2 + 128 * s.flags.c.toNat := by
    have bound := (s.a &&& v).isLt
    have carry := s.flags.c.toNat_le
    rw [← hr, (rotate_values _ _).2, BitVec.toNat_ofNat]
    omega
  obtain ⟨six, five, -⟩ := getLsbD_low r
  have overflow : (r.getLsbD 6 ^^ r.getLsbD 5) = decide (¬ (64 ≤ r.toNat % 128 ↔ 32 ≤ r.toNat % 64)) := by
    rw [six, five, Bool.eq_iff_iff, Bool.xor_iff_ne, decide_eq_true_iff, ne_eq, decide_eq_decide]
  have update := ((updates_setAccNZ r s).trans (updates_setC (r.getLsbD 6) _)).trans
    (updates_setV (r.getLsbD 6 ^^ r.getLsbD 5) _)
  exact ⟨_, runs, rotated, setNZ_follows r s, six, overflow,
    (update.mono (List.Subset.refl _) (by simp)).completes .arr .imm 0⟩

/-- SBX: the compare of A and X with the operand, its difference kept in X (R249). -/
theorem sbx_completes (v : Byte) (s : State) :
    ∃ t, exec (.sbx v) s = .next t ∧ t.x.toNat = ((s.a &&& s.x).toNat + 256 - v.toNat) % 256 ∧
      t.flags.c = decide (v.toNat ≤ (s.a &&& s.x).toNat) ∧ NZFollow t.x t ∧
      Completes .sbx .imm 0 [.x] [.n, .z, .c] s t := by
  have difference : (BitVec.ofNat 8 (compareSum (s.a &&& s.x) v)).toNat =
      ((s.a &&& s.x).toNat + 256 - v.toNat) % 256 := by
    have bound := v.isLt
    rw [BitVec.toNat_ofNat, compareSum_eq]
    omega
  obtain ⟨hc, -⟩ := compare_flags (s.a &&& s.x) v s
  exact ⟨_, rfl, difference, hc, setNZ_follows _ _,
    ((updates_compare _ v s).trans (updates_setReg .x _ _)).completes .sbx .imm 0⟩

/-- Settles O42: `anc_completes`, `alr_completes`, `arr_completes` and `sbx_completes`. -/
theorem immediateUndocumented : Obligations.ImmediateUndocumented := fun code v s =>
  ⟨anc_completes code v s, alr_completes v s, arr_completes v s, sbx_completes v s⟩

end Sys2Proof.Machine

/-! SUPPORT. The statements of 50_video.md: what the unobservable part of the state influences, and the decode pass. -/

namespace Sys2Proof.Machine

/-! ### The unobservable part of the state (R25, R31, R356) -/

/-- The state with the visible part of `s` and the unobservable part of `u`: clock, dirty table, framebuffer, ready and
running flags. -/
def withUnseen (u s : State) : State :=
  { s with cycles := u.cycles, dirty := u.dirty, fb := u.fb, frameReady := u.frameReady, running := u.running }

/-- Exchanging the unobservable part changes nothing visible. -/
theorem sameVisible_withUnseen (u s : State) : SameVisible s (withUnseen u s) :=
  ⟨rfl, rfl, rfl, rfl, rfl, rfl, rfl, rfl, rfl, rfl, rfl, rfl⟩

/-- A state that differs from `s` in nothing visible is `s` with another unobservable part. -/
theorem SameVisible.eq_withUnseen {s s' : State} (h : SameVisible s s') : s' = withUnseen s' s := by
  obtain ⟨ha, hx, hy, hsp, hpc, hflags, hfault, hfaultByte, hmem, hbankSel, hnmi, hirq⟩ := h
  simp only [withUnseen, ← ha, ← hx, ← hy, ← hsp, ← hpc, ← hflags, ← hfault, ← hfaultByte, ← hmem, ← hbankSel, ← hnmi,
    ← hirq]

/-! Writes, pushes and entries commute with exchanging the unobservable part; reads do not see it. -/

theorem markDirtyIn_withUnseen (b : Bank) (a : Addr) (u s : State) :
    markDirtyIn b a (withUnseen u s) = withUnseen (markDirtyIn b a u) (markDirtyIn b a s) := by
  unfold markDirtyIn
  split <;> rfl

theorem markDirty_withUnseen (a : Addr) (u s : State) :
    markDirty a (withUnseen u s) = withUnseen (markDirty a u) (markDirty a s) := by
  unfold markDirty
  rw [markDirtyIn_withUnseen, markDirtyIn_withUnseen]

/-- A write marks the same scanline in both dirty tables, whatever they hold. -/
theorem memWrite_withUnseen (a : Addr) (v : Byte) (u s : State) :
    memWrite a v (withUnseen u s) = withUnseen (memWrite a v u) (memWrite a v s) := by
  unfold memWrite
  split_ifs
  · rfl
  · rfl
  · rfl
  · exact markDirty_withUnseen a { u with mem := Memory.set u.mem a.toNat v }
      { s with mem := Memory.set s.mem a.toNat v }

theorem push_withUnseen (v : Byte) (u s : State) : push v (withUnseen u s) = withUnseen u (push v s) := by
  rw [push_eq, push_eq]
  rfl

theorem pushWord_withUnseen (w : Addr) (u s : State) : pushWord w (withUnseen u s) = withUnseen u (pushWord w s) := by
  unfold pushWord
  rw [push_withUnseen, push_withUnseen]

theorem enterInterrupt_withUnseen (vec : Addr) (b : Bool) (skew : Addr) (u s : State) :
    enterInterrupt vec b skew (withUnseen u s) = withUnseen u (enterInterrupt vec b skew s) := by
  rw [enterInterrupt_eq, enterInterrupt_eq]
  simp only [push_withUnseen]
  rfl

@[simp] theorem memRead_withUnseen (u s : State) (a : Addr) : memRead (withUnseen u s) a = memRead s a := rfl

@[simp] theorem effAddr_withUnseen (m : MemOperand) (u s : State) : effAddr m (withUnseen u s) = effAddr m s := by
  cases m <;> rfl

@[simp] theorem penalty_withUnseen (m : MemOperand) (u s : State) : penalty m (withUnseen u s) = penalty m s := by
  cases m <;> rfl

/-- The result `r` is `t` but for the unobservable part, and its clock is as far from that of `u` as the clock of `t` is
from that of `s`. -/
def AnswersAlike (s t u : State) (r : Result) : Prop :=
  ∃ u', r = .next (withUnseen u' t) ∧ u'.cycles + s.cycles = t.cycles + u.cycles

/-- Charging two states that differ in nothing visible, at the clocks of `s` and `u`. -/
theorem charge_withUnseen {base pen : Nat} {s t u w v w' : State} (h : charge base pen w = .next t)
    (differ : w' = withUnseen v w) (hw : w.cycles = s.cycles) (hv : v.cycles = u.cycles) :
    AnswersAlike s t u (charge base pen w') := by
  obtain ⟨⟩ := h
  subst differ
  refine ⟨{ v with cycles := v.cycles + (base + pen) }, rfl, ?_⟩
  show v.cycles + (base + pen) + s.cycles = w.cycles + (base + pen) + u.cycles
  omega

theorem store_withUnseen {op : Op} {m : MemOperand} {v : Byte} {s t : State} (u : State)
    (h : store op m v s = .next t) : AnswersAlike s t u (store op m v (withUnseen u s)) := by
  unfold store at h ⊢
  rw [effAddr_withUnseen, penalty_withUnseen]
  exact charge_withUnseen h (memWrite_withUnseen _ v u s) (memWrite_cycles _ v s) (memWrite_cycles _ v u)

theorem branch_withUnseen {op : Op} {cond : Bool} {off : Byte} {s t : State} (u : State)
    (h : branch op cond off s = .next t) : AnswersAlike s t u (branch op cond off (withUnseen u s)) := by
  cases cond
  · exact charge_withUnseen (v := u) h rfl rfl rfl
  · exact charge_withUnseen (v := u) h rfl rfl rfl

/-- A shift, rotate, increment or decrement that neither reads nor writes the unobservable part. -/
def IgnoresUnseen (f : Byte → State → Byte × State) : Prop :=
  ∀ (v : Byte) (u s : State), f v (withUnseen u s) = ((f v s).1, withUnseen u (f v s).2) ∧ (f v s).2.cycles = s.cycles

theorem ignoresUnseen_byteFunctions : IgnoresUnseen shiftL ∧ IgnoresUnseen shiftR ∧ IgnoresUnseen rotL ∧
    IgnoresUnseen rotR ∧ IgnoresUnseen incByte ∧ IgnoresUnseen decByte :=
  ⟨fun _ _ _ => ⟨rfl, rfl⟩, fun _ _ _ => ⟨rfl, rfl⟩, fun _ _ _ => ⟨rfl, rfl⟩, fun _ _ _ => ⟨rfl, rfl⟩,
    fun _ _ _ => ⟨rfl, rfl⟩, fun _ _ _ => ⟨rfl, rfl⟩⟩

theorem readModifyWrite_withUnseen {f : Byte → State → Byte × State} (hf : IgnoresUnseen f) (m : MemOperand)
    (u s : State) : readModifyWrite m f (withUnseen u s) = ((readModifyWrite m f s).1,
      withUnseen (memWrite (effAddr m s) (readModifyWrite m f s).1 u) (readModifyWrite m f s).2) := by
  simp only [readModifyWrite, effAddr_withUnseen, memRead_withUnseen, (hf _ u s).1, memWrite_withUnseen]

theorem readModifyWrite_cycles {f : Byte → State → Byte × State} (hf : IgnoresUnseen f) (m : MemOperand) (s : State) :
    (readModifyWrite m f s).2.cycles = s.cycles :=
  (memWrite_cycles _ _ _).trans (hf _ s s).2

theorem modify_withUnseen {f : Byte → State → Byte × State} (hf : IgnoresUnseen f) {op : Op} {m : MemOperand}
    {s t : State} (u : State) (h : Machine.modify op m f s = .next t) :
    AnswersAlike s t u (Machine.modify op m f (withUnseen u s)) := by
  unfold Machine.modify at h ⊢
  rw [readModifyWrite_withUnseen hf, penalty_withUnseen]
  exact charge_withUnseen h rfl (readModifyWrite_cycles hf m s) (memWrite_cycles _ _ u)

theorem modifyThen_withUnseen {f : Byte → State → Byte × State} (hf : IgnoresUnseen f) {g : Byte → State → State}
    {op : Op} {m : MemOperand} {s t : State} (u : State) (h : modifyThen op m f g s = .next t)
    (hg : ∀ v u s, g v (withUnseen u s) = withUnseen u (g v s) ∧ (g v s).cycles = s.cycles) :
    AnswersAlike s t u (modifyThen op m f g (withUnseen u s)) := by
  unfold modifyThen at h ⊢
  rw [readModifyWrite_withUnseen hf, penalty_withUnseen]
  exact charge_withUnseen h (hg _ _ _).1 ((hg _ u _).2.trans (readModifyWrite_cycles hf m s)) (memWrite_cycles _ _ u)

/-- No instruction is influenced by the unobservable part. The memory writes and the branches need their lemmas; what is
left is field updates, none of which reads or writes it but for the charge. -/
theorem exec_withUnseen {i : Instr} {s t : State} (u : State) (h : exec i s = .next t) :
    AnswersAlike s t u (exec i (withUnseen u s)) := by
  obtain ⟨hshiftL, hshiftR, hrotL, hrotR, hinc, hdec⟩ := ignoresUnseen_byteFunctions
  cases i
  case bpl | bmi | bvc | bvs | bcc | bcs | bne | beq => exact branch_withUnseen u h
  case sta | stx | sty => exact store_withUnseen u h
  case inc | dec | asl | lsr | rol | ror => exact modify_withUnseen (by assumption) u h
  case slo | rla | sre | rra | dcp | isc =>
    simp only [exec, execSlo, execRla, execSre, execRra, execDcp, execIsc] at h ⊢
    exact modifyThen_withUnseen (by assumption) u h fun _ _ _ => ⟨rfl, rfl⟩
  case pha | php => exact charge_withUnseen h (push_withUnseen _ u s) (push_cycles _ s) rfl
  case jsr w =>
    have jumped := congrArg (fun w' => { w' with pc := w }) (pushWord_withUnseen (s.pc - 1) u s)
    exact charge_withUnseen h jumped (pushWord_cycles (s.pc - 1) s) rfl
  case brk => exact charge_withUnseen h (enterInterrupt_withUnseen _ _ _ u s) (enterInterrupt_cycles _ _ _ s) rfl
  case unimpl =>
    obtain ⟨⟩ := h
    exact ⟨u, rfl, Nat.add_comm _ _⟩
  all_goals exact charge_withUnseen (v := u) h rfl rfl rfl

/-- No step is influenced by the unobservable part: what it runs is decided by the visible part, and so is what that
does. -/
theorem step_withUnseen {s t : State} (u : State) (h : step s = .next t) :
    AnswersAlike s t u (step (withUnseen u s)) := by
  obtain ⟨hfault, ⟨hnmi, h⟩ | ⟨hnmi, hirq, hi, h⟩ | ⟨hnmi, hirq, i, rest, hd, h⟩⟩ := step_cases h
  · rw [step_of_nmi (s := withUnseen u s) hfault hnmi]
    exact charge_withUnseen h (enterInterrupt_withUnseen _ _ _ u { s with nmiPending := false })
      (enterInterrupt_cycles _ _ _ _) rfl
  · rw [step_of_irq (s := withUnseen u s) hfault hnmi hirq hi]
    exact charge_withUnseen h (enterInterrupt_withUnseen _ _ _ u s) (enterInterrupt_cycles _ _ _ s) rfl
  · rw [step_of_decode (s := withUnseen u s) ⟨hfault, hnmi, hirq⟩ hd]
    exact exec_withUnseen u h

/-- Settles O51: the second state is the first with another unobservable part, which influences no step
(`step_withUnseen`). -/
theorem unobservableStateHasNoInfluence : Obligations.UnobservableStateHasNoInfluence := by
  intro s s' t same h
  obtain ⟨u', hstep, hclock⟩ := step_withUnseen s' h
  rw [← same.eq_withUnseen] at hstep
  exact ⟨withUnseen u' t, hstep, sameVisible_withUnseen u' t, hclock⟩

/-! ### The pixels of a decode pass (R302 to R305) -/

/-- Pixel `x` of an output row of a scanline: seven samples to a byte, each twice. -/
theorem getElem_rowPixels (m : Memory) (b : Bank) (r x : Nat) (hx : x < (rowPixels m b r).length) :
    (rowPixels m b r)[x] = lut (Memory.get m (videoIndex b r (x / 2 / 7))) (x / 2 % 7) := by
  have inside : x / 14 < (List.range 40).length := by
    rw [rowPixels_length] at hx
    rw [List.length_range]
    omega
  have byte : x / 14 = x / 2 / 7 := by omega
  have sample : x % 14 / 2 = x / 2 % 7 := by omega
  have joined := flatMap_getElem_const (fun k => bytePixels (Memory.get m (videoIndex b r k))) 14 (by decide)
    (fun _ => bytePixels_length _) (List.range 40) x inside hx
  rw [getElem_bytePixels, List.getElem_range, byte, sample] at joined
  exact joined

/-- Row `y` of a frame: each scanline's row twice. -/
theorem getElem_frameRows (m : Memory) (b : Bank) (y : Nat) (hy : y < (frameRows m b).length) :
    (frameRows m b)[y] = pixelRow m b (y / 2) := by
  have inside : y / 2 < (List.range 192).length := by
    rw [frameRows_length] at hy
    rw [List.length_range]
    omega
  have joined := flatMap_getElem_const (fun r => [pixelRow m b r, pixelRow m b r]) 2 (by decide) (fun _ => rfl)
    (List.range 192) y inside hy
  rw [List.getElem_range] at joined
  refine joined.trans ?_
  obtain h | h : y % 2 = 0 ∨ y % 2 = 1 := by omega
  · simp only [h, List.getElem_cons_zero]
  · simp only [h, List.getElem_cons_succ, List.getElem_cons_zero]

theorem getElem_pixelRow (m : Memory) (b : Bank) (r : Nat) (x : Fin 560) :
    (pixelRow m b r)[x] = lut (Memory.get m (videoIndex b r (x.val / 2 / 7))) (x.val / 2 % 7) := by
  unfold pixelRow
  rw [Fin.getElem_fin, Vector.getElem_mk, List.getElem_toArray, getElem_rowPixels]

theorem getElem_frame (m : Memory) (b : Bank) (y : Fin 384) : (frame m b)[y] = pixelRow m b (y.val / 2) := by
  unfold frame
  rw [Fin.getElem_fin, Vector.getElem_mk, List.getElem_toArray, getElem_frameRows]

/-- The colour of sample `d`: bit `d` of the byte, by the `DOT_ORDER` of this configuration (R302, D30). -/
theorem lut_eq (v : Byte) (d : Nat) : lut v d = if v.getLsbD d then cfg.pixelWhite else cfg.pixelBlack := rfl

theorem bankBase_eq (b : Bank) : bankBase b = if b = .bank0 then cfg.vbank0Base else cfg.vbank1Base := by
  cases b <;> rfl

/-- Settles O53: the pixels by their rows (`getElem_frame`, `getElem_pixelRow`), and the colours by `lut_eq`. -/
theorem pixelPlacement : Obligations.PixelPlacement := by
  refine ⟨fun s y x base hbase => ?_, fun v d _ => lut_eq v d⟩
  rw [decodePass_fb, getElem_frame, getElem_pixelRow, videoIndex, bankBase_eq, hbase]

/-! ### What a decode pass depends on and what it changes (R306 to R309) -/

/-- Bit 7 of a video byte selects nothing (R306). -/
theorem lut_low_bits (v : Byte) {d : Nat} (hd : d < 7) : lut (v &&& 0x7F#8) d = lut v d := by
  have low : (0x7F#8).getLsbD d = true := by interval_cases d <;> rfl
  rw [lut_eq, lut_eq, BitVec.getLsbD_and, low, Bool.and_true]

theorem bytePixels_low_bits (v : Byte) : bytePixels (v &&& 0x7F#8) = bytePixels v :=
  List.flatMap_congr fun d hd => by rw [lut_low_bits v (List.mem_range.1 hd)]

/-- Settles O54: a frame is made of its rows, a row of the low bits of its forty bytes. -/
theorem onlyDisplayedBitsMatter : Obligations.OnlyDisplayedBitsMatter := by
  intro s s' sameBank agree
  rw [decodePass_fb, decodePass_fb, ← sameBank]
  refine frame_congr fun r hr => List.flatMap_congr fun k hk => ?_
  rw [← bytePixels_low_bits, agree r hr k (List.mem_range.1 hk), bytePixels_low_bits]

/-- Every dirty flag after a pass: those of the decoded bank's 192 scanlines cleared (R309). -/
theorem getElem_clearDirty (b : Bank) (t : Vector Bool 384) (i : Fin 384) :
    (clearDirty b t)[i] = (t[i] && !decide (bankLine b ≤ i.val ∧ i.val < bankLine b + 192)) := by
  unfold clearDirty
  rw [Fin.getElem_fin, Vector.getElem_ofFn]
  split_ifs with h <;> simp [h]

theorem sameVisible_decodePass (s : State) : SameVisible s (decodePass s) where
  a := decodePass_a s
  x := decodePass_x s
  y := decodePass_y s
  sp := decodePass_sp s
  pc := decodePass_pc s
  flags := decodePass_flags s
  fault := decodePass_fault s
  faultByte := decodePass_faultByte s
  mem := decodePass_mem s
  bankSel := decodePass_bankSel s
  nmiPending := decodePass_nmiPending s
  irqLine := decodePass_irqLine s

/-- Settles O55: the dirty flags are `getElem_clearDirty`; the other fields are as the pass leaves them. -/
theorem decodePassEffects : Obligations.DecodePassEffects := by
  refine fun s => ⟨decodePass_frameReady s, fun i => ?_, sameVisible_decodePass s, decodePass_cycles s,
    decodePass_running s⟩
  rw [decodePass_dirty, getElem_clearDirty]

end Sys2Proof.Machine

/-! SUPPORT. The statements of 60_exceptions.md: a machine without a latched fault always steps, the entry into an
interrupt, the hardware interrupts. -/

namespace Sys2Proof.Machine

/-- Settles O7: `step_completes` and `step_of_fault`. -/
theorem unfaultedStepCompletes : Obligations.UnfaultedStepCompletes := fun _ => ⟨step_completes, step_of_fault⟩

/-- Settles O33: `entered_enterInterrupt`, and the entry leaves the clock. -/
theorem entrySavesAndVectors : Obligations.EntrySavesAndVectors := fun vec b skew s =>
  ⟨entered_enterInterrupt vec b skew s, enterInterrupt_cycles vec b skew s⟩

/-- A hardware service sequence is an entry that saves the PC of the instruction not run (R323, R324), at a cost. -/
theorem entered_unskewed (vec : Addr) (s : State) (op : Op) :
    Entered vec false s.pc s (charged op .imp 0 (enterInterrupt vec false 0 s)) := by
  have unskewed : s.pc + 0 = s.pc := BitVec.add_zero s.pc
  have entered := (entered_enterInterrupt vec false 0 s).charged op .imp 0
  rwa [unskewed] at entered

/-- Settles O35: NMI and IRQ are entries without a skew (`entered_unskewed`), each at its base cost. -/
theorem hardwareInterruptsEnter : Obligations.HardwareInterruptsEnter := by
  refine fun s hfault => ⟨fun hnmi => ?_, fun hnmi hirq hi => ?_⟩
  · rw [step_of_nmi hfault hnmi, serviceNmi_eq]
    exact ⟨_, rfl, entered_unskewed cfg.vecNmi { s with nmiPending := false } .nmi,
      congrArg (· + baseCycles .nmi .imp) (enterInterrupt_cycles cfg.vecNmi false 0 _)⟩
  · rw [step_of_irq hfault hnmi hirq hi, serviceIrq_eq]
    exact ⟨_, rfl, entered_unskewed cfg.vecIrq s .irq, (enterInterrupt_irqLine cfg.vecIrq false 0 s).trans hirq,
      congrArg (· + baseCycles .irq .imp) (enterInterrupt_cycles cfg.vecIrq false 0 s)⟩

end Sys2Proof.Machine

/-! SUPPORT. The statements of 70_reset_and_hazards.md: what reset restores, and that no host operation breaks the
canonical form of memory. -/

namespace Sys2Proof.Machine

/-- Settles O57: each field is the one `State.reset` gives; the dirty table is all set. -/
theorem resetRestoresPowerOnState : Obligations.ResetRestoresPowerOnState := by
  intro s
  have flags (f : Flag) : flagOf f (resetMachine s) = false := by cases f <;> rfl
  have dirty (i : Fin 384) : (resetMachine s).dirty[i] = true := Vector.getElem_replicate _
  exact ⟨rfl, rfl, rfl, rfl, rfl, flags, fun _ => rfl, dirty, rfl, rfl, rfl, rfl, rfl, rfl, rfl, rfl⟩

/-- The loop of a tick is made of steps and a decode pass, which stores nothing. -/
theorem runQuantum_keeps_invariant (fuel budget : Nat) {s : State} (hs : Invariant s) :
    Invariant (runQuantum fuel budget s) := by
  induction fuel generalizing budget s with
  | zero => exact hs
  | succ fuel ih =>
    unfold runQuantum
    split
    · rwa [Invariant, decodePass_mem]
    · split
      · next t ht =>
        have kept := stepKeepsMemoryCanonical s t hs ht
        split
        · exact kept
        · exact ih _ kept
      · exact hs
      · exact hs

theorem tick_keeps_invariant {s : State} (hs : Invariant s) : Invariant (tick s) := by
  unfold tick
  split
  · exact runQuantum_keeps_invariant _ _ hs
  · exact hs

theorem loadBios_keeps_invariant {bytes : List Byte} {s t : State} (hs : Invariant s)
    (h : loadBios bytes s = .next t) : Invariant t := by
  unfold loadBios loadBiosAt at h
  split at h
  · next fits =>
    obtain ⟨⟩ := h
    exact Memory.wf_load hs _ _ fits
  · nomatch h

theorem loadProgram_keeps_invariant {bytes : List Byte} {s t : State} (hs : Invariant s)
    (h : loadProgram bytes s = .next t) : Invariant t := by
  match bytes with
  | b0 :: b1 :: b2 :: b3 :: payload =>
    rw [loadProgram_header] at h
    split at h
    · next accepted =>
      obtain ⟨⟩ := h
      exact Memory.wf_load hs _ _ accepted.2
    · nomatch h
  | [] | [_] | [_, _] | [_, _, _] => nomatch h

/-- Settles O48: reset empties the memory, the image copies and the steps of a tick keep its form, and the other
operations do not touch it. -/
theorem hostOperationsKeepMemoryCanonical : Obligations.HostOperationsKeepMemoryCanonical := by
  intro op s t hs h
  cases op
  case loadBios bytes => exact loadBios_keeps_invariant hs h
  case loadProgram bytes => exact loadProgram_keeps_invariant hs h
  case tick =>
    obtain rfl : tick s = t := Host.Outcome.next.inj h
    exact tick_keeps_invariant hs
  case reset =>
    obtain ⟨⟩ := h
    exact Memory.wf_nil
  case start | stop | acknowledgeFrame | requestNmi | setIrq =>
    obtain ⟨⟩ := h
    exact hs

end Sys2Proof.Machine
